-- ==== Sys2Proof/Word.lean ====
section
/-! DEFINITION. The word types of the block (R8, R9): bytes, 16-bit CRC values, 32-bit registers and addresses. -/

namespace Sys2Proof

/-- A byte (u8): payload bytes, wire bytes, the two escape constants. -/
abbrev Byte := BitVec 8

/-- A CRC value (u16). -/
abbrev Half := BitVec 16

/-- An interface register, a command word, a host address (R8: 32 bits). -/
abbrev Word := BitVec 32

end Sys2Proof
end

