-- ==== Sys2Proof/Config.lean ====
section
/-! DEFINITION. The build-time parameters of R6, and the free values: what the spec leaves OPEN is an opaque constant. -/

namespace Sys2Proof

/-- POOL_MODE (R6, D8): how the parser is driven. -/
inductive PoolMode where
  | afterPush
  | background
  deriving DecidableEq, Repr

/-- OVERWRITE_GUARD (R6, D9): which overwrite checks a push makes. -/
inductive OverwriteGuard where
  | strict
  | literal
  deriving DecidableEq, Repr

/-- The parameters of R6 that a rule reads as data, each with R6's default.
`refusedRegions` is `MemAdmit` as the pairs (a, n) it refuses; the spec leaves it OPEN and gives no default
(log 2). The parameters fixed as opaque constants stand below. -/
structure Config where
  /-- N, capacity of the Byte Stream Buffer -/
  n : Nat := 4096
  /-- K, capacity of the Frame Index -/
  k : Nat := 16
  /-- POLY, the CRC polynomial -/
  poly : Half := 0x1021#16
  /-- HEADER -/
  header : Byte := 0xFF#8
  /-- TRAILER -/
  trailer : Byte := 0x00#8
  /-- ESCAPE -/
  escape : Byte := 0xFE#8
  /-- XOR_MASK -/
  xorMask : Byte := 0x20#8
  /-- POOL_MODE -/
  poolMode : PoolMode := .afterPush
  /-- OVERWRITE_GUARD -/
  guardMode : OverwriteGuard := .strict
  /-- the regions (a, n) that the platform does not admit -/
  refusedRegions : List (Nat × Nat)
  deriving DecidableEq, Repr

/-- The hardware of R6: every parameter at its default. `MemAdmit` has none; here it refuses nothing below 2^32, as D16
and 95_test_vectors take it (DESIGN CHOICE, log 2). -/
def Config.hardware : Config where
  refusedRegions := []

/-- DEFAULT_TIMEOUT_MS (R6, R203): an integer ≥ 0 with no value in the spec. Free (log 3). -/
opaque Config.defaultTimeoutMs : Nat

/-- Bits 31:2 of BASE (R6: OPEN, 4-aligned). Free (log 4). -/
opaque Config.baseWord : BitVec 30

/-- BASE, the host address of register offset 0x00 (R6, R37). -/
def Config.base : Word := Config.baseWord ++ 0#2

/-- SW_POLY, the polynomial of the software profile (R103, D12): no value in the spec. Free (log 5). -/
opaque Config.swPoly : Half

/-- The software profile of R103: POLY = SW_POLY, all else as the hardware. -/
def Config.softwareProfile : Config := { Config.hardware with poly := Config.swPoly }

/-- The Clock's draw `expired` (R47, U3) at the `draw`-th free value taken, in a wait whose effective timeout is
`timeout`. Free (log 6). -/
opaque Config.clockExpired (draw timeout : Nat) : Bool

/-- Which of two enabled agents of the block moves when the schedule names none (R22, U4): the consumer sequencer
when true, the Pool agent when false. Free (log 7). -/
opaque Config.freeTurn (draw : Nat) : Bool

end Sys2Proof
end

