-- ==== Sys2Proof/Syntax.lean ====
section
/-! DEFINITION. The instructions: one constructor per row of spec/opcode_table.json (R82). -/

namespace Sys2Proof

/-- A command of the block (R82). Only CRC_UPDATE and PUSH_BYTE carry operands in their word (R80, R81); every other
operand is taken from ARG0 to ARG3 as latched at issue (R83). -/
inductive Instr where
  /-- CRC_UPDATE (R104): CMD.BYTE and CMD.SEED -/
  | crcUpdate (byte : Byte) (seed : Bool)
  /-- ENCODE (R123) -/
  | encode
  /-- PUSH_BYTES (R146) -/
  | pushBytes
  /-- POOL (R171) -/
  | pool
  /-- HAS_NEW_FRAME (R206) -/
  | hasNewFrame
  /-- COUNT_FRAME (R207) -/
  | countFrame
  /-- GET_OLDEST (R208) -/
  | getOldest
  /-- GET_LATEST (R209) -/
  | getLatest
  /-- REMOVE_OLDEST (R215) -/
  | removeOldest
  /-- REMOVE_LATEST (R216) -/
  | removeLatest
  /-- GET_DATA_BYTE (R210) -/
  | getDataByte
  /-- PUSH_BYTE (R145): the byte DATA and bits 31:8 of the PUSH word, which R81 ignores -/
  | pushByte (data : Byte) (ignored : BitVec 24)
  deriving DecidableEq, Repr

/-- The two word formats stand on two registers (R86): CMD at offset 0x00, PUSH at offset 0x20. -/
inductive Port where
  | cmd
  | push
  deriving DecidableEq, Repr

end Sys2Proof
end

