-- ==== Sys2Proof/WellFormed.lean ====
section
/-! DEFINITION. Well-formed instructions and well-formed configurations (R7). -/

namespace Sys2Proof

/-- Every instruction is well formed: the types of its operands hold exactly the values its fields can take (R80, R81). -/
def Instr.wf (i : Instr) : Bool :=
  match i with
  | .crcUpdate _ _ => true
  | .encode => true
  | .pushBytes => true
  | .pool => true
  | .hasNewFrame => true
  | .countFrame => true
  | .getOldest => true
  | .getLatest => true
  | .removeOldest => true
  | .removeLatest => true
  | .getDataByte => true
  | .pushByte _ _ => true

/-- The delimiters of a configuration: the bytes stuffing replaces (R120). -/
def Config.delimiters (c : Config) : List Byte := [c.header, c.trailer, c.escape]

/-- R6: 1 ≤ N ≤ 2^16 and 1 ≤ K ≤ 2^16. -/
def Config.capacitiesOk (c : Config) : Bool :=
  decide (1 ≤ c.n ∧ c.n ≤ 65536 ∧ 1 ≤ c.k ∧ c.k ≤ 65536)

/-- R7: HEADER, TRAILER and ESCAPE are pairwise distinct. -/
def Config.delimitersDistinct (c : Config) : Bool :=
  decide (c.header ≠ c.trailer ∧ c.header ≠ c.escape ∧ c.trailer ≠ c.escape)

/-- R7: XOR_MASK ≠ 0, and no delimiter XOR XOR_MASK is a delimiter. -/
def Config.maskOk (c : Config) : Bool :=
  decide (c.xorMask ≠ 0#8) && c.delimiters.all fun r => !c.delimiters.contains (r ^^^ c.xorMask)

/-- R7: the configuration is well formed; a model refuses any other. -/
def Config.wf (c : Config) : Bool :=
  c.capacitiesOk && c.delimitersDistinct && c.maskOk

end Sys2Proof
end

