-- ==== Sys2Proof/Decode.lean ====
section
/-! DEFINITION. Command encoding (R80 to R86): the decoder of the two ports, and the encoder. -/

namespace Sys2Proof

/-- Why a CMD word is illegal (R85). -/
inductive DecodeError where
  /-- OP is 0x00 or 0x0C to 0xFF -/
  | illegalOpcode
  /-- a reserved bit of the opcode's format is set -/
  | reservedBits
  deriving DecidableEq, Repr

/-- R80: OP, bits 7:0. -/
def cmdOp (w : Word) : Byte := w.extractLsb' 0 8

/-- R80: BYTE, bits 15:8. -/
def cmdByte (w : Word) : Byte := w.extractLsb' 8 8

/-- R80: SEED, bit 16. -/
def cmdSeed (w : Word) : Bool := w.getLsbD 16

/-- R80: bits 31:17, reserved for CRC_UPDATE. -/
def cmdReservedHigh (w : Word) : BitVec 15 := w.extractLsb' 17 15

/-- R80: bits 31:8, reserved for every opcode but CRC_UPDATE. -/
def cmdReservedAll (w : Word) : BitVec 24 := w.extractLsb' 8 24

/-- R82: the commands 0x02 to 0x0B, which have no field but OP. -/
def plainCommand (op : Byte) : Option Instr :=
  match op.toNat with
  | 0x02 => some .encode
  | 0x03 => some .pushBytes
  | 0x04 => some .pool
  | 0x05 => some .hasNewFrame
  | 0x06 => some .countFrame
  | 0x07 => some .getOldest
  | 0x08 => some .getLatest
  | 0x09 => some .removeOldest
  | 0x0A => some .removeLatest
  | 0x0B => some .getDataByte
  | _ => none

/-- R84: decoding of a word written to CMD. -/
def decodeCmd (w : Word) : Except DecodeError Instr :=
  if cmdOp w = 0x01#8 then
    if cmdReservedHigh w = 0#15 then .ok (.crcUpdate (cmdByte w) (cmdSeed w)) else .error .reservedBits
  else
    match plainCommand (cmdOp w) with
    | some i => if cmdReservedAll w = 0#24 then .ok i else .error .reservedBits
    | none => .error .illegalOpcode

/-- R81: every word written to PUSH is a PUSH_BYTE. -/
def decodePush (w : Word) : Instr := .pushByte (w.extractLsb' 0 8) (w.extractLsb' 8 24)

/-- The decoder: the instruction a word written to a port stands for. -/
def decode (p : Port) (w : Word) : Except DecodeError Instr :=
  match p with
  | .cmd => decodeCmd w
  | .push => .ok (decodePush w)

/-- R80: the CMD word with the given fields, reserved bits 0. -/
def cmdWord (op byte : Byte) (seed : Bool) : Word := 0#15 ++ BitVec.ofBool seed ++ byte ++ op

/-- The encoder: an instruction's port and word (R80 to R82). -/
def encode (i : Instr) : Port × Word :=
  match i with
  | .crcUpdate byte seed => (.cmd, cmdWord 0x01#8 byte seed)
  | .encode => (.cmd, cmdWord 0x02#8 0#8 false)
  | .pushBytes => (.cmd, cmdWord 0x03#8 0#8 false)
  | .pool => (.cmd, cmdWord 0x04#8 0#8 false)
  | .hasNewFrame => (.cmd, cmdWord 0x05#8 0#8 false)
  | .countFrame => (.cmd, cmdWord 0x06#8 0#8 false)
  | .getOldest => (.cmd, cmdWord 0x07#8 0#8 false)
  | .getLatest => (.cmd, cmdWord 0x08#8 0#8 false)
  | .removeOldest => (.cmd, cmdWord 0x09#8 0#8 false)
  | .removeLatest => (.cmd, cmdWord 0x0A#8 0#8 false)
  | .getDataByte => (.cmd, cmdWord 0x0B#8 0#8 false)
  | .pushByte data ignored => (.push, ignored ++ data)

/-- The port a bare word of the opcode table belongs to. The table gives no port with a word: a word that is a legal
command is taken as written to CMD, any other as written to PUSH, where every word is legal (R81).
DESIGN CHOICE (log 15). -/
def tablePort (w : Word) : Port :=
  match decodeCmd w with
  | .ok _ => .cmd
  | .error _ => .push

/-- The 32-bit word of a table row's `nbits` low bits `w`, the bits above being 0. -/
def tableWord (nbits w : Nat) : Word := BitVec.ofNat 32 (w % 2 ^ nbits)

/-- The instruction the decoder reads from a table row's bits (log 15). Every format is one 32-bit word (R86). -/
def decodeTableWord (nbits w : Nat) : Option Instr :=
  if nbits ≤ 32 then
    match decode (tablePort (tableWord nbits w)) (tableWord nbits w) with
    | .ok i => some i
    | .error _ => none
  else none

end Sys2Proof
end

