-- ==== Sys2Proof/Machine/State.lean ====
section
/-! DEFINITION. The state of the block (R21), as plain data, and the state after reset (R49). -/

namespace Sys2Proof.Machine

/-- Why the machine stops with a fault: never. R242: "There are no traps and no exceptions"; an error is a completion
code, and no state of the block is stuck (R245). No constructor, so nobody raises one: safe, since the spec gives every
command an effect (log 16). -/
inductive Fault where
  deriving DecidableEq, Repr

/-- Why the machine refuses. -/
inductive Refusal where
  /-- Raised by an arm of `exec` for an instruction that has no meaning yet. Safe. No arm raises it. -/
  | notModelled (mnemonic : String)
  /-- Raised by `step` for a configuration that breaks R7: R271, "A model refuses to construct a block whose parameters
  break 00_scope.md rule R7". Safe: no state of the block exists for it (log 17). -/
  | illFormedConfiguration
  deriving DecidableEq, Repr

/-- The status codes of R240, in its order. -/
inductive StatusCode where
  | ok
  | generic
  | nullArgument
  | invalidArgument
  | crcMismatch
  | empty
  | full
  | timeout
  deriving DecidableEq, Repr

/-- A Frame Index entry (R28). -/
structure Descriptor where
  idByte : Byte
  startPos : Nat
  deriving DecidableEq, Repr

/-- The five getters (44_frame_store §1): the `op` of a WAITING phase (R44). -/
inductive Getter where
  | getOldest
  | getLatest
  | removeOldest
  | removeLatest
  | getDataByte
  deriving DecidableEq, Repr

/-- The consumer sequencer's phase (R44). -/
inductive Phase where
  /-- no command -/
  | idle
  /-- a command word and ARG0..ARG3, latched at issue -/
  | ready (w a0 a1 a2 a3 : Word)
  /-- a POOL between two pool steps -/
  | pooling
  /-- a PUSH_BYTES: source address, bytes done, bytes total -/
  | pushing (addr : Word) (i n : Nat)
  /-- a getter between two checks: destination, capacity (as latched) and effective timeout -/
  | waiting (op : Getter) (dst cap : Word) (timeout : Nat)
  deriving DecidableEq, Repr

/-- The width of a host register access (R38). -/
inductive AccessWidth where
  | w8
  | w16
  | w32
  | w64
  deriving DecidableEq, Repr

/-- One step of one agent of R20, or a reset. The model's own type (log 7): what the outside world does, and in which
order the agents move, is a list of these. -/
inductive Turn where
  /-- the consumer sequencer's step (nothing when it has none) -/
  | consumer
  /-- the Pool agent's step (nothing when it has none) -/
  | poolAgent
  /-- a host or producer write to the register window, at an offset from BASE (R37, R38) -/
  | hostWrite (offset : Nat) (width : AccessWidth) (value : Word)
  /-- a host read of the register window (R37, R38) -/
  | hostRead (offset : Nat) (width : AccessWidth)
  /-- the host stores a byte in its own memory (R20: the Host "owns host memory") -/
  | hostStore (addr : Word) (value : Byte)
  /-- a second reset (R270) -/
  | reset
  deriving DecidableEq, Repr

/-- What the Host and the Producer do once the schedule is used up. R280: they "are not obliged to take any step". The
model's own type (log 23). -/
inductive Environment where
  /-- they take no step; the block is on its own -/
  | silent
  /-- they may take any step, without end: `Config.outsideTurn` says which and when -/
  | free
  deriving DecidableEq, Repr

end Sys2Proof.Machine

namespace Sys2Proof

/-- The turn that falls at the `draw`-th free value taken, in a free environment (R22, R246, U4): some turn of any agent,
or none for the block's own next one. Free (log 23). -/
opaque Config.outsideTurn (draw : Nat) : Option Machine.Turn

end Sys2Proof

namespace Sys2Proof.Machine

/-- The state: the record of R21, the host's memory, the configuration (never written, log 1), and the model's own
`schedule`, `environment`, `draws` and `hostData` (logs 6, 7, 13, 23). -/
structure State where
  /-- the build-time parameters of R6 -/
  cfg : Config
  /-- Byte Stream Buffer (R23): written positions in canonical form -/
  buf : List Host.Cell
  /-- next write position (R24) -/
  head : Nat
  /-- next position the parser has not yet examined (R25) -/
  procTail : Nat
  /-- the open header (R27) -/
  parseStart : Option Nat
  /-- Frame Index slots (R29), in canonical form -/
  desc : List (Nat × Descriptor)
  /-- the slot the next insertion writes (R29) -/
  frameHead : Nat
  /-- the slot of the oldest live descriptor (R29) -/
  frameTail : Nat
  /-- number of live descriptors (R29) -/
  frameCount : Nat
  arg0 : Word
  arg1 : Word
  arg2 : Word
  arg3 : Word
  result0 : Word
  result1 : Word
  /-- STATUS.CODE (R40) -/
  code : StatusCode
  /-- the consumer sequencer's phase (R44); BUSY and WAITING are read from it -/
  phase : Phase
  /-- host memory (R61), in canonical form -/
  mem : List Host.Cell
  /-- the turns to come (the model's own) -/
  schedule : List Turn
  /-- what the outside world does when no turn is left (the model's own) -/
  environment : Environment
  /-- free values drawn so far (the model's own) -/
  draws : Nat
  /-- what the last host register read returned (the model's own) -/
  hostData : Word
  deriving DecidableEq, Repr

/-- R49: the block of configuration `c` right after reset. -/
def State.init (c : Config) : State where
  cfg := c
  buf := []
  head := 0
  procTail := 0
  parseStart := none
  desc := []
  frameHead := 0
  frameTail := 0
  frameCount := 0
  arg0 := 0#32
  arg1 := 0#32
  arg2 := 0#32
  arg3 := 0#32
  result0 := 0#32
  result1 := 0#32
  code := .ok
  phase := .idle
  mem := []
  schedule := []
  environment := .silent
  draws := 0
  hostData := 0#32

/-- The machine after reset: the hardware of R6 in the state of R49. -/
def State.reset : State := State.init Config.hardware

end Sys2Proof.Machine
end

