-- ==== Sys2Proof/Machine/Flags.lean ====
section
/-! DEFINITION. STATUS, the block's only flag register (R40), and the numbers of the status codes (R240). -/

namespace Sys2Proof.Machine

/-- R240: the number of a status code. -/
def StatusCode.toByte (c : StatusCode) : Byte :=
  match c with
  | .ok => 0x00#8
  | .generic => 0x01#8
  | .nullArgument => 0x02#8
  | .invalidArgument => 0x03#8
  | .crcMismatch => 0x04#8
  | .empty => 0x05#8
  | .full => 0x06#8
  | .timeout => 0x07#8

/-- R40, R44: BUSY is 1 exactly when the phase is not IDLE. -/
def Phase.busy (p : Phase) : Bool :=
  match p with
  | .idle => false
  | .ready _ _ _ _ _ => true
  | .pooling => true
  | .pushing _ _ _ => true
  | .waiting _ _ _ _ => true

/-- R40, R44: WAITING is 1 exactly when the phase is WAITING. -/
def Phase.isWaiting (p : Phase) : Bool :=
  match p with
  | .idle => false
  | .ready _ _ _ _ _ => false
  | .pooling => false
  | .pushing _ _ _ => false
  | .waiting _ _ _ _ => true

/-- R40: the word STATUS reads as: CODE in 7:0, BUSY in 8, WAITING in 9, the rest 0. -/
def State.statusWord (s : State) : Word :=
  0#22 ++ BitVec.ofBool s.phase.isWaiting ++ BitVec.ofBool s.phase.busy ++ s.code.toByte

end Sys2Proof.Machine
end

