-- ==== Sys2Proof/Machine/Operands.lean ====
section
/-! DEFINITION. Operand assembly (R39, R83): where a command takes its operands from, and how it reads them. -/

namespace Sys2Proof.Machine

/-- `s32(v)` of R9: the word read as a two's-complement integer. -/
def s32 (v : Word) : Int := v.toInt

/-- `zext_32` of a CRC value (R65: in bits 15:0). -/
def zextHalf (v : Half) : Word := v.setWidth 32

/-- A count or length as a register value. -/
def wordOfNat (n : Nat) : Word := BitVec.ofNat 32 n

/-- `zext_32(trailer ‖ header)` (R205): header in 7:0, trailer in 15:8. -/
def delimiterWord (trailer header : Byte) : Word := 0#16 ++ trailer ++ header

/-- The four operand words of a command. -/
structure Operands where
  a0 : Word
  a1 : Word
  a2 : Word
  a3 : Word
  deriving DecidableEq, Repr

/-- R45, R83: the operands of the running command are the ARG values latched in READY. In another phase no command
awaits its first step, and no step of the machine asks; there it is what an issue would latch
(DESIGN CHOICE, log 14). -/
def State.operands (s : State) : Operands :=
  match s.phase with
  | .ready _ a0 a1 a2 a3 => ⟨a0, a1, a2, a3⟩
  | .idle => ⟨s.arg0, s.arg1, s.arg2, s.arg3⟩
  | .pooling => ⟨s.arg0, s.arg1, s.arg2, s.arg3⟩
  | .pushing _ _ _ => ⟨s.arg0, s.arg1, s.arg2, s.arg3⟩
  | .waiting _ _ _ _ => ⟨s.arg0, s.arg1, s.arg2, s.arg3⟩

/-- R104: `prev` of CRC_UPDATE, ARG0[15:0]. -/
def Operands.prevCrc (o : Operands) : Half := o.a0.extractLsb' 0 16

/-- R203: the effective timeout of a getter whose timeout operand is `tmo`. -/
def effectiveTimeout (tmo : Word) : Nat :=
  if s32 tmo < 0 then Config.defaultTimeoutMs else (s32 tmo).toNat

end Sys2Proof.Machine
end

