-- ==== Sys2Proof/Machine/Ops.lean ====
section
/-! DEFINITION. Shared operations: sparse memories, ring arithmetic (R10), host memory (R61, R62), the Byte Stream
Buffer (R23), the Frame Index (R32 to R34), and `complete` (R244), the block's only way to end a command. -/

namespace Sys2Proof.Machine

/-! ### Sparse memories: (address, value) pairs, addresses strictly rising, no value equal to what an unlisted address reads as -/

/-- The value at an address; `d` is what an unlisted address reads as. -/
def cellsRead {α : Type} (d : α) (m : List (Nat × α)) (a : Nat) : α :=
  match m with
  | [] => d
  | (b, w) :: rest => if b = a then w else if b < a then cellsRead d rest a else d

/-- Put `v` at address `a`, keeping the canonical form. -/
def cellsWrite {α : Type} [DecidableEq α] (d : α) (m : List (Nat × α)) (a : Nat) (v : α) : List (Nat × α) :=
  match m with
  | [] => if v = d then [] else [(a, v)]
  | (b, w) :: rest =>
    if b < a then (b, w) :: cellsWrite d rest a v
    else if b = a then (if v = d then rest else (a, v) :: rest)
    else if v = d then (b, w) :: rest
    else (a, v) :: (b, w) :: rest

/-- The canonical form, for addresses in [lo, hi). -/
def cellsWf {α : Type} [DecidableEq α] (d : α) (lo hi : Nat) (m : List (Nat × α)) : Bool :=
  match m with
  | [] => true
  | (b, w) :: rest => decide (lo ≤ b ∧ b < hi ∧ w ≠ d) && cellsWf d (b + 1) hi rest

/-- What a byte that nothing has written reads as, in host memory and in the Byte Stream Buffer.
DESIGN CHOICE (logs 9, 11). -/
def unlistedByte : Byte := 0#8

/-- What a Frame Index slot that nothing has written reads as. DESIGN CHOICE (log 10). -/
def unlistedDescriptor : Descriptor := ⟨0#8, 0⟩

/-! ### Host memory (R61 to R63): byte addresses below 2^32 -/

/-- Number of host byte addresses (R60). -/
def addressSpace : Nat := 2 ^ 32

/-- Host memory is in canonical form. -/
def Memory.wf (m : List Host.Cell) : Bool := cellsWf unlistedByte 0 addressSpace m

/-- `MemRead(a, 1)` (R11). -/
def memRead (m : List Host.Cell) (a : Nat) : Byte := cellsRead unlistedByte m a

/-- `MemWrite(a, 1, v)` (R11). -/
def memWrite (m : List Host.Cell) (a : Nat) (v : Byte) : List Host.Cell := cellsWrite unlistedByte m a v

/-- The bytes at a, a+1, ..., a+n−1. -/
def memReadBytes (m : List Host.Cell) (a n : Nat) : List Byte :=
  match n with
  | 0 => []
  | k + 1 => memRead m a :: memReadBytes m (a + 1) k

/-- Write the bytes `bs` from address `a` upward, one byte at a time (R63). -/
def memWriteBytes (m : List Host.Cell) (a : Nat) (bs : List Byte) : List Host.Cell :=
  match bs with
  | [] => m
  | b :: rest => memWriteBytes (memWrite m a b) (a + 1) rest

/-- `MemAdmit(a, n)` (R6, R62): false whenever a + n > 2^32, always true for length 0, else as the platform says. -/
def memAdmit (c : Config) (a n : Nat) : Bool :=
  n == 0 || (decide (a + n ≤ addressSpace) && !c.refusedRegions.contains (a, n))

/-! ### Ring arithmetic (R10) -/

/-- `succ_m(i)`. -/
def succMod (m i : Nat) : Nat := (i + 1) % m

/-- `pred_m(i)`. -/
def predMod (m i : Nat) : Nat := (i + m - 1) % m

/-- `dist_m(a, b) = (b − a) mod m`. -/
def distMod (m a b : Nat) : Nat := (b + (m - a % m)) % m

/-! ### The Byte Stream Buffer (R23 to R26) -/

/-- `buf[i]`. -/
def State.bufAt (s : State) (i : Nat) : Byte := cellsRead unlistedByte s.buf i

/-- `buf[i] <- v`. -/
def State.setBuf (s : State) (i : Nat) (v : Byte) : State := { s with buf := cellsWrite unlistedByte s.buf i v }

/-- The `len` bytes of a ring of `n` bytes from position `start` on. -/
def ringBytes (buf : List Host.Cell) (n start len : Nat) : List Byte :=
  match len with
  | 0 => []
  | k + 1 => cellsRead unlistedByte buf start :: ringBytes buf n (succMod n start) k

/-- The bytes of a ring walk "from `i` to `j`" (R10), `j` not included. -/
def State.ringSpan (s : State) (i j : Nat) : List Byte := ringBytes s.buf s.cfg.n i (distMod s.cfg.n i j)

/-- The size of the unparsed region (R26). -/
def State.unparsed (s : State) : Nat := distMod s.cfg.n s.procTail s.head

/-! ### The Frame Index (R29 to R34) -/

/-- `desc[j]`. -/
def State.descAt (s : State) (j : Nat) : Descriptor := cellsRead unlistedDescriptor s.desc j

/-- The oldest descriptor (R31). -/
def State.oldest (s : State) : Descriptor := s.descAt s.frameTail

/-- The latest descriptor (R31). -/
def State.latest (s : State) : Descriptor := s.descAt (predMod s.cfg.k s.frameHead)

/-- `evictOldest()` (R33). -/
def State.evictOldest (s : State) : State :=
  { s with frameTail := succMod s.cfg.k s.frameTail, frameCount := s.frameCount - 1 }

/-- `evictLatest()` (R34). -/
def State.evictLatest (s : State) : State :=
  { s with frameHead := predMod s.cfg.k s.frameHead, frameCount := s.frameCount - 1 }

/-- `desc[frameHead] <- d` and the advance of `frameHead` and `frameCount` (R32, its last three lines). -/
def State.appendDescriptor (s : State) (d : Descriptor) : State :=
  { s with
    desc := cellsWrite unlistedDescriptor s.desc s.frameHead d
    frameHead := succMod s.cfg.k s.frameHead
    frameCount := s.frameCount + 1 }

/-- `indexInsert(d)` (R32). -/
def State.indexInsert (s : State) (d : Descriptor) : State :=
  if s.frameCount = s.cfg.k then s.evictOldest.appendDescriptor d else s.appendDescriptor d

/-- `evictIfOverwritten(pos)` (R143). -/
def State.evictIfOverwritten (s : State) (pos : Nat) : State :=
  if 0 < s.frameCount ∧ s.oldest.startPos = pos then s.evictOldest else s

/-! ### Completion (R244): what the block has in place of an exception -/

/-- `complete(code)`: STATUS.CODE takes the code and the phase becomes IDLE. -/
def State.complete (s : State) (c : StatusCode) : State := { s with code := c, phase := .idle }

end Sys2Proof.Machine
end

