-- ==== Sys2Proof/Machine/Crc.lean ====
section
/-! DEFINITION. The CRC Engine (40_crc): CRC_UPDATE. -/

namespace Sys2Proof.Machine

/-- One of the eight turns of R100's loop: shift left, and XOR POLY when bit 15 was 1. -/
def crcShift (poly crc : Half) : Half :=
  if crc.getLsbD 15 then (crc <<< 1) ^^^ poly else crc <<< 1

/-- `k` turns of R100's loop. -/
def crcShifts (poly : Half) (k : Nat) (crc : Half) : Half :=
  match k with
  | 0 => crc
  | j + 1 => crcShifts poly j (crcShift poly crc)

/-- `crcUpdate(prev, byte)` (R100). -/
def crcUpdate (poly prev : Half) (byte : Byte) : Half :=
  crcShifts poly 8 (prev ^^^ (byte.setWidth 16 <<< 8))

/-- The seed (R101). -/
def crcSeed : Half := 0xFFFF#16

/-- `crc16(s)` (R102): the left fold from the seed. -/
def crc16 (poly : Half) (bytes : List Byte) : Half := bytes.foldl (crcUpdate poly) crcSeed

/-- The high byte of a CRC value (R64). -/
def crcHigh (crc : Half) : Byte := crc.extractLsb' 8 8

/-- The low byte of a CRC value (R64). -/
def crcLow (crc : Half) : Byte := crc.extractLsb' 0 8

/-- CRC_UPDATE (R104). -/
def execCrcUpdate (byte : Byte) (seed : Bool) (s : State) : Host.Outcome State Fault Refusal :=
  let prev := if seed then crcSeed else s.operands.prevCrc
  .next (State.complete { s with result0 := zextHalf (crcUpdate s.cfg.poly prev byte) } .ok)

end Sys2Proof.Machine
end

