-- ==== Sys2Proof/Machine/Encoder.lean ====
section
/-! DEFINITION. The Frame Encoder (41_encoder): stuffing, the wire format, ENCODE. -/

namespace Sys2Proof.Machine

/-- `stuff(b)` (R120). -/
def stuff (c : Config) (b : Byte) : List Byte :=
  if b = c.header ∨ b = c.trailer ∨ b = c.escape then [c.escape, b ^^^ c.xorMask] else [b]

/-- What R121 emits after HEADER and before TRAILER: each payload byte stuffed while the CRC runs, then the CRC's two
bytes, high first, stuffed. -/
def encodeBody (c : Config) (crc : Half) (p : List Byte) : List Byte :=
  match p with
  | [] => stuff c (crcHigh crc) ++ stuff c (crcLow crc)
  | b :: rest => stuff c b ++ encodeBody c (crcUpdate c.poly crc b) rest

/-- `encode(p)` (R121). -/
def encodeFrame (c : Config) (p : List Byte) : List Byte :=
  c.header :: (encodeBody c crcSeed p ++ [c.trailer])

/-- W(n) of R122, on mathematical integers. -/
def worstCase (n : Int) : Int := 2 + (n + 2) * 2

/-- R123 once its argument checks have passed: the payload is read whole, encoded, and written. -/
def encodeAdmitted (src n dst : Nat) (s : State) : State :=
  let out := encodeFrame s.cfg (memReadBytes s.mem src n)
  if memAdmit s.cfg dst out.length then
    State.complete { s with mem := memWriteBytes s.mem dst out, result0 := wordOfNat out.length } .ok
  else s.complete .generic

/-- The checks of R123, in its order. -/
def encodeChecked (src n dst cap : Word) (s : State) : State :=
  if src = 0#32 ∨ dst = 0#32 then s.complete .nullArgument
  else if s32 n ≤ 0 then s.complete .invalidArgument
  else if s32 cap < worstCase (s32 n) then s.complete .full
  else if memAdmit s.cfg src.toNat (s32 n).toNat then encodeAdmitted src.toNat (s32 n).toNat dst.toNat s
  else s.complete .generic

/-- ENCODE (R123). -/
def execEncode (s : State) : Host.Outcome State Fault Refusal :=
  .next (encodeChecked s.operands.a0 s.operands.a1 s.operands.a2 s.operands.a3 s)

end Sys2Proof.Machine
end

