-- ==== Sys2Proof/Machine/Parser.lean ====
section
/-! DEFINITION. The Frame Parser (43_parser): unstuffing, the pool step, the drain, POOL. -/

namespace Sys2Proof.Machine

/-- The unstuffing walk of R163 over a stuffed span: none when an ESCAPE is its last byte. -/
def unstuff (c : Config) (span : List Byte) : Option (List Byte) :=
  match span with
  | [] => some []
  | [b] => if b = c.escape then none else some [b]
  | b :: x :: rest =>
    if b = c.escape then (unstuff c rest).map (fun u => (x ^^^ c.xorMask) :: u)
    else (unstuff c (x :: rest)).map (fun u => b :: u)

/-- The body of an unstuffed span: all but its last two bytes (R164; the payload of R201). -/
def spanBody (u : List Byte) : List Byte := u.take (u.length - 2)

/-- The received CRC of an unstuffed span: its last two bytes, high byte first (R164). -/
def spanCrc (u : List Byte) : Half := u.getD (u.length - 2) 0#8 ++ u.getD (u.length - 1) 0#8

/-- R164: a span is valid when it has at least three bytes and its body's CRC is the received one. -/
def spanValid (c : Config) (u : List Byte) : Bool :=
  decide (3 ≤ u.length) && decide (crc16 c.poly (spanBody u) = spanCrc u)

/-- `closeCandidate(p, t)` (R162, R165): insert a descriptor for a valid candidate, else change nothing. -/
def State.closeCandidate (s : State) (p t : Nat) : State :=
  match unstuff s.cfg (s.ringSpan (succMod s.cfg.n p) t) with
  | none => s
  | some u => if spanValid s.cfg u then s.indexInsert ⟨u.headD 0#8, p⟩ else s

/-- The three branches of `poolStep` on the byte at `procTail` (R161, R162, R166). -/
def State.examine (s : State) : State :=
  if s.bufAt s.procTail = s.cfg.header then { s with parseStart := some s.procTail }
  else if s.bufAt s.procTail = s.cfg.trailer then
    match s.parseStart with
    | some p => { s.closeCandidate p s.procTail with parseStart := none }
    | none => s
  else s

/-- `poolStep()` (R160). -/
def State.poolStep (s : State) : State :=
  { s.examine with procTail := succMod s.cfg.n s.procTail }

/-- `while procTail != head: poolStep()` (R141), at most `fuel` times. -/
def State.drainLoop (s : State) (fuel : Nat) : State :=
  match fuel with
  | 0 => s
  | k + 1 => if s.procTail = s.head then s else s.poolStep.drainLoop k

/-- `drain()` (R141). The unparsed region holds fewer than N bytes (R26), so N turns end the loop (log 18). -/
def State.drain (s : State) : State := s.drainLoop s.cfg.n

/-- POOL (R171): one pool step, or completion when the unparsed region is empty. -/
def execPool (s : State) : Host.Outcome State Fault Refusal :=
  if s.procTail = s.head then .next (s.complete .ok)
  else .next { s.poolStep with phase := .pooling }

end Sys2Proof.Machine
end

