-- ==== Sys2Proof/Machine/Ingest.lean ====
section
/-! DEFINITION. Byte Stream Buffer ingest (42_ingest): push, PUSH_BYTE, PUSH_BYTES. -/

namespace Sys2Proof.Machine

/-- Steps 1 and 2 of R140, present only under STRICT (R142): what is about to be overwritten at `head` is let go. -/
def State.guardOverwrite (s : State) : State :=
  match s.cfg.guardMode with
  | .literal => s
  | .strict =>
    State.evictIfOverwritten { s with parseStart := if s.parseStart = some s.head then none else s.parseStart } s.head

/-- Step 5 of R140: a push that catches up with `procTail` evicts one unparsed byte, and the open parse with it when
that byte is the one right after the open header. -/
def State.evictUnparsed (s : State) : State :=
  if succMod s.cfg.n s.head = s.procTail then
    { s with
      procTail := succMod s.cfg.n s.procTail
      parseStart :=
        match s.parseStart with
        | some p => if succMod s.cfg.n p = s.procTail then none else some p
        | none => none }
  else s

/-- Steps 6 and 7 of R140. -/
def State.advanceHead (s : State) : State :=
  { s.evictIfOverwritten (succMod s.cfg.n s.head) with head := succMod s.cfg.n s.head }

/-- Steps 1 to 7 of `push(b)` (R140). -/
def State.pushRaw (s : State) (b : Byte) : State :=
  ((s.guardOverwrite.setBuf s.head b).evictUnparsed).advanceHead

/-- `push(b)` (R140), with the drain of R141 in AFTER_PUSH mode. -/
def State.push (s : State) (b : Byte) : State :=
  match s.cfg.poolMode with
  | .afterPush => (s.pushRaw b).drain
  | .background => s.pushRaw b

/-- PUSH_BYTE (R145). -/
def execPushByte (data : Byte) (_ignored : BitVec 24) (s : State) : Host.Outcome State Fault Refusal :=
  .next (s.push data)

/-- First step of PUSH_BYTES (R146). -/
def pushBytesFirst (src n : Word) (s : State) : State :=
  if src = 0#32 ∨ s32 n ≤ 0 then s.complete .ok
  else if memAdmit s.cfg src.toNat (s32 n).toNat then { s with phase := .pushing src 0 (s32 n).toNat }
  else s.complete .generic

/-- A later step of PUSH_BYTES, in phase PUSHING(addr, i, n) (R146). -/
def pushBytesNext (addr : Word) (i n : Nat) (s : State) : State :=
  if i = n then s.complete .ok
  else { s.push (memRead s.mem (addr.toNat + i)) with phase := .pushing addr (i + 1) n }

/-- PUSH_BYTES (R146): its later steps in phase PUSHING, its first in any other. -/
def execPushBytes (s : State) : Host.Outcome State Fault Refusal :=
  match s.phase with
  | .pushing addr i n => .next (pushBytesNext addr i n s)
  | _ => .next (pushBytesFirst s.operands.a0 s.operands.a1 s)

end Sys2Proof.Machine
end

