-- ==== Sys2Proof/Machine/FrameStore.lean ====
section
/-! DEFINITION. The Frame Store API (44_frame_store): the two queries and the five getters. -/

namespace Sys2Proof.Machine

/-- HAS_NEW_FRAME (R206). -/
def execHasNewFrame (s : State) : Host.Outcome State Fault Refusal :=
  .next (State.complete { s with result0 := if 0 < s.frameCount then 1#32 else 0#32 } .ok)

/-- COUNT_FRAME (R207). -/
def execCountFrame (s : State) : Host.Outcome State Fault Refusal :=
  .next (State.complete { s with result0 := wordOfNat s.frameCount } .ok)

/-- R200: the descriptor a getter selects, at the step that delivers. -/
def State.selected (s : State) (op : Getter) : Descriptor :=
  match op with
  | .getOldest => s.oldest
  | .getLatest => s.latest
  | .removeOldest => s.oldest
  | .removeLatest => s.latest
  | .getDataByte => s.oldest

/-- What a successful extraction yields (R201). -/
structure Extracted where
  payload : List Byte
  header : Byte
  trailer : Byte
  deriving DecidableEq, Repr

/-- `extract(s)` (R201) from the frame start `p`: the span up to the first raw TRAILER before `head`, unstuffed, without
its last two bytes; none when there is no such trailer or the span is bad. -/
def State.extract (s : State) (p : Nat) : Option Extracted :=
  let region := s.ringSpan (succMod s.cfg.n p) s.head
  let span := region.takeWhile (fun b => b ≠ s.cfg.trailer)
  match region.drop span.length with
  | [] => none
  | trl :: _ =>
    match unstuff s.cfg span with
    | none => none
    | some u => if u.length < 3 then none else some ⟨spanBody u, s.bufAt p, trl⟩

/-- R205: the effects of a successful delivery on the destination and the result registers. -/
def State.handOver (s : State) (op : Getter) (dst : Nat) (f : Extracted) : State :=
  { s with
    mem := memWriteBytes s.mem dst f.payload
    result0 := wordOfNat f.payload.length
    result1 :=
      match op with
      | .getDataByte => s.result1
      | .getOldest => delimiterWord f.trailer f.header
      | .getLatest => delimiterWord f.trailer f.header
      | .removeOldest => delimiterWord f.trailer f.header
      | .removeLatest => delimiterWord f.trailer f.header }

/-- R205: the eviction of a successful remove (R215, R216). -/
def State.evictSelected (s : State) (op : Getter) : State :=
  match op with
  | .removeOldest => s.evictOldest
  | .removeLatest => s.evictLatest
  | .getOldest => s
  | .getLatest => s
  | .getDataByte => s

/-- `deliver(op, dst, cap)` (R205). -/
def deliver (op : Getter) (dst cap : Word) (s : State) : State :=
  match s.extract (s.selected op).startPos with
  | none => s.complete .generic
  | some f =>
    if s32 cap < (f.payload.length : Int) then s.complete .full
    else if memAdmit s.cfg dst.toNat f.payload.length then
      ((s.handOver op dst.toNat f).evictSelected op).complete .ok
    else s.complete .generic

/-- `getterFirst(op, dst, cap, tmo)` (R204). -/
def getterFirst (op : Getter) (dst cap tmo : Word) (s : State) : State :=
  if dst = 0#32 then s.complete .nullArgument
  else if s32 cap ≤ 0 then s.complete .invalidArgument
  else if 0 < s.frameCount then deliver op dst cap s
  else if effectiveTimeout tmo = 0 then s.complete .timeout
  else { s with phase := .waiting op dst cap (effectiveTimeout tmo) }

/-- `waitStep(op, dst, cap, t)` (R212). The Clock supplies one draw at every wait step (R47). -/
def waitStep (op : Getter) (dst cap : Word) (t : Nat) (s : State) : State :=
  let drawn := { s with draws := s.draws + 1 }
  if 0 < s.frameCount then deliver op dst cap drawn
  else if Config.clockExpired s.draws t then drawn.complete .timeout
  else drawn

/-- A getter's step: a check when it is the one that waits, else its first step. -/
def getterStep (op : Getter) (s : State) : State :=
  match s.phase with
  | .waiting op' dst cap t =>
    if op' = op then waitStep op dst cap t s
    else getterFirst op s.operands.a0 s.operands.a1 s.operands.a2 s
  | _ => getterFirst op s.operands.a0 s.operands.a1 s.operands.a2 s

/-- GET_OLDEST (R208). -/
def execGetOldest (s : State) : Host.Outcome State Fault Refusal := .next (getterStep .getOldest s)

/-- GET_LATEST (R209). -/
def execGetLatest (s : State) : Host.Outcome State Fault Refusal := .next (getterStep .getLatest s)

/-- REMOVE_OLDEST (R215). -/
def execRemoveOldest (s : State) : Host.Outcome State Fault Refusal := .next (getterStep .removeOldest s)

/-- REMOVE_LATEST (R216). -/
def execRemoveLatest (s : State) : Host.Outcome State Fault Refusal := .next (getterStep .removeLatest s)

/-- GET_DATA_BYTE (R210). -/
def execGetDataByte (s : State) : Host.Outcome State Fault Refusal := .next (getterStep .getDataByte s)

end Sys2Proof.Machine
end

