-- ==== Sys2Proof/Machine/Dispatch.lean ====
section
/-! DEFINITION. The dispatch: one arm per instruction. -/

namespace Sys2Proof.Machine

/-- The meaning of an instruction in a state. -/
def exec (i : Instr) (s : State) : Host.Outcome State Fault Refusal :=
  match i with
  | .crcUpdate byte seed => Sys2Proof.Machine.execCrcUpdate byte seed s
  | .encode => Sys2Proof.Machine.execEncode s
  | .pushBytes => Sys2Proof.Machine.execPushBytes s
  | .pool => Sys2Proof.Machine.execPool s
  | .hasNewFrame => Sys2Proof.Machine.execHasNewFrame s
  | .countFrame => Sys2Proof.Machine.execCountFrame s
  | .getOldest => Sys2Proof.Machine.execGetOldest s
  | .getLatest => Sys2Proof.Machine.execGetLatest s
  | .removeOldest => Sys2Proof.Machine.execRemoveOldest s
  | .removeLatest => Sys2Proof.Machine.execRemoveLatest s
  | .getDataByte => Sys2Proof.Machine.execGetDataByte s
  | .pushByte data ignored => Sys2Proof.Machine.execPushByte data ignored s

end Sys2Proof.Machine
end

