-- ==== Sys2Proof/Machine/Agents.lean ====
section
/-! DEFINITION. The agents of R20 and their atomic steps (R22): the register window, the consumer sequencer, the Pool
agent, host stores and reset. -/

namespace Sys2Proof.Machine

/-! ### The register window (R37, R38) -/

/-- The nine registers of R37. -/
inductive Reg where
  | cmd
  | status
  | arg0
  | arg1
  | arg2
  | arg3
  | result0
  | result1
  | push
  deriving DecidableEq, Repr

/-- R37: the register at an offset from BASE; none at any other offset (R38). -/
def regAt (offset : Nat) : Option Reg :=
  match offset with
  | 0x00 => some .cmd
  | 0x04 => some .status
  | 0x08 => some .arg0
  | 0x0C => some .arg1
  | 0x10 => some .arg2
  | 0x14 => some .arg3
  | 0x18 => some .result0
  | 0x1C => some .result1
  | 0x20 => some .push
  | _ => none

/-- R38: the register an access of a width at an offset reaches. -/
def accessedReg (offset : Nat) (width : AccessWidth) : Option Reg :=
  match width with
  | .w32 => regAt offset
  | .w8 => none
  | .w16 => none
  | .w64 => none

/-- The offset from BASE of a host address (R37): what the platform's decode of the window hands the block (log 4). -/
def windowOffset (addr : Word) : Nat := (addr - Config.base).toNat

/-- R37: what a 32-bit read of a register returns. -/
def State.readReg (s : State) (r : Reg) : Word :=
  match r with
  | .cmd => 0#32
  | .status => s.statusWord
  | .arg0 => s.arg0
  | .arg1 => s.arg1
  | .arg2 => s.arg2
  | .arg3 => s.arg3
  | .result0 => s.result0
  | .result1 => s.result1
  | .push => 0#32

/-- R38: what any host read of the window returns. -/
def State.windowRead (s : State) (offset : Nat) (width : AccessWidth) : Word :=
  match accessedReg offset width with
  | some r => s.readReg r
  | none => 0#32

/-- R45: a write of `w` to CMD latches it with ARG0 to ARG3 when the phase is IDLE, and is ignored otherwise. -/
def State.issue (s : State) (w : Word) : State :=
  match s.phase with
  | .idle => { s with phase := .ready w s.arg0 s.arg1 s.arg2 s.arg3 }
  | .ready _ _ _ _ _ => s
  | .pooling => s
  | .pushing _ _ _ => s
  | .waiting _ _ _ _ => s

/-- R37: a 32-bit write to a register; a write to PUSH runs PUSH_BYTE in the same step (R42, R145). -/
def writeReg (r : Reg) (w : Word) (s : State) : Host.Outcome State Fault Refusal :=
  match r with
  | .cmd => .next (s.issue w)
  | .status => .next s
  | .arg0 => .next { s with arg0 := w }
  | .arg1 => .next { s with arg1 := w }
  | .arg2 => .next { s with arg2 := w }
  | .arg3 => .next { s with arg3 := w }
  | .result0 => .next s
  | .result1 => .next s
  | .push => exec (decodePush w) s

/-- R38: any host write to the window. -/
def windowWrite (offset : Nat) (width : AccessWidth) (w : Word) (s : State) : Host.Outcome State Fault Refusal :=
  match accessedReg offset width with
  | some r => writeReg r w s
  | none => .next s

/-! ### The consumer sequencer (R43, R44, R84) -/

/-- The instruction a getter's WAITING phase belongs to. -/
def Getter.instr (op : Getter) : Instr :=
  match op with
  | .getOldest => .getOldest
  | .getLatest => .getLatest
  | .removeOldest => .removeOldest
  | .removeLatest => .removeLatest
  | .getDataByte => .getDataByte

/-- R44: the command whose step the phase says is next; none in IDLE. -/
def Phase.command (p : Phase) : Option (Except DecodeError Instr) :=
  match p with
  | .idle => none
  | .ready w _ _ _ _ => some (decode .cmd w)
  | .pooling => some (.ok .pool)
  | .pushing _ _ _ => some (.ok .pushBytes)
  | .waiting op _ _ _ => some (.ok op.instr)

/-- R84: an illegal word completes with Generic. -/
def illegalWord (s : State) : State := s.complete .generic

/-- One consumer step (R44). In IDLE the agent has none, and nothing changes. -/
def consumerStep (s : State) : Host.Outcome State Fault Refusal :=
  match s.phase.command with
  | none => .next s
  | some (.error _) => .next (illegalWord s)
  | some (.ok i) => exec i s

/-! ### The Pool agent (R46, R172) -/

/-- R46: the Pool agent has a step in BACKGROUND mode while the unparsed region is not empty. -/
def State.poolAgentReady (s : State) : Bool :=
  decide (s.cfg.poolMode = .background) && decide (s.procTail ≠ s.head)

/-- The Pool agent's step (R172); nothing when it has none. -/
def poolAgentStep (s : State) : State := if s.poolAgentReady then s.poolStep else s

/-! ### Reset (R270) -/

/-- R270: every state element takes its value of R49; the host's memory stays. The configuration is fixed (R6), and the
turns to come, the environment, the free values drawn and the host's last read are outside the block (log 19). -/
def State.resetAgain (s : State) : State :=
  { State.init s.cfg with
    mem := s.mem, schedule := s.schedule, environment := s.environment, draws := s.draws, hostData := s.hostData }

/-! ### One step of one agent (R22) -/

/-- The step a turn stands for. -/
def runTurn (t : Turn) (s : State) : Host.Outcome State Fault Refusal :=
  match t with
  | .consumer => consumerStep s
  | .poolAgent => .next (poolAgentStep s)
  | .hostWrite offset width value => windowWrite offset width value s
  | .hostRead offset width => .next { s with hostData := s.windowRead offset width }
  | .hostStore addr value => .next { s with mem := memWrite s.mem addr.toNat value }
  | .reset => .next s.resetAgain

/-- The block on its own: the agent that has a step moves; of two, the one the free value names (R22, U4); with none
(R281: quiescent) nothing changes (log 8). -/
def ownTurn (s : State) : Host.Outcome State Fault Refusal :=
  if s.phase.busy then
    if s.poolAgentReady then
      if Config.freeTurn s.draws then consumerStep { s with draws := s.draws + 1 }
      else .next (poolAgentStep { s with draws := s.draws + 1 })
    else consumerStep s
  else .next (poolAgentStep s)

/-- The next move when the schedule is empty (log 23): the block's own in a silent environment; in a free one whatever
the free value says, the Host's and the Producer's steps among them, without end (R22, R280). -/
def freeRun (s : State) : Host.Outcome State Fault Refusal :=
  match s.environment with
  | .silent => ownTurn s
  | .free =>
    match Config.outsideTurn s.draws with
    | some t => runTurn t { s with draws := s.draws + 1 }
    | none => ownTurn { s with draws := s.draws + 1 }

/-! ### Placing a table word (log 15) -/

/-- The word latched as a command and the consumer sequencer's turn next, for CMD; the write to PUSH next, for PUSH. -/
def State.placeWord (s : State) (p : Port) (w : Word) : State :=
  match p with
  | .cmd => { s with phase := .ready w s.arg0 s.arg1 s.arg2 s.arg3, schedule := .consumer :: s.schedule }
  | .push => { s with schedule := .hostWrite 0x20 .w32 w :: s.schedule }

end Sys2Proof.Machine
end

