-- ==== Sys2Proof/Machine/Step.lean ====
section
/-! DEFINITION. One step of the machine: the next turn of the schedule, or a free one when the schedule is empty. -/

namespace Sys2Proof.Machine

/-- One atomic step of one agent (R22). A configuration that breaks R7 is refused (R271). -/
def step (s : State) : Host.Outcome State Fault Refusal :=
  if s.cfg.wf then
    match s.schedule with
    | [] => freeRun s
    | t :: rest => runTurn t { s with schedule := rest }
  else .refused .illFormedConfiguration

/-- `s` with the table word of `nbits` low bits `w` placed so that the very next step runs it (log 15). -/
def State.withFetchWord (s : State) (nbits w : Nat) : State :=
  s.placeWord (tablePort (tableWord nbits w)) (tableWord nbits w)

end Sys2Proof.Machine
end

