-- ==== Sys2Proof/Machine/Runs.lean ====
section
/-! DEFINITION. Infinite runs of the block among its Host, its Producer and its Clock, with no bound of the model's own,
and the fairness R280 gives the block's agents. A run is given by who moves at each moment and the state at each
moment. -/

namespace Sys2Proof.Machine

/-- `s` with `t` as the one turn to come. -/
def State.giveTurn (s : State) (t : Turn) : State := { s with schedule := [t] }

/-- R22: a run, in any order of the agents. At every moment `k` the machine's step takes the turn `turns k`. -/
def IsRun (turns : Nat → Turn) (states : Nat → State) : Prop :=
  ∀ k, step ((states k).giveTurn (turns k)) = .next (states (k + 1))

/-- R280: the consumer sequencer is weakly fair. While its phase is not IDLE it eventually takes a step. -/
def ConsumerFair (turns : Nat → Turn) (states : Nat → State) : Prop :=
  ∀ k, (∀ j ≥ k, (states j).phase ≠ .idle) → ∃ j ≥ k, turns j = .consumer

/-- R172, R280: the Pool agent is weakly fair. If the region stays non-empty, it eventually steps. -/
def PoolAgentFair (turns : Nat → Turn) (states : Nat → State) : Prop :=
  ∀ k, (∀ j ≥ k, (states j).poolAgentReady = true) → ∃ j ≥ k, turns j = .poolAgent

/-- R47, R280: the Clock is fair for finite timeouts (every effective timeout is one, R203). A wait that keeps checking
eventually sees `expired = true`. -/
def ClockFair (turns : Nat → Turn) (states : Nat → State) : Prop :=
  ∀ k op dst cap t, (∀ j ≥ k, (states j).phase = .waiting op dst cap t) →
    (∀ m ≥ k, ∃ j ≥ m, turns j = .consumer) →
    ∃ j ≥ k, turns j = .consumer ∧ Config.clockExpired (states j).draws t = true

/-- R280: the runs the spec allows. -/
def FairRun (turns : Nat → Turn) (states : Nat → State) : Prop :=
  IsRun turns states ∧ ConsumerFair turns states ∧ PoolAgentFair turns states ∧ ClockFair turns states

end Sys2Proof.Machine
end

