-- ==== Sys2Proof/Safety.lean ====
section
/-! DEFINITION. What a sound state is, in the terms the statements use: the ranges and couplings the rules give every
state, the four invariants of R35 with the ordering of R36, and quiescence (R281). -/

namespace Sys2Proof.Machine

/-- R8, R23 to R27: the ring positions are positions of the ring. -/
abbrev State.ringOk (s : State) : Prop :=
  s.head < s.cfg.n ∧ s.procTail < s.cfg.n ∧
  (s.parseStart.all fun p => decide (p < s.cfg.n)) = true ∧
  cellsWf unlistedByte 0 s.cfg.n s.buf = true

/-- R29, R35 invariant 2: the indices are slots, frameCount ≤ K, frameHead = (frameTail + frameCount) mod K, and every
slot holds a ring position. -/
abbrev State.indexOk (s : State) : Prop :=
  s.frameTail < s.cfg.k ∧ s.frameCount ≤ s.cfg.k ∧
  s.frameHead = (s.frameTail + s.frameCount) % s.cfg.k ∧
  cellsWf unlistedDescriptor 0 s.cfg.k s.desc = true ∧
  (s.desc.all fun c => decide (c.2.startPos < s.cfg.n)) = true

/-- Host memory holds bytes at 32-bit addresses, in canonical form (R60). -/
abbrev State.memoryOk (s : State) : Prop := Memory.wf s.mem = true

/-- R141: in AFTER_PUSH mode the unparsed region is empty at the end of every step. -/
abbrev State.drainedOk (s : State) : Prop := s.cfg.poolMode = .afterPush → s.procTail = s.head

/-- What R146, R202 and R204 checked before PUSHING or WAITING was entered. -/
def Phase.ok (p : Phase) : Bool :=
  match p with
  | .idle => true
  | .ready _ _ _ _ _ => true
  | .pooling => true
  | .pushing addr i n => decide (addr ≠ 0#32 ∧ i ≤ n ∧ 0 < n ∧ addr.toNat + n ≤ addressSpace)
  | .waiting _ dst cap timeout => decide (dst ≠ 0#32 ∧ 0 < s32 cap ∧ 0 < timeout)

/-- R240: CrcMismatch and Empty are never produced. -/
abbrev State.codeOk (s : State) : Prop := s.code ≠ .crcMismatch ∧ s.code ≠ .empty

/-- The invariant of the machine: what the rules say of every state of a block with a well-formed configuration. -/
abbrev State.Inv (s : State) : Prop :=
  s.cfg.wf = true ∧ s.ringOk ∧ s.indexOk ∧ s.memoryOk ∧ s.drainedOk ∧ s.phase.ok = true ∧ s.codeOk

/-- The live descriptors, oldest first (R29). -/
def State.live (s : State) : List Descriptor :=
  (List.range s.frameCount).map fun j => s.descAt ((s.frameTail + j) % s.cfg.k)

/-- How many pushes ago a ring position was last written, counting the last push as 1: N for the position `head`, which
the next push overwrites (R36 reads positions as unwrapped counts of bytes pushed). -/
def State.age (s : State) (x : Nat) : Nat := distMod s.cfg.n (succMod s.cfg.n x) s.head + 1

/-- R35 invariant 1: every live descriptor's start still holds HEADER. -/
abbrev State.headersIntact (s : State) : Prop := ∀ d ∈ s.live, s.bufAt d.startPos = s.cfg.header

/-- R36: from oldest to latest, the starts of the live descriptors were written in strictly increasing order. -/
abbrev State.startsOrdered (s : State) : Prop := (s.live.map fun d => s.age d.startPos).Pairwise (fun a b => b < a)

/-- A live descriptor's header has been examined: it is older than the unparsed region (R165). -/
abbrev State.startsExamined (s : State) : Prop := ∀ d ∈ s.live, s.unparsed < s.age d.startPos

/-- The open header still holds HEADER, has been examined, is newer than every live descriptor, and no TRAILER stands
between it and the unparsed region (R161, R162, R142). -/
abbrev State.openHeaderOkAt (s : State) (p : Nat) : Prop :=
  s.bufAt p = s.cfg.header ∧ s.unparsed < s.age p ∧ (∀ d ∈ s.live, s.age p < s.age d.startPos) ∧
  s.cfg.trailer ∉ s.ringSpan (succMod s.cfg.n p) s.procTail

/-- `openHeaderOkAt` for the open header, when there is one. -/
abbrev State.openHeaderOk (s : State) : Prop := ∀ p ∈ s.parseStart.toList, s.openHeaderOkAt p

/-- Every live descriptor's frame can be extracted, and its first payload byte is the descriptor's idByte (R28, R201). -/
abbrev State.framesExtractable (s : State) : Prop :=
  ∀ d ∈ s.live, (s.extract d.startPos).map (fun f => (f.payload.head?, f.header, f.trailer)) =
    some (some d.idByte, s.cfg.header, s.cfg.trailer)

/-- What OVERWRITE_GUARD = STRICT keeps (R35 invariant 1, R36, R142, R201). -/
abbrev State.StrictInv (s : State) : Prop :=
  s.headersIntact ∧ s.startsOrdered ∧ s.startsExamined ∧ s.openHeaderOk ∧ s.framesExtractable

/-- R281: no agent of the block has a step. -/
abbrev State.quiescent (s : State) : Prop := s.phase = .idle ∧ s.poolAgentReady = false

/-- `t` is `s` but for the Byte Stream Buffer, its positions and the Frame Index: what a push and a pool step may
write (R24, R25, R27, R30). -/
def SameOutsideRings (s t : State) : Prop :=
  t = { s with
    buf := t.buf, head := t.head, procTail := t.procTail, parseStart := t.parseStart
    desc := t.desc, frameHead := t.frameHead, frameTail := t.frameTail, frameCount := t.frameCount }

/-- The unstuffing walk of R163 as its text has it, over ring positions from `i` up to `t`, with the bytes unstuffed so
far; none when `fuel` runs out before the walk ends. -/
def State.unstuffWalk (s : State) (t fuel i : Nat) (u : List Byte) : Option (Bool × List Byte) :=
  match fuel with
  | 0 => none
  | k + 1 =>
    if i = t then some (true, u)
    else if s.bufAt i = s.cfg.escape then
      if succMod s.cfg.n i = t then some (false, u)
      else s.unstuffWalk t k (succMod s.cfg.n (succMod s.cfg.n i)) (u ++ [s.bufAt (succMod s.cfg.n i) ^^^ s.cfg.xorMask])
    else s.unstuffWalk t k (succMod s.cfg.n i) (u ++ [s.bufAt i])

/-- A list of live descriptors after one overwrite check at a position: the oldest goes when it starts there (R143). -/
def dropIfStartsAt (pos : Nat) (l : List Descriptor) : List Descriptor :=
  match l with
  | [] => []
  | d :: rest => if d.startPos = pos then rest else d :: rest

/-- `s` after the pushes of a list of bytes, in order. -/
def State.pushAll (s : State) (bytes : List Byte) : State := bytes.foldl State.push s

end Sys2Proof.Machine
end

