-- ==== Sys2Proof/Certificates/Slice0/Obligations.lean ====
section
/-! DEFINITION. The statements about the block, one per rule or group of rules of spec/. -/

open Sys2Proof Sys2Proof.Machine

/-! ### Reset, construction, configuration -/

/-- R49: the reset value of every state element whose value R49 gives, for every configuration; and STATUS reads 0 (R37).
Of `buf` and `desc`, which R49 leaves unspecified, nothing is said (logs 9 and 10 name what the model puts there). -/
def Obligations.ResetGivesEachElementItsValue : Prop :=
  ∀ c : Config,
    let s := State.init c
    s.head = 0 ∧ s.procTail = 0 ∧ s.parseStart = none ∧
    s.frameHead = 0 ∧ s.frameTail = 0 ∧ s.frameCount = 0 ∧
    s.arg0 = 0#32 ∧ s.arg1 = 0#32 ∧ s.arg2 = 0#32 ∧ s.arg3 = 0#32 ∧
    s.result0 = 0#32 ∧ s.result1 = 0#32 ∧ s.code = .ok ∧ s.code.toByte = 0x00#8 ∧ s.phase = .idle ∧
    s.statusWord = 0#32

/-- The machine of `State.reset` is the block of R49 with the default parameters of R6. That MemAdmit refuses nothing
below 2^32 there is the model's choice (log 2) and is not stated. -/
def Obligations.ResetTakesTheDefaultParameters : Prop :=
  State.reset = State.init State.reset.cfg ∧
  State.reset.cfg.n = 4096 ∧ State.reset.cfg.k = 16 ∧ State.reset.cfg.poly = 0x1021#16 ∧
  State.reset.cfg.header = 0xFF#8 ∧ State.reset.cfg.trailer = 0x00#8 ∧ State.reset.cfg.escape = 0xFE#8 ∧
  State.reset.cfg.xorMask = 0x20#8 ∧ State.reset.cfg.poolMode = .afterPush ∧ State.reset.cfg.guardMode = .strict

/-- Reset meets the invariant and the STRICT invariant, in the default configuration and in every well-formed one
(R35, R36, R49). -/
def Obligations.ResetMeetsTheInvariants : Prop :=
  State.reset.Inv ∧ State.reset.StrictInv ∧ ∀ c : Config, c.wf = true → (State.init c).Inv ∧ (State.init c).StrictInv

/-- R7 within the bounds of R6: exactly the configurations that meet R7 and whose N and K are 1 to 2^16 are well formed; a
step of a state answers a next state exactly when its configuration is well formed, and is refused by name exactly when it
is not. That an ill-formed state is refused at its step, and that a value above R6's bounds is refused like one that breaks
R7 (R271 refuses construction, and D11 lets a model raise the bounds), is the model's choice (log 17). -/
def Obligations.IllFormedConfigurationIsRefused : Prop :=
  (∀ c : Config, c.wf = true ↔
    (1 ≤ c.n ∧ c.n ≤ 65536) ∧ (1 ≤ c.k ∧ c.k ≤ 65536) ∧
    c.header ≠ c.trailer ∧ c.header ≠ c.escape ∧ c.trailer ≠ c.escape ∧ c.xorMask ≠ 0#8 ∧
    ∀ r ∈ [c.header, c.trailer, c.escape], r ^^^ c.xorMask ∉ [c.header, c.trailer, c.escape]) ∧
  (∀ s : State, (∃ t, step s = .next t) ↔ s.cfg.wf = true) ∧
  ∀ s : State, step s = .refused .illFormedConfiguration ↔ s.cfg.wf = false

/-- R270 as a later reset: every element to which R49 gives a value takes it in one step, a command in progress is
abandoned without a completion code, and host memory and the parameters stay. Of `buf` and `desc`, which R49 leaves
unspecified, nothing is said (logs 9 and 10). That the turns to come, the environment, the draws and the host's last read
stay is the model's choice (log 19). -/
def Obligations.LaterResetKeepsHostMemory : Prop :=
  ∀ (s : State) (rest : List Turn), s.cfg.wf = true → s.schedule = .reset :: rest →
    ∃ t, step s = .next t ∧
      t = { State.init s.cfg with
        buf := t.buf, desc := t.desc, mem := s.mem
        schedule := rest, environment := s.environment, draws := s.draws, hostData := s.hostData }

/-! ### Decoding and encoding -/

/-- Decode and encode agree: the word of every instruction, with every operand, decodes on its port to that instruction
(R80, R81, R82). -/
def Obligations.DecodeOfEncodeIsTheInstruction : Prop :=
  ∀ i : Instr, i.wf = true → decode (encode i).1 (encode i).2 = .ok i

/-- Each legal word has one instruction and no bit of it is lost: encoding what a word decodes to gives the word back
(R80, R81, R86). -/
def Obligations.EncodeOfDecodeIsTheWord : Prop :=
  ∀ (p : Port) (w : Word) (i : Instr), decode p w = .ok i → encode i = (p, w)

/-- R85: the illegal words are exactly those R85 lists, and an illegal word's first consumer step completes with Generic
and changes nothing but CODE and the phase. -/
def Obligations.IllegalWordsCompleteWithGeneric : Prop :=
  ∀ w : Word,
    ((∃ e, decode .cmd w = .error e) ↔
      (w.toNat % 256 = 0 ∨ 0x0C ≤ w.toNat % 256 ∨ (w.toNat % 256 = 1 ∧ w.toNat / 2 ^ 17 ≠ 0) ∨
        (2 ≤ w.toNat % 256 ∧ w.toNat % 256 ≤ 0x0B ∧ w.toNat / 2 ^ 8 ≠ 0))) ∧
    ∀ (s : State) (rest : List Turn) (a0 a1 a2 a3 : Word), s.cfg.wf = true → s.phase = .ready w a0 a1 a2 a3 →
      s.schedule = .consumer :: rest → (∃ e, decode .cmd w = .error e) →
      step s = .next { s with schedule := rest, code := .generic, phase := .idle }

/-- Words written out from R80, R82 and 95_test_vectors §2 decode to the instructions they stand for. -/
def Obligations.SampleWordsDecode : Prop :=
  decode .cmd 0x0001FF01#32 = .ok (.crcUpdate 0xFF#8 true) ∧
  decode .cmd 0x00005601#32 = .ok (.crcUpdate 0x56#8 false) ∧
  decode .cmd 0x00000002#32 = .ok .encode ∧ decode .cmd 0x00000003#32 = .ok .pushBytes ∧
  decode .cmd 0x00000004#32 = .ok .pool ∧ decode .cmd 0x00000006#32 = .ok .countFrame ∧
  decode .cmd 0x0000000A#32 = .ok .removeLatest ∧ decode .push 0x12345641#32 = .ok (.pushByte 0x41#8 0x123456#24)

/-- R81: every 32-bit value written to PUSH is a PUSH_BYTE of its bits 7:0, and bits 31:8 have no effect. -/
def Obligations.PushPortTakesEveryWord : Prop :=
  (∀ w : Word, ∃ ignored, decode .push w = .ok (.pushByte (BitVec.ofNat 8 w.toNat) ignored)) ∧
  ∀ (data : Byte) (x y : BitVec 24) (s : State), exec (.pushByte data x) s = exec (.pushByte data y) s

/-! ### The step -/

/-- A step runs the decoded instruction. At the consumer sequencer's turn a step is the meaning of the command the phase
names (the latched word's, or that of the command under way), the turn being consumed (R44, R84); and with no turn left, in
a silent environment, it is the same when the Pool agent has no step (the model's choice, logs 7 and 23). -/
def Obligations.StepRunsTheDecodedCommand : Prop :=
  ∀ (s : State) (i : Instr), s.cfg.wf = true →
    ((∃ w a0 a1 a2 a3, s.phase = .ready w a0 a1 a2 a3 ∧ decode .cmd w = .ok i) ∨
      (s.phase = .pooling ∧ i = .pool) ∨ (∃ a j n, s.phase = .pushing a j n ∧ i = .pushBytes) ∨
      (∃ op dst cap t, s.phase = .waiting op dst cap t ∧ i = op.instr)) →
    (∀ rest, s.schedule = .consumer :: rest → step s = exec i { s with schedule := rest }) ∧
    (s.schedule = [] → s.environment = .silent → s.poolAgentReady = false → step s = exec i s)

/-- R42: a write to PUSH runs PUSH_BYTE in the same step, in every phase. -/
def Obligations.StepRunsPushWrites : Prop :=
  ∀ (s : State) (w : Word) (rest : List Turn), s.cfg.wf = true → s.schedule = .hostWrite 0x20 .w32 w :: rest →
    step s = exec (.pushByte (w.extractLsb' 0 8) (w.extractLsb' 8 24)) { s with schedule := rest }

/-- What `withFetchWord` places is what `decodeTableWord` reads, and the very next step runs it (the model's choice,
log 15). -/
def Obligations.PlacedWordRunsNext : Prop :=
  ∀ (s : State) (w : Word) (i : Instr), s.cfg.wf = true → decodeTableWord 32 w.toNat = some i →
    ∃ placed : State, step (s.withFetchWord 32 w.toNat) = exec i placed ∧
      placed = { s with phase := placed.phase } ∧
      (placed.phase = .ready w s.arg0 s.arg1 s.arg2 s.arg3 ∨ placed.phase = s.phase)

/-- R46, R172: the Pool agent's turn is one pool step in BACKGROUND mode with an unparsed region, in every phase. That its
turn with nothing to examine, or in AFTER_PUSH mode, where it has no step, answers the same state is the model's choice
(log 7). -/
def Obligations.PoolAgentStepsWhenItHasWork : Prop :=
  ∀ (s : State) (rest : List Turn), s.cfg.wf = true → s.schedule = .poolAgent :: rest →
    (s.cfg.poolMode = .background → s.procTail ≠ s.head → step s = .next ({ s with schedule := rest }).poolStep) ∧
    (s.cfg.poolMode = .afterPush ∨ s.procTail = s.head → step s = .next { s with schedule := rest })

/-- Who moves when no turn is left (R22, U4 leave the order free). The form of the answer is the model's choice (logs 7
and 23): in a silent environment, with both agents of the block enabled, the opaque `freeTurn` at the counter `draws` names
the one that moves; in a free environment the opaque `outsideTurn` at the counter gives the turn of any agent, or leaves
the move to the block as in a silent one; each free value taken advances the counter. -/
def Obligations.EitherEnabledAgentMayMove : Prop :=
  ∀ s : State, s.cfg.wf = true → s.schedule = [] →
    (s.environment = .silent → s.phase ≠ .idle → s.cfg.poolMode = .background → s.procTail ≠ s.head →
      (Config.freeTurn s.draws = true → step s = consumerStep { s with draws := s.draws + 1 }) ∧
      (Config.freeTurn s.draws = false → step s = .next ({ s with draws := s.draws + 1 }).poolStep)) ∧
    (s.environment = .free →
      (∀ t, Config.outsideTurn s.draws = some t → step s = step { s with schedule := [t], draws := s.draws + 1 }) ∧
      (Config.outsideTurn s.draws = none → step s = ownTurn { s with draws := s.draws + 1 })) ∧
    (s.environment = .silent → step s = ownTurn s)

/-- R281: from a quiescent state no agent of the block has a step. That the model's step then answers the same state, in a
silent environment with no turn left, is the model's choice (logs 8 and 23). -/
def Obligations.QuiescentStateStays : Prop :=
  ∀ s : State, s.cfg.wf = true → s.phase = .idle → (s.cfg.poolMode = .background → s.procTail = s.head) →
    s.schedule = [] → s.environment = .silent → step s = .next s

/-- R242, R245: no error is fatal. Every step of a block with a well-formed configuration answers a next state, and the
parameters never change (R6, R21). -/
def Obligations.EveryStepAnswersANextState : Prop :=
  ∀ s : State, s.cfg.wf = true → ∃ t, step s = .next t ∧ t.cfg = s.cfg

/-! ### The register window -/

/-- R37, R38, R40: what a read of the window returns, at every offset and width; it changes nothing else. -/
def Obligations.RegisterReadsFollowTheMap : Prop :=
  ∀ (s : State) (offset : Nat) (width : AccessWidth) (rest : List Turn), s.cfg.wf = true →
    s.schedule = .hostRead offset width :: rest →
    ∃ v : Word, step s = .next { s with schedule := rest, hostData := v } ∧
      (width ≠ .w32 ∨ offset % 4 ≠ 0 ∨ 0x24 ≤ offset → v = 0#32) ∧
      (width = .w32 →
        (offset = 0x00 → v = 0#32) ∧
        (offset = 0x04 →
          (s.phase = .idle → v.toNat = s.code.toByte.toNat) ∧
          ((∃ op dst cap t, s.phase = .waiting op dst cap t) → v.toNat = s.code.toByte.toNat + 256 + 512) ∧
          (s.phase ≠ .idle → (∀ op dst cap t, s.phase ≠ .waiting op dst cap t) →
            v.toNat = s.code.toByte.toNat + 256)) ∧
        (offset = 0x08 → v = s.arg0) ∧ (offset = 0x0C → v = s.arg1) ∧ (offset = 0x10 → v = s.arg2) ∧
        (offset = 0x14 → v = s.arg3) ∧ (offset = 0x18 → v = s.result0) ∧ (offset = 0x1C → v = s.result1) ∧
        (offset = 0x20 → v = 0#32))

/-- R37, R38, R39: what a write to the window does at every offset but CMD and PUSH; read-only registers and any other
offset or width ignore it. -/
def Obligations.RegisterWritesFollowTheMap : Prop :=
  ∀ (s : State) (offset : Nat) (width : AccessWidth) (v : Word) (rest : List Turn), s.cfg.wf = true →
    s.schedule = .hostWrite offset width v :: rest →
    (width ≠ .w32 ∨ offset % 4 ≠ 0 ∨ 0x24 ≤ offset → step s = .next { s with schedule := rest }) ∧
    (width = .w32 →
      (offset = 0x08 → step s = .next { s with schedule := rest, arg0 := v }) ∧
      (offset = 0x0C → step s = .next { s with schedule := rest, arg1 := v }) ∧
      (offset = 0x10 → step s = .next { s with schedule := rest, arg2 := v }) ∧
      (offset = 0x14 → step s = .next { s with schedule := rest, arg3 := v }) ∧
      (offset = 0x04 ∨ offset = 0x18 ∨ offset = 0x1C → step s = .next { s with schedule := rest }))

/-- R45: a write to CMD in IDLE latches the word with ARG0 to ARG3 and changes nothing else; in any other phase it is
ignored. -/
def Obligations.CommandWriteIssuesOnlyWhenIdle : Prop :=
  ∀ (s : State) (w : Word) (rest : List Turn), s.cfg.wf = true → s.schedule = .hostWrite 0x00 .w32 w :: rest →
    (s.phase = .idle →
      step s = .next { s with schedule := rest, phase := .ready w s.arg0 s.arg1 s.arg2 s.arg3 }) ∧
    (s.phase ≠ .idle → step s = .next { s with schedule := rest })

/-- R274: a command uses the operands latched at issue. In READY, and in each later phase of a command in progress (POOLING,
PUSHING, WAITING) for that phase's own command, what ARG0 to ARG3 hold afterwards makes no difference: the instruction does
the same to everything else. -/
def Obligations.LatchedOperandsDecideTheCommand : Prop :=
  ∀ (i : Instr) (s t : State) (x0 x1 x2 x3 : Word),
    (∃ w a0 a1 a2 a3, s.phase = .ready w a0 a1 a2 a3) ∨ (s.phase = .pooling ∧ i = .pool) ∨
      (∃ a j n, s.phase = .pushing a j n ∧ i = .pushBytes) ∨
      (∃ op dst cap tmo, s.phase = .waiting op dst cap tmo ∧ i = op.instr) →
    exec i s = .next t →
    exec i { s with arg0 := x0, arg1 := x1, arg2 := x2, arg3 := x3 } =
      .next { t with arg0 := x0, arg1 := x1, arg2 := x2, arg3 := x3 }

/-! ### CRC Engine -/

/-- R100: `crcUpdate` is the loop of R100, eight turns in 16 bits. -/
def Obligations.CrcUpdateIsTheLoop : Prop :=
  ∀ (poly prev : Half) (byte : Byte),
    crcUpdate poly prev byte =
      (List.range 8).foldl (fun (crc : Half) _ => if crc.msb = true then (crc <<< 1) ^^^ poly else crc <<< 1)
        (prev ^^^ (byte.setWidth 16 <<< 8))

/-- CRC_UPDATE is linear in the previous value and the byte together, for every polynomial; so it depends only on
prev XOR (byte << 8) (R100, R104 corner cases). -/
def Obligations.CrcUpdateIsLinear : Prop :=
  ∀ (poly p q : Half) (a b : Byte),
    crcUpdate poly (p ^^^ q) (a ^^^ b) = crcUpdate poly p a ^^^ crcUpdate poly q b ∧
    crcUpdate poly p a = crcUpdate poly (p ^^^ (a.setWidth 16 <<< 8)) 0#8

/-- A message followed by its own CRC, high byte first, has CRC 0, for every polynomial (R64, R100, R102). -/
def Obligations.CrcOverMessageAndItsCrcIsZero : Prop :=
  ∀ (poly : Half) (p : List Byte),
    crc16 poly (p ++ [(crc16 poly p).extractLsb' 8 8, (crc16 poly p).extractLsb' 0 8]) = 0#16

/-- R104: CRC_UPDATE completes with Ok in one step, RESULT0 is the updated CRC zero-extended, and nothing else changes. -/
def Obligations.CrcUpdateCompletes : Prop :=
  ∀ (byte : Byte) (seed : Bool) (s : State) (w a0 a1 a2 a3 : Word), s.phase = .ready w a0 a1 a2 a3 →
    exec (.crcUpdate byte seed) s =
      .next { s with
        result0 := (crcUpdate s.cfg.poly (if seed then 0xFFFF#16 else a0.extractLsb' 0 16) byte).setWidth 32
        code := .ok
        phase := .idle }

/-- R105: a chain of CRC_UPDATE commands, the first seeded and each later one taking ARG0 from the previous RESULT0,
computes `crc16` of the string. -/
def Obligations.CrcCommandsChain : Prop :=
  ∀ (bytes : List Byte) (byte : Byte) (s : State) (w a0 a1 a2 a3 : Word), s.phase = .ready w a0 a1 a2 a3 →
    (∃ t, exec (.crcUpdate byte true) s = .next t ∧ t.result0 = (crc16 s.cfg.poly [byte]).setWidth 32) ∧
    (a0 = (crc16 s.cfg.poly bytes).setWidth 32 →
      ∃ t, exec (.crcUpdate byte false) s = .next t ∧ t.result0 = (crc16 s.cfg.poly (bytes ++ [byte])).setWidth 32)

/-! ### Frame Encoder -/

/-- R121: the encoding is HEADER, the payload and its CRC (high byte first) stuffed byte by byte, TRAILER. -/
def Obligations.EncodedFrameLayout : Prop :=
  ∀ (c : Config) (p : List Byte),
    encodeFrame c p =
      [c.header] ++
      (p ++ [(crc16 c.poly p).extractLsb' 8 8, (crc16 c.poly p).extractLsb' 0 8]).flatMap (stuff c) ++
      [c.trailer]

/-- R122: the encoding of p has 2 + len(p) + 2 bytes and one more for each delimiter among p and its CRC bytes; at most
W(len(p)), and at least 5 for a non-empty p. -/
def Obligations.EncodedFrameLength : Prop :=
  ∀ (c : Config) (p : List Byte),
    (encodeFrame c p).length = 2 + p.length + 2 +
      (p ++ [(crc16 c.poly p).extractLsb' 8 8, (crc16 c.poly p).extractLsb' 0 8]).countP
        (fun b => b = c.header ∨ b = c.trailer ∨ b = c.escape) ∧
    (encodeFrame c p).length ≤ 2 + (p.length + 2) * 2 ∧
    (p ≠ [] → 5 ≤ (encodeFrame c p).length)

/-- Between HEADER and TRAILER a well-formed configuration's encoding holds no raw HEADER and no raw TRAILER (R7, R120,
R166). -/
def Obligations.StuffedBytesHoldNoDelimiter : Prop :=
  ∀ (c : Config) (p : List Byte), c.wf = true → c.header ∉ p.flatMap (stuff c) ∧ c.trailer ∉ p.flatMap (stuff c)

/-- R125: unstuffing gives the stuffed bytes back, for a well-formed configuration (R7, R120, R163). -/
def Obligations.UnstuffingInvertsStuffing : Prop :=
  ∀ (c : Config) (p : List Byte), c.wf = true → unstuff c (p.flatMap (stuff c)) = some p

/-- R123, R241: ENCODE's errors in the order of its checks, each with its code and with nothing else changed. -/
def Obligations.EncodeErrorsInOrder : Prop :=
  ∀ (s : State) (w src n dst cap : Word), s.phase = .ready w src n dst cap →
    (src = 0#32 ∨ dst = 0#32 → exec .encode s = .next { s with code := .nullArgument, phase := .idle }) ∧
    (src ≠ 0#32 → dst ≠ 0#32 →
      (n.toInt ≤ 0 → exec .encode s = .next { s with code := .invalidArgument, phase := .idle }) ∧
      (0 < n.toInt → cap.toInt < 2 + (n.toInt + 2) * 2 →
        exec .encode s = .next { s with code := .full, phase := .idle }) ∧
      (0 < n.toInt → 2 + (n.toInt + 2) * 2 ≤ cap.toInt →
        memAdmit s.cfg src.toNat n.toInt.toNat = false ∨
          memAdmit s.cfg dst.toNat (encodeFrame s.cfg (memReadBytes s.mem src.toNat n.toInt.toNat)).length = false →
        exec .encode s = .next { s with code := .generic, phase := .idle }))

/-- R123: ENCODE completes with Ok. RESULT0 is the encoded length, the encoding of the payload as it was before the step
stands at dst, every other byte of host memory is as it was, and nothing else changes. -/
def Obligations.EncodeWritesItsFrame : Prop :=
  ∀ (s : State) (w src n dst cap : Word) (p : List Byte), s.phase = .ready w src n dst cap →
    Memory.wf s.mem = true → src ≠ 0#32 → dst ≠ 0#32 → 0 < n.toInt → 2 + (n.toInt + 2) * 2 ≤ cap.toInt →
    memAdmit s.cfg src.toNat n.toInt.toNat = true → p.length = n.toInt.toNat →
    (∀ j < p.length, p[j]? = some (memRead s.mem (src.toNat + j))) →
    memAdmit s.cfg dst.toNat (encodeFrame s.cfg p).length = true →
    ∃ t, exec .encode s = .next t ∧ t.result0.toNat = (encodeFrame s.cfg p).length ∧
      t = { s with mem := t.mem, result0 := t.result0, code := .ok, phase := .idle } ∧
      ∀ a, memRead t.mem a =
        if dst.toNat ≤ a ∧ a < dst.toNat + (encodeFrame s.cfg p).length
        then (encodeFrame s.cfg p).getD (a - dst.toNat) 0#8 else memRead s.mem a

/-! ### Ingest -/

/-- R24, R144, R145: PUSH_BYTE completes in every state and phase. It writes exactly the position `head`, advances `head`
by one, and changes nothing outside the rings: no STATUS, no phase, no register, no byte of host memory. -/
def Obligations.PushByteCompletes : Prop :=
  ∀ (s : State) (data : Byte) (ignored : BitVec 24), cellsWf unlistedByte 0 s.cfg.n s.buf = true →
    ∃ t, exec (.pushByte data ignored) s = .next t ∧ SameOutsideRings s t ∧
      t.head = (s.head + 1) % s.cfg.n ∧ ∀ i, t.bufAt i = if i = s.head then data else s.bufAt i

/-- R140, R142, R143: what PUSH_BYTE does in BACKGROUND mode to `procTail`, `parseStart` and the live descriptors, under
both guards. -/
def Obligations.PushAppliesTheOverwriteChecks : Prop :=
  ∀ (s : State) (data : Byte) (ignored : BitVec 24), s.cfg.poolMode = .background → s.ringOk → s.indexOk →
    ∃ t, exec (.pushByte data ignored) s = .next t ∧
      t.procTail = (if succMod s.cfg.n s.head = s.procTail then succMod s.cfg.n s.procTail else s.procTail) ∧
      (s.cfg.guardMode = .strict →
        t.parseStart = (if s.parseStart = some s.head then none else s.parseStart) ∧
        t.live = dropIfStartsAt (succMod s.cfg.n s.head) (dropIfStartsAt s.head s.live)) ∧
      (s.cfg.guardMode = .literal →
        (∀ p, s.parseStart = some p → t.parseStart =
          if succMod s.cfg.n s.head = s.procTail ∧ succMod s.cfg.n p = s.procTail then none else some p) ∧
        (s.parseStart = none → t.parseStart = none) ∧
        t.live = dropIfStartsAt (succMod s.cfg.n s.head) s.live)

/-- R141: in AFTER_PUSH mode PUSH_BYTE leaves the unparsed region empty, and examines exactly the byte just written
(nothing at all when N = 1, R145). -/
def Obligations.AfterPushDrainsOneByte : Prop :=
  ∀ (s : State) (data : Byte) (ignored : BitVec 24), s.cfg.poolMode = .afterPush → s.ringOk → s.procTail = s.head →
    ∃ t, exec (.pushByte data ignored) s = .next t ∧ t.procTail = t.head ∧
      t = if s.cfg.n = 1 then s.pushRaw data else (s.pushRaw data).poolStep

/-- R146: PUSH_BYTES step by step: completion without a push for an absent source or a length that is not positive,
Generic for a region that is not admitted, else one push of the byte then at src + i per step, and completion. -/
def Obligations.PushBytesStepByStep : Prop :=
  ∀ s : State,
    (∀ w src n a2 a3, s.phase = .ready w src n a2 a3 →
      (src = 0#32 ∨ n.toInt ≤ 0 → exec .pushBytes s = .next { s with code := .ok, phase := .idle }) ∧
      (src ≠ 0#32 → 0 < n.toInt → memAdmit s.cfg src.toNat n.toInt.toNat = false →
        exec .pushBytes s = .next { s with code := .generic, phase := .idle }) ∧
      (src ≠ 0#32 → 0 < n.toInt → memAdmit s.cfg src.toNat n.toInt.toNat = true →
        exec .pushBytes s = .next { s with phase := .pushing src 0 n.toInt.toNat })) ∧
    ∀ a i n, s.phase = .pushing a i n →
      (i = n → exec .pushBytes s = .next { s with code := .ok, phase := .idle }) ∧
      (i ≠ n → ∃ t, exec (.pushByte (memRead s.mem (a.toNat + i)) 0#24) s = .next t ∧
        exec .pushBytes s = .next { t with phase := .pushing a (i + 1) n })

/-- R146, R279: an admitted PUSH_BYTES of n bytes completes with Ok after exactly n + 2 consumer steps, having pushed the
n bytes in order. After k + 1 of them, for each k up to n, the first k bytes have been pushed and the command is still in
PUSHING. -/
def Obligations.PushBytesTakesNPlusTwoSteps : Prop :=
  ∀ (s : State) (w src n a2 a3 : Word) (rest : List Turn), s.cfg.wf = true → s.phase = .ready w src n a2 a3 →
    decode .cmd w = .ok .pushBytes → src ≠ 0#32 → 0 < n.toInt → memAdmit s.cfg src.toNat n.toInt.toNat = true →
    s.schedule = List.replicate (n.toInt.toNat + 2) .consumer ++ rest →
    (∀ k ≤ n.toInt.toNat, Host.Core.run core (k + 1) s =
      .next { s.pushAll (memReadBytes s.mem src.toNat k) with
        schedule := List.replicate (n.toInt.toNat + 1 - k) .consumer ++ rest
        phase := .pushing src k n.toInt.toNat }) ∧
    Host.Core.run core (n.toInt.toNat + 2) s =
      .next { s.pushAll (memReadBytes s.mem src.toNat n.toInt.toNat) with
        schedule := rest, code := .ok, phase := .idle }

/-! ### Frame Parser and Frame Index -/

/-- R163: the unstuffing of the model is the walk of R163 over ring positions, which always ends: within N turns, and
with the same verdict and the same bytes. -/
def Obligations.UnstuffingIsTheRingWalk : Prop :=
  ∀ (s : State) (p t : Nat), p < s.cfg.n → t < s.cfg.n →
    ∃ ok u, s.unstuffWalk t s.cfg.n (succMod s.cfg.n p) [] = some (ok, u) ∧
      unstuff s.cfg (s.ringSpan (succMod s.cfg.n p) t) = if ok then some u else none

/-- R32: after an insertion the live descriptors are the old ones (without the oldest when the index was full) and the
new one, latest; frameCount is min(frameCount + 1, K). -/
def Obligations.InsertionNeverDropsTheNewFrame : Prop :=
  ∀ (s : State) (d : Descriptor), s.indexOk →
    (s.indexInsert d).live = (if s.frameCount = s.cfg.k then s.live.drop 1 else s.live) ++ [d] ∧
    (s.indexInsert d).latest = d ∧ (s.indexInsert d).frameCount = min (s.frameCount + 1) s.cfg.k

/-- R31, R33, R34: the oldest and the latest live descriptor are the two ends of the live ones, and each eviction takes
its own end. -/
def Obligations.EvictionTakesItsEnd : Prop :=
  ∀ s : State, s.indexOk → 0 < s.frameCount →
    s.live.head? = some s.oldest ∧ s.live.getLast? = some s.latest ∧
    s.evictOldest.live = s.live.tail ∧ s.evictLatest.live = s.live.dropLast

/-- R160, R161, R162, R165, R166: what one pool step does, branch by branch. It moves `procTail` on by one, changes
`parseStart` only on HEADER and TRAILER, and adds a descriptor only for a valid candidate. -/
def Obligations.PoolStepBranches : Prop :=
  ∀ s : State, s.cfg.wf = true → s.ringOk → s.indexOk →
    s.poolStep.procTail = (s.procTail + 1) % s.cfg.n ∧ s.poolStep.head = s.head ∧ s.poolStep.buf = s.buf ∧
    (s.bufAt s.procTail = s.cfg.header → s.poolStep.parseStart = some s.procTail ∧ s.poolStep.live = s.live) ∧
    (s.bufAt s.procTail = s.cfg.trailer → s.poolStep.parseStart = none ∧
      (s.parseStart = none → s.poolStep.live = s.live) ∧
      ∀ p, s.parseStart = some p →
        s.poolStep.live =
          match unstuff s.cfg (s.ringSpan (succMod s.cfg.n p) s.procTail) with
          | none => s.live
          | some u =>
            if 3 ≤ u.length ∧
                crc16 s.cfg.poly (u.take (u.length - 2)) = u.getD (u.length - 2) 0#8 ++ u.getD (u.length - 1) 0#8
            then (if s.frameCount = s.cfg.k then s.live.drop 1 else s.live) ++ [⟨u.getD 0 0#8, p⟩]
            else s.live) ∧
    (s.bufAt s.procTail ≠ s.cfg.header → s.bufAt s.procTail ≠ s.cfg.trailer →
      s.poolStep.parseStart = s.parseStart ∧ s.poolStep.live = s.live)

/-- R171: POOL completes with Ok when the unparsed region is empty, and nothing but CODE and the phase changes; else it
does one pool step and goes on, with nothing outside the rings changed but the phase. -/
def Obligations.PoolStepsOrCompletes : Prop :=
  ∀ s : State, s.phase = .pooling ∨ (∃ w a0 a1 a2 a3, s.phase = .ready w a0 a1 a2 a3) →
    (s.procTail = s.head → exec .pool s = .next { s with code := .ok, phase := .idle }) ∧
    (s.procTail ≠ s.head →
      exec .pool s = .next { s.poolStep with phase := .pooling } ∧ SameOutsideRings s s.poolStep)

/-- R171, R279: with no other agent in between, POOL examines the unparsed region in one step per byte and completes with
Ok one step later, with the region empty and `head` and the buffer as they were. After each k of those steps, k from 1 to
the size of the region, it is POOLING and `procTail` has moved by k. -/
def Obligations.PoolDrainsTheRegion : Prop :=
  ∀ (s : State) (rest : List Turn), s.cfg.wf = true → s.ringOk →
    s.phase = .pooling ∨ (∃ w a0 a1 a2 a3, s.phase = .ready w a0 a1 a2 a3 ∧ decode .cmd w = .ok .pool) →
    s.schedule = List.replicate (s.unparsed + 1) .consumer ++ rest →
    (∀ k, 1 ≤ k → k ≤ s.unparsed → ∃ u, Host.Core.run core k s = .next u ∧ u.phase = .pooling ∧
      u.procTail = (s.procTail + k) % s.cfg.n ∧ u.head = s.head ∧ u.code = s.code) ∧
    ∃ t, Host.Core.run core (s.unparsed + 1) s = .next t ∧ t.phase = .idle ∧ t.code = .ok ∧
      t.procTail = s.head ∧ t.head = s.head ∧ t.buf = s.buf ∧ t.schedule = rest

/-! ### Frame Store -/

/-- R206, R207: the two queries complete with Ok in one step, RESULT0 answers, and nothing else changes. -/
def Obligations.QueriesComplete : Prop :=
  ∀ (s : State) (w a0 a1 a2 a3 : Word), s.phase = .ready w a0 a1 a2 a3 →
    exec .hasNewFrame s =
      .next { s with result0 := if 0 < s.frameCount then 1#32 else 0#32, code := .ok, phase := .idle } ∧
    exec .countFrame s = .next { s with result0 := BitVec.ofNat 32 s.frameCount, code := .ok, phase := .idle } ∧
    (s.frameCount ≤ s.cfg.k → s.cfg.wf = true → (BitVec.ofNat 32 s.frameCount).toNat = s.frameCount)

/-- R202, R203, R204: the first step of each of the five getters when it does not deliver: NullArgument, then
InvalidArgument (even with a frame available), then with no frame Timeout or WAITING by the effective timeout. Nothing
but CODE and the phase changes. -/
def Obligations.GetterFirstStepWithoutDelivery : Prop :=
  ∀ (op : Getter) (s : State) (w dst cap tmo a3 : Word), s.phase = .ready w dst cap tmo a3 →
    (dst = 0#32 → exec op.instr s = .next { s with code := .nullArgument, phase := .idle }) ∧
    (dst ≠ 0#32 → cap.toInt ≤ 0 → exec op.instr s = .next { s with code := .invalidArgument, phase := .idle }) ∧
    (dst ≠ 0#32 → 0 < cap.toInt → s.frameCount = 0 →
      let t := if tmo.toInt < 0 then Config.defaultTimeoutMs else tmo.toInt.toNat
      (t = 0 → exec op.instr s = .next { s with code := .timeout, phase := .idle }) ∧
      (t ≠ 0 → exec op.instr s = .next { s with phase := .waiting op dst cap t }))

/-- R201: the extraction walk. With the first raw TRAILER j positions after the one that follows `p`, before `head`, it
yields the unstuffed span's body with the header and trailer bytes, or fails on a bad or short span; with none it
fails. -/
def Obligations.ExtractionStopsAtTheFirstTrailer : Prop :=
  ∀ (s : State) (p : Nat), p < s.cfg.n → s.head < s.cfg.n →
    let room := distMod s.cfg.n (succMod s.cfg.n p) s.head
    let byteAfter := fun i => s.bufAt ((p + 1 + i) % s.cfg.n)
    (∀ j < room, byteAfter j = s.cfg.trailer → (∀ i < j, byteAfter i ≠ s.cfg.trailer) →
      s.extract p =
        match unstuff s.cfg ((List.range j).map byteAfter) with
        | none => none
        | some u => if u.length < 3 then none else some ⟨u.take (u.length - 2), s.bufAt p, s.cfg.trailer⟩) ∧
    ((∀ i < room, byteAfter i ≠ s.cfg.trailer) → s.extract p = none)

/-- R205 with R208, R209, R210, R212, R215, R216: each of GET_OLDEST, GET_LATEST, REMOVE_OLDEST, REMOVE_LATEST and
GET_DATA_BYTE, at its first step or at a wait step, completes with Ok when a frame is available, its extraction succeeds,
the payload fits and the destination is admitted. The payload stands at dst and no other byte of host memory changes;
RESULT0 is its length; RESULT1 is trailer and header, but for GET_DATA_BYTE, which leaves it; a remove evicts its end of
the index, and a get evicts nothing; nothing else changes, but for the model's count of draws, which a wait step advances
(log 6). -/
def Obligations.GetterDelivers : Prop :=
  ∀ (op : Getter) (s : State) (dst cap : Word) (drawn : Nat) (f : Extracted),
    (∃ w tmo a3, s.phase = .ready w dst cap tmo a3 ∧ dst ≠ 0#32 ∧ drawn = s.draws) ∨
      (∃ t, s.phase = .waiting op dst cap t ∧ drawn = s.draws + 1) →
    Memory.wf s.mem = true → 0 < s.frameCount →
    s.extract (if op = .getLatest ∨ op = .removeLatest then s.latest else s.oldest).startPos = some f →
    (f.payload.length : Int) ≤ cap.toInt → memAdmit s.cfg dst.toNat f.payload.length = true →
    ∃ t, exec op.instr s = .next t ∧
      t = { s with
        mem := t.mem
        result0 := BitVec.ofNat 32 f.payload.length
        result1 := if op = .getDataByte then s.result1 else 0#16 ++ f.trailer ++ f.header
        frameTail := if op = .removeOldest then succMod s.cfg.k s.frameTail else s.frameTail
        frameHead := if op = .removeLatest then predMod s.cfg.k s.frameHead else s.frameHead
        frameCount := if op = .removeOldest ∨ op = .removeLatest then s.frameCount - 1 else s.frameCount
        code := .ok
        phase := .idle
        draws := drawn } ∧
      ∀ a, memRead t.mem a =
        if dst.toNat ≤ a ∧ a < dst.toNat + f.payload.length
        then f.payload.getD (a - dst.toNat) 0#8 else memRead s.mem a

/-- R205, R212: the ways a delivery fails, in order, for each of the five getters, at its first step or at a wait step:
Generic when the extraction fails, Full when the payload is longer than cap, Generic when the destination is not admitted.
Nothing but CODE and the phase changes (and, at a wait step, the model's count of draws, log 6), so nothing is evicted. -/
def Obligations.FailedDeliveryEvictsNothing : Prop :=
  ∀ (op : Getter) (s : State) (dst cap : Word) (drawn : Nat),
    (∃ w tmo a3, s.phase = .ready w dst cap tmo a3 ∧ dst ≠ 0#32 ∧ 0 < cap.toInt ∧ drawn = s.draws) ∨
      (∃ t, s.phase = .waiting op dst cap t ∧ drawn = s.draws + 1) →
    0 < s.frameCount →
    let start := (if op = .getLatest ∨ op = .removeLatest then s.latest else s.oldest).startPos
    (s.extract start = none →
      exec op.instr s = .next { s with code := .generic, phase := .idle, draws := drawn }) ∧
    ∀ f, s.extract start = some f →
      (cap.toInt < (f.payload.length : Int) →
        exec op.instr s = .next { s with code := .full, phase := .idle, draws := drawn }) ∧
      ((f.payload.length : Int) ≤ cap.toInt → memAdmit s.cfg dst.toNat f.payload.length = false →
        exec op.instr s = .next { s with code := .generic, phase := .idle, draws := drawn })

/-- R212: a wait step of a getter delivers when a frame is available, whatever the Clock says (what a delivery does at a
wait step is stated by GetterDelivers and FailedDeliveryEvictsNothing); else it completes with Timeout exactly when the
Clock's draw says so, and stays waiting otherwise. That the draw is the opaque `clockExpired` at the counter `draws`, which
each wait step advances, is the model's choice (log 6). -/
def Obligations.WaitStepChecksOnce : Prop :=
  ∀ (op : Getter) (s : State) (dst cap : Word) (t : Nat), s.phase = .waiting op dst cap t →
    (0 < s.frameCount → exec op.instr s = .next (deliver op dst cap { s with draws := s.draws + 1 })) ∧
    (s.frameCount = 0 → Config.clockExpired s.draws t = true →
      exec op.instr s = .next { s with draws := s.draws + 1, code := .timeout, phase := .idle }) ∧
    (s.frameCount = 0 → Config.clockExpired s.draws t = false →
      exec op.instr s = .next { s with draws := s.draws + 1 })

/-! ### Whole-machine rules -/

/-- R243: an instruction that ends a command with a code other than Ok changes only CODE and the phase (and, in a wait
step, the model's count of draws). -/
def Obligations.ErrorsHaveNoPartialEffect : Prop :=
  ∀ (i : Instr) (s t : State), exec i s = .next t → s.phase ≠ .idle → t.phase = .idle → t.code ≠ .ok →
    t = { s with code := t.code, phase := .idle, draws := t.draws }

/-- R40, R41, R244: CODE changes only in a step that ends a command, and RESULT0 and RESULT1 only in one that ends it
with Ok; POOL, PUSH_BYTES and PUSH_BYTE change neither result, and only the four getters with header output change
RESULT1. -/
def Obligations.ResultsAreWrittenOnlyOnOk : Prop :=
  ∀ (i : Instr) (s t : State), exec i s = .next t →
    (t.code ≠ s.code → t.phase = .idle) ∧
    (t.result0 ≠ s.result0 → t.phase = .idle ∧ t.code = .ok ∧ i ≠ .pool ∧ i ≠ .pushBytes ∧
      ∀ d x, i ≠ .pushByte d x) ∧
    (t.result1 ≠ s.result1 → t.phase = .idle ∧ t.code = .ok ∧
      (i = .getOldest ∨ i = .getLatest ∨ i = .removeOldest ∨ i = .removeLatest))

/-- R23, R24, R25, R27, R30, R252: who writes what. Only the two pushes write the buffer and `head`; only they and POOL
write `procTail` and `parseStart` and the descriptors; only they, POOL and the removes write the indices; only ENCODE and
the getters write host memory, and only when they complete with Ok; no instruction writes ARG0 to ARG3. -/
def Obligations.EachInstructionWritesOnlyItsOwn : Prop :=
  ∀ (i : Instr) (s t : State), exec i s = .next t →
    t.arg0 = s.arg0 ∧ t.arg1 = s.arg1 ∧ t.arg2 = s.arg2 ∧ t.arg3 = s.arg3 ∧
    (i ≠ .pushBytes → (∀ d x, i ≠ .pushByte d x) →
      t.buf = s.buf ∧ t.head = s.head ∧
      (i ≠ .pool → t.procTail = s.procTail ∧ t.parseStart = s.parseStart ∧ t.desc = s.desc ∧
        (i ≠ .removeOldest → i ≠ .removeLatest →
          t.frameHead = s.frameHead ∧ t.frameTail = s.frameTail ∧ t.frameCount = s.frameCount))) ∧
    (t.mem ≠ s.mem → t.code = .ok ∧ t.phase = .idle ∧
      (i = .encode ∨ i = .getOldest ∨ i = .getLatest ∨ i = .removeOldest ∨ i = .removeLatest ∨ i = .getDataByte))

/-- The invariant of the machine is kept by every step: positions and indices in range, frameHead = (frameTail +
frameCount) mod K (R29), frameCount ≤ K (R35), memories in canonical form, the unparsed region empty in AFTER_PUSH mode
(R141), the phase's operands as checked (R146, R202), CrcMismatch and Empty never produced (R240). -/
def Obligations.StepKeepsTheInvariant : Prop :=
  ∀ s t : State, s.Inv → step s = .next t → t.Inv

/-- R35 invariant 1 and R36: under STRICT every step keeps every live descriptor's header in place, the live starts in
strictly increasing order of writing, and every live frame extractable (R201). -/
def Obligations.StepKeepsTheStrictInvariant : Prop :=
  ∀ s t : State, s.cfg.guardMode = .strict → s.Inv → s.StrictInv → step s = .next t → t.StrictInv

/-- R201: under STRICT the extraction never fails, so with a frame available, a positive capacity and a destination each
getter ends with Ok, with Full, or with Generic for a destination that is not admitted. -/
def Obligations.StrictExtractionNeverFails : Prop :=
  ∀ (op : Getter) (s : State) (w dst cap tmo a3 : Word), s.Inv → s.StrictInv → 0 < s.frameCount →
    s.phase = .ready w dst cap tmo a3 → dst ≠ 0#32 → 0 < cap.toInt →
    ∃ f t, s.extract (if op = .getLatest ∨ op = .removeLatest then s.latest else s.oldest).startPos = some f ∧
      f.header = s.cfg.header ∧ f.trailer = s.cfg.trailer ∧ exec op.instr s = .next t ∧
      t.code = if cap.toInt < (f.payload.length : Int) then .full
        else if memAdmit s.cfg dst.toNat f.payload.length then .ok else .generic

/-- R36, R143, C7: under STRICT testing only the oldest descriptor is testing them all, at both of a push's checks (R140).
A live descriptor that starts at `head` is the oldest one (step 2), and one that starts at the next head is the oldest of
those that step 2 leaves (step 6). -/
def Obligations.OldestCheckIsEnough : Prop :=
  ∀ (s : State) (d : Descriptor), s.Inv → s.StrictInv →
    (d ∈ s.live → d.startPos = s.head → s.live.head? = some d) ∧
    (d ∈ dropIfStartsAt s.head s.live → d.startPos = succMod s.cfg.n s.head →
      (dropIfStartsAt s.head s.live).head? = some d)

/-- R168, R170 in AFTER_PUSH mode under STRICT, from a state with no open parse: pushing the encoding of a non-empty
payload that fits the ring leaves exactly one new descriptor, latest, started at the old `head`, and extraction gives the
payload back. -/
def Obligations.PushedFrameIsFoundAndReturned : Prop :=
  ∀ (s : State) (p : List Byte), s.Inv → s.cfg.poolMode = .afterPush → s.cfg.guardMode = .strict →
    s.parseStart = none → p ≠ [] → (encodeFrame s.cfg p).length ≤ s.cfg.n →
    ∃ m, (s.pushAll (encodeFrame s.cfg p)).live = s.live.drop m ++ [⟨p.headD 0#8, s.head⟩] ∧
      (s.pushAll (encodeFrame s.cfg p)).latest = ⟨p.headD 0#8, s.head⟩ ∧
      (s.pushAll (encodeFrame s.cfg p)).extract s.head = some ⟨p, s.cfg.header, s.cfg.trailer⟩ ∧
      (s.pushAll (encodeFrame s.cfg p)).parseStart = none

/-- R168: in the same setting a frame whose wire length is greater than N is not found: no descriptor is added. -/
def Obligations.FrameLongerThanTheRingIsNotFound : Prop :=
  ∀ (s : State) (p : List Byte), s.Inv → s.cfg.poolMode = .afterPush → s.cfg.guardMode = .strict →
    s.parseStart = none → s.cfg.n < (encodeFrame s.cfg p).length →
    ∃ m, (s.pushAll (encodeFrame s.cfg p)).live = s.live.drop m ∧
      (s.pushAll (encodeFrame s.cfg p)).parseStart = none

/-- R23, R49, U1: the contents of the Byte Stream Buffer and of the descriptor slots after reset cannot be observed. Two
runs from reset that differ only in those contents, under the same turns and environment, differ only in those contents: so the values
the model puts there (logs 9 and 10) are seen by no rule. -/
def Obligations.ResetContentsAreNeverObserved : Prop :=
  ∀ (c : Config) (turns : List Turn) (e : Environment) (mem buf : List Host.Cell) (desc : List (Nat × Descriptor))
    (k : Nat) (t : State),
    c.wf = true → cellsWf unlistedByte 0 c.n buf = true → cellsWf unlistedDescriptor 0 c.k desc = true →
    Host.Core.run core k { State.init c with mem := mem, schedule := turns, environment := e } = .next t →
    ∃ t' : State,
      Host.Core.run core k
        { State.init c with mem := mem, schedule := turns, environment := e, buf := buf, desc := desc } = .next t' ∧
      t = { t' with buf := t.buf, desc := t.desc }

/-- R280, R213: in a fair run, from any moment at which a command other than POOL is in progress, a moment comes at which
the phase is IDLE. POOL need not complete: for every well-formed BACKGROUND configuration with N above 1 there is a fair run
from reset in which the phase is POOLING at every moment from some moment on (F3). -/
def Obligations.FairRunsCompleteEveryCommandButPool : Prop :=
  (∀ (turns : Nat → Turn) (states : Nat → State) (k : Nat), FairRun turns states → (states k).phase.ok = true →
    (states k).phase ≠ .pooling → (∀ w a0 a1 a2 a3, (states k).phase = .ready w a0 a1 a2 a3 → decode .cmd w ≠ .ok .pool) →
    ∃ j ≥ k, (states j).phase = .idle) ∧
  ∀ c : Config, c.wf = true → c.poolMode = .background → 2 ≤ c.n →
    ∃ (turns : Nat → Turn) (states : Nat → State), states 0 = State.init c ∧ FairRun turns states ∧
      ∃ m, ∀ j ≥ m, (states j).phase = .pooling
end

