-- ==== Sys2Proof/Laws/Cells.lean ====
section
/-! SUPPORT. The laws of sparse memories: read after write, other addresses, the canonical form; then for host memory. -/

namespace Sys2Proof.Machine

section cells

variable {α : Type} [DecidableEq α] {d : α}

/-- Raising the lower bound to the first address keeps the canonical form. -/
theorem cellsWf_weaken {lo lo' hi : Nat} {m : List (Nat × α)} (h : cellsWf d lo hi m = true) (hle : lo' ≤ lo) :
    cellsWf d lo' hi m = true := by
  cases m with
  | nil => rfl
  | cons c rest =>
    obtain ⟨b, w⟩ := c
    simp only [cellsWf, Bool.and_eq_true, decide_eq_true_eq] at h ⊢
    exact ⟨⟨by omega, h.1.2⟩, h.2⟩

/-- Below the lower bound of the canonical form, every address is unlisted. -/
theorem cellsRead_below {lo hi : Nat} {m : List (Nat × α)} {a : Nat} (h : cellsWf d lo hi m = true) (ha : a < lo) :
    cellsRead d m a = d := by
  cases m with
  | nil => rfl
  | cons c rest =>
    obtain ⟨b, w⟩ := c
    simp only [cellsWf, Bool.and_eq_true, decide_eq_true_eq] at h
    rw [cellsRead, if_neg (by omega), if_neg (by omega)]

/-- A write keeps the canonical form. -/
theorem cellsWrite_wf {lo hi : Nat} {m : List (Nat × α)} {a : Nat} (v : α) (h : cellsWf d lo hi m = true)
    (hlo : lo ≤ a) (hhi : a < hi) : cellsWf d lo hi (cellsWrite d m a v) = true := by
  induction m generalizing lo with
  | nil => by_cases hv : v = d <;> simp [cellsWrite, cellsWf, hv, hlo, hhi]
  | cons c rest ih =>
    obtain ⟨b, w⟩ := c
    simp only [cellsWf, Bool.and_eq_true, decide_eq_true_eq] at h
    obtain ⟨⟨hb, hbhi, hw⟩, hrest⟩ := h
    unfold cellsWrite
    split_ifs with hba heq hv hv
    · simp [cellsWf, hb, hbhi, hw, ih hrest (by omega)]
    · exact cellsWf_weaken hrest (by omega)
    · subst heq; simp [cellsWf, hlo, hhi, hv, hrest]
    · simp [cellsWf, hb, hbhi, hw, hrest]
    · simp only [cellsWf, Bool.and_eq_true, decide_eq_true_eq]
      exact ⟨⟨hlo, hhi, hv⟩, ⟨by omega, hbhi, hw⟩, hrest⟩

/-- Reading after a write at the written address. -/
theorem cellsRead_write_same {lo hi : Nat} {m : List (Nat × α)} (a : Nat) (v : α) (h : cellsWf d lo hi m = true) :
    cellsRead d (cellsWrite d m a v) a = v := by
  induction m generalizing lo with
  | nil => by_cases hv : v = d <;> simp [cellsWrite, cellsRead, hv]
  | cons c rest ih =>
    obtain ⟨b, w⟩ := c
    simp only [cellsWf, Bool.and_eq_true, decide_eq_true_eq] at h
    rcases Nat.lt_trichotomy b a with hba | hba | hba
    · simp [cellsWrite, cellsRead, hba, Nat.ne_of_lt hba, ih h.2]
    · subst hba
      by_cases hv : v = d
      · simp [cellsWrite, hv, cellsRead_below h.2]
      · simp [cellsWrite, cellsRead, hv]
    · by_cases hv : v = d
      · simp [cellsWrite, cellsRead, hv, Nat.not_lt.2 (Nat.le_of_lt hba), Nat.ne_of_gt hba]
      · simp [cellsWrite, cellsRead, hv, Nat.not_lt.2 (Nat.le_of_lt hba), Nat.ne_of_gt hba]

/-- Reading after a write at any other address. -/
theorem cellsRead_write_other {lo hi : Nat} {m : List (Nat × α)} {a a' : Nat} (v : α)
    (h : cellsWf d lo hi m = true) (hne : a' ≠ a) :
    cellsRead d (cellsWrite d m a v) a' = cellsRead d m a' := by
  induction m generalizing lo with
  | nil => by_cases hv : v = d <;> simp [cellsWrite, cellsRead, hv, Ne.symm hne]
  | cons c rest ih =>
    obtain ⟨b, w⟩ := c
    simp only [cellsWf, Bool.and_eq_true, decide_eq_true_eq] at h
    rcases Nat.lt_trichotomy b a with hba | hba | hba
    · simp [cellsWrite, cellsRead, hba, ih h.2]
    · subst hba
      have hbelow : a' < b → cellsRead d rest a' = d := fun hx => cellsRead_below h.2 (by omega)
      by_cases hv : v = d
      · rcases Nat.lt_or_gt_of_ne hne with hlt | hlt
        · simp [cellsWrite, cellsRead, hv, Ne.symm hne, Nat.not_lt.2 (Nat.le_of_lt hlt), hbelow hlt]
        · simp [cellsWrite, cellsRead, hv, Ne.symm hne, hlt]
      · simp [cellsWrite, cellsRead, hv, Ne.symm hne]
    · by_cases hv : v = d
      · simp [cellsWrite, hv, Nat.not_lt.2 (Nat.le_of_lt hba), Nat.ne_of_gt hba]
      · rcases Nat.lt_or_gt_of_ne hne with hlt | hlt
        · simp [cellsWrite, cellsRead, hv, Nat.not_lt.2 (Nat.le_of_lt hba), Nat.ne_of_gt hba, Ne.symm hne,
            Nat.not_lt.2 (Nat.le_of_lt hlt), show b ≠ a' by omega, show ¬ b < a' by omega]
        · simp [cellsWrite, cellsRead, hv, Nat.not_lt.2 (Nat.le_of_lt hba), Nat.ne_of_gt hba, Ne.symm hne, hlt]

/-- Reading after a write: the written value at the written address, what it was at any other. -/
theorem cellsRead_write {lo hi : Nat} {m : List (Nat × α)} (a a' : Nat) (v : α) (h : cellsWf d lo hi m = true) :
    cellsRead d (cellsWrite d m a v) a' = if a' = a then v else cellsRead d m a' := by
  split_ifs with heq
  · rw [heq, cellsRead_write_same a v h]
  · exact cellsRead_write_other v h heq

end cells

/-! ### Host memory -/

/-- R61, R71: a byte read after a byte write. -/
theorem memRead_write {m : List Host.Cell} (a a' : Nat) (v : Byte) (h : Memory.wf m = true) :
    memRead (memWrite m a v) a' = if a' = a then v else memRead m a' := cellsRead_write a a' v h

/-- A byte write at a host address keeps the canonical form. -/
theorem memWrite_wf {m : List Host.Cell} {a : Nat} (v : Byte) (h : Memory.wf m = true) (ha : a < addressSpace) :
    Memory.wf (memWrite m a v) = true := cellsWrite_wf v h (Nat.zero_le a) ha

/-- A write of a region below 2^32 keeps the canonical form. -/
theorem memWriteBytes_wf {m : List Host.Cell} {a : Nat} (bs : List Byte) (h : Memory.wf m = true)
    (ha : a + bs.length ≤ addressSpace) : Memory.wf (memWriteBytes m a bs) = true := by
  induction bs generalizing m a with
  | nil => exact h
  | cons b rest ih =>
    simp only [List.length_cons] at ha
    exact ih (memWrite_wf b h (by omega)) (by omega)

/-- Reading after a region was written: the region's byte inside it, what it was outside. -/
theorem memRead_writeBytes {m : List Host.Cell} {a : Nat} (bs : List Byte) (a' : Nat) (h : Memory.wf m = true)
    (ha : a + bs.length ≤ addressSpace) :
    memRead (memWriteBytes m a bs) a' =
      if a ≤ a' ∧ a' < a + bs.length then bs.getD (a' - a) 0#8 else memRead m a' := by
  induction bs generalizing m a with
  | nil =>
    rw [if_neg (by simp only [List.length_nil]; omega)]
    rfl
  | cons b rest ih =>
    simp only [List.length_cons] at ha ⊢
    rw [memWriteBytes, ih (memWrite_wf b h (by omega)) (by omega), memRead_write a a' b h]
    by_cases h0 : a' = a
    · subst h0
      rw [if_neg (by omega), if_pos rfl, if_pos (by omega)]
      simp
    · by_cases h1 : a + 1 ≤ a' ∧ a' < a + 1 + rest.length
      · rw [if_pos h1, if_pos (by omega), show a' - a = a' - (a + 1) + 1 by omega, List.getD_cons_succ]
      · rw [if_neg h1, if_neg h0, if_neg (by omega)]

@[simp] theorem memReadBytes_length (m : List Host.Cell) (a n : Nat) : (memReadBytes m a n).length = n := by
  induction n generalizing a with
  | zero => rfl
  | succ n ih => simp [memReadBytes, ih]

/-- R62: an admitted region of positive length lies below 2^32. -/
theorem memAdmit_le {c : Config} {a n : Nat} (h : memAdmit c a n = true) (hn : 0 < n) : a + n ≤ addressSpace := by
  simp only [memAdmit, Bool.or_eq_true, beq_iff_eq, Bool.and_eq_true, decide_eq_true_eq] at h
  omega

/-- R62: a region of length 0 is always admitted. -/
@[simp] theorem memAdmit_zero (c : Config) (a : Nat) : memAdmit c a 0 = true := by simp [memAdmit]

end Sys2Proof.Machine
end

