-- ==== Sys2Proof/Laws/Ring.lean ====
section
/-! SUPPORT. Ring arithmetic (R10): ranges, and how distance moves under `succ`. -/

namespace Sys2Proof.Machine

theorem succMod_lt {m : Nat} (i : Nat) (h : 0 < m) : succMod m i < m := Nat.mod_lt _ h

theorem predMod_lt {m : Nat} (i : Nat) (h : 0 < m) : predMod m i < m := Nat.mod_lt _ h

theorem distMod_lt {m : Nat} (a b : Nat) (h : 0 < m) : distMod m a b < m := Nat.mod_lt _ h

/-- `succ` inside the ring: the next number, or 0 at the end. -/
theorem succMod_eq {m i : Nat} (h : i < m) : succMod m i = if i + 1 = m then 0 else i + 1 := by
  unfold succMod
  split_ifs with h1
  · rw [h1, Nat.mod_self]
  · exact Nat.mod_eq_of_lt (by omega)

/-- `pred` inside the ring: the number before, or the last at 0. -/
theorem predMod_eq {m i : Nat} (h : i < m) : predMod m i = if i = 0 then m - 1 else i - 1 := by
  unfold predMod
  split_ifs with h1
  · subst h1; rw [Nat.zero_add]; exact Nat.mod_eq_of_lt (by omega)
  · rw [show i + m - 1 = i - 1 + m by omega, Nat.add_mod_right]; exact Nat.mod_eq_of_lt (by omega)

/-- Distance inside the ring: the difference, wrapped once. -/
theorem distMod_eq {m a b : Nat} (ha : a < m) (hb : b < m) : distMod m a b = if a ≤ b then b - a else b + m - a := by
  unfold distMod
  rw [Nat.mod_eq_of_lt ha]
  split_ifs with h1
  · rw [show b + (m - a) = b - a + m by omega, Nat.add_mod_right]; exact Nat.mod_eq_of_lt (by omega)
  · rw [show b + (m - a) = b + m - a by omega]; exact Nat.mod_eq_of_lt (by omega)

/-- R26: the distance is 0 exactly between a position and itself. -/
theorem distMod_eq_zero {m a b : Nat} (ha : a < m) (hb : b < m) : distMod m a b = 0 ↔ a = b := by
  rw [distMod_eq ha hb]; split_ifs <;> omega

/-- Moving the start one on shortens a non-empty walk by one. -/
theorem distMod_succ_left {m a b : Nat} (ha : a < m) (hb : b < m) (hab : a ≠ b) :
    distMod m (succMod m a) b + 1 = distMod m a b := by
  have hs := succMod_lt a (by omega : 0 < m)
  rw [distMod_eq hs hb, distMod_eq ha hb, succMod_eq ha]
  split_ifs <;> omega

/-- Moving the end one on lengthens a walk by one, until it has gone round. -/
theorem distMod_succ_right {m a b : Nat} (ha : a < m) (hb : b < m) (hab : succMod m b ≠ a) :
    distMod m a (succMod m b) = distMod m a b + 1 := by
  have hs := succMod_lt b (by omega : 0 < m)
  rw [succMod_eq hb] at hab
  rw [distMod_eq ha hs, distMod_eq ha hb, succMod_eq hb]
  split_ifs at hab ⊢ <;> omega

/-- From the position after `a` all the way round to `a`. -/
theorem distMod_succ_self {m a : Nat} (ha : a < m) : distMod m (succMod m a) a = m - 1 := by
  have hs := succMod_lt a (by omega : 0 < m)
  rw [distMod_eq hs ha, succMod_eq ha]
  split_ifs <;> omega

theorem predMod_succMod {m i : Nat} (h : i < m) : predMod m (succMod m i) = i := by
  have hs := succMod_eq h
  rw [predMod_eq (succMod_lt i (by omega))]
  split_ifs at hs ⊢ <;> omega

theorem succMod_predMod {m i : Nat} (h : i < m) : succMod m (predMod m i) = i := by
  have hp := predMod_eq h
  rw [succMod_eq (predMod_lt i (by omega))]
  split_ifs at hp ⊢ <;> omega

end Sys2Proof.Machine
end

