-- ==== Sys2Proof/Laws/State.lean ====
section
/-! SUPPORT. One lemma per field per update of the state, each true by rfl. -/

namespace Sys2Proof.Machine

/-! ### `complete` -/

@[simp] theorem State.complete_cfg (s : State) (c : StatusCode) : (s.complete c).cfg = s.cfg := rfl
@[simp] theorem State.complete_buf (s : State) (c : StatusCode) : (s.complete c).buf = s.buf := rfl
@[simp] theorem State.complete_head (s : State) (c : StatusCode) : (s.complete c).head = s.head := rfl
@[simp] theorem State.complete_procTail (s : State) (c : StatusCode) : (s.complete c).procTail = s.procTail := rfl
@[simp] theorem State.complete_parseStart (s : State) (c : StatusCode) : (s.complete c).parseStart = s.parseStart := rfl
@[simp] theorem State.complete_desc (s : State) (c : StatusCode) : (s.complete c).desc = s.desc := rfl
@[simp] theorem State.complete_frameHead (s : State) (c : StatusCode) : (s.complete c).frameHead = s.frameHead := rfl
@[simp] theorem State.complete_frameTail (s : State) (c : StatusCode) : (s.complete c).frameTail = s.frameTail := rfl
@[simp] theorem State.complete_frameCount (s : State) (c : StatusCode) : (s.complete c).frameCount = s.frameCount := rfl
@[simp] theorem State.complete_arg0 (s : State) (c : StatusCode) : (s.complete c).arg0 = s.arg0 := rfl
@[simp] theorem State.complete_arg1 (s : State) (c : StatusCode) : (s.complete c).arg1 = s.arg1 := rfl
@[simp] theorem State.complete_arg2 (s : State) (c : StatusCode) : (s.complete c).arg2 = s.arg2 := rfl
@[simp] theorem State.complete_arg3 (s : State) (c : StatusCode) : (s.complete c).arg3 = s.arg3 := rfl
@[simp] theorem State.complete_result0 (s : State) (c : StatusCode) : (s.complete c).result0 = s.result0 := rfl
@[simp] theorem State.complete_result1 (s : State) (c : StatusCode) : (s.complete c).result1 = s.result1 := rfl
@[simp] theorem State.complete_code (s : State) (c : StatusCode) : (s.complete c).code = c := rfl
@[simp] theorem State.complete_phase (s : State) (c : StatusCode) : (s.complete c).phase = Phase.idle := rfl
@[simp] theorem State.complete_mem (s : State) (c : StatusCode) : (s.complete c).mem = s.mem := rfl
@[simp] theorem State.complete_schedule (s : State) (c : StatusCode) : (s.complete c).schedule = s.schedule := rfl
@[simp] theorem State.complete_environment (s : State) (c : StatusCode) : (s.complete c).environment = s.environment := rfl
@[simp] theorem State.complete_draws (s : State) (c : StatusCode) : (s.complete c).draws = s.draws := rfl
@[simp] theorem State.complete_hostData (s : State) (c : StatusCode) : (s.complete c).hostData = s.hostData := rfl

/-! ### `setBuf` -/

@[simp] theorem State.setBuf_cfg (s : State) (i : Nat) (v : Byte) : (s.setBuf i v).cfg = s.cfg := rfl
@[simp] theorem State.setBuf_buf (s : State) (i : Nat) (v : Byte) : (s.setBuf i v).buf = cellsWrite unlistedByte s.buf i v := rfl
@[simp] theorem State.setBuf_head (s : State) (i : Nat) (v : Byte) : (s.setBuf i v).head = s.head := rfl
@[simp] theorem State.setBuf_procTail (s : State) (i : Nat) (v : Byte) : (s.setBuf i v).procTail = s.procTail := rfl
@[simp] theorem State.setBuf_parseStart (s : State) (i : Nat) (v : Byte) : (s.setBuf i v).parseStart = s.parseStart := rfl
@[simp] theorem State.setBuf_desc (s : State) (i : Nat) (v : Byte) : (s.setBuf i v).desc = s.desc := rfl
@[simp] theorem State.setBuf_frameHead (s : State) (i : Nat) (v : Byte) : (s.setBuf i v).frameHead = s.frameHead := rfl
@[simp] theorem State.setBuf_frameTail (s : State) (i : Nat) (v : Byte) : (s.setBuf i v).frameTail = s.frameTail := rfl
@[simp] theorem State.setBuf_frameCount (s : State) (i : Nat) (v : Byte) : (s.setBuf i v).frameCount = s.frameCount := rfl
@[simp] theorem State.setBuf_arg0 (s : State) (i : Nat) (v : Byte) : (s.setBuf i v).arg0 = s.arg0 := rfl
@[simp] theorem State.setBuf_arg1 (s : State) (i : Nat) (v : Byte) : (s.setBuf i v).arg1 = s.arg1 := rfl
@[simp] theorem State.setBuf_arg2 (s : State) (i : Nat) (v : Byte) : (s.setBuf i v).arg2 = s.arg2 := rfl
@[simp] theorem State.setBuf_arg3 (s : State) (i : Nat) (v : Byte) : (s.setBuf i v).arg3 = s.arg3 := rfl
@[simp] theorem State.setBuf_result0 (s : State) (i : Nat) (v : Byte) : (s.setBuf i v).result0 = s.result0 := rfl
@[simp] theorem State.setBuf_result1 (s : State) (i : Nat) (v : Byte) : (s.setBuf i v).result1 = s.result1 := rfl
@[simp] theorem State.setBuf_code (s : State) (i : Nat) (v : Byte) : (s.setBuf i v).code = s.code := rfl
@[simp] theorem State.setBuf_phase (s : State) (i : Nat) (v : Byte) : (s.setBuf i v).phase = s.phase := rfl
@[simp] theorem State.setBuf_mem (s : State) (i : Nat) (v : Byte) : (s.setBuf i v).mem = s.mem := rfl
@[simp] theorem State.setBuf_schedule (s : State) (i : Nat) (v : Byte) : (s.setBuf i v).schedule = s.schedule := rfl
@[simp] theorem State.setBuf_environment (s : State) (i : Nat) (v : Byte) : (s.setBuf i v).environment = s.environment := rfl
@[simp] theorem State.setBuf_draws (s : State) (i : Nat) (v : Byte) : (s.setBuf i v).draws = s.draws := rfl
@[simp] theorem State.setBuf_hostData (s : State) (i : Nat) (v : Byte) : (s.setBuf i v).hostData = s.hostData := rfl

/-! ### `evictOldest` -/

@[simp] theorem State.evictOldest_cfg (s : State) : (s.evictOldest).cfg = s.cfg := rfl
@[simp] theorem State.evictOldest_buf (s : State) : (s.evictOldest).buf = s.buf := rfl
@[simp] theorem State.evictOldest_head (s : State) : (s.evictOldest).head = s.head := rfl
@[simp] theorem State.evictOldest_procTail (s : State) : (s.evictOldest).procTail = s.procTail := rfl
@[simp] theorem State.evictOldest_parseStart (s : State) : (s.evictOldest).parseStart = s.parseStart := rfl
@[simp] theorem State.evictOldest_desc (s : State) : (s.evictOldest).desc = s.desc := rfl
@[simp] theorem State.evictOldest_frameHead (s : State) : (s.evictOldest).frameHead = s.frameHead := rfl
@[simp] theorem State.evictOldest_frameTail (s : State) : (s.evictOldest).frameTail = succMod s.cfg.k s.frameTail := rfl
@[simp] theorem State.evictOldest_frameCount (s : State) : (s.evictOldest).frameCount = s.frameCount - 1 := rfl
@[simp] theorem State.evictOldest_arg0 (s : State) : (s.evictOldest).arg0 = s.arg0 := rfl
@[simp] theorem State.evictOldest_arg1 (s : State) : (s.evictOldest).arg1 = s.arg1 := rfl
@[simp] theorem State.evictOldest_arg2 (s : State) : (s.evictOldest).arg2 = s.arg2 := rfl
@[simp] theorem State.evictOldest_arg3 (s : State) : (s.evictOldest).arg3 = s.arg3 := rfl
@[simp] theorem State.evictOldest_result0 (s : State) : (s.evictOldest).result0 = s.result0 := rfl
@[simp] theorem State.evictOldest_result1 (s : State) : (s.evictOldest).result1 = s.result1 := rfl
@[simp] theorem State.evictOldest_code (s : State) : (s.evictOldest).code = s.code := rfl
@[simp] theorem State.evictOldest_phase (s : State) : (s.evictOldest).phase = s.phase := rfl
@[simp] theorem State.evictOldest_mem (s : State) : (s.evictOldest).mem = s.mem := rfl
@[simp] theorem State.evictOldest_schedule (s : State) : (s.evictOldest).schedule = s.schedule := rfl
@[simp] theorem State.evictOldest_environment (s : State) : (s.evictOldest).environment = s.environment := rfl
@[simp] theorem State.evictOldest_draws (s : State) : (s.evictOldest).draws = s.draws := rfl
@[simp] theorem State.evictOldest_hostData (s : State) : (s.evictOldest).hostData = s.hostData := rfl

/-! ### `evictLatest` -/

@[simp] theorem State.evictLatest_cfg (s : State) : (s.evictLatest).cfg = s.cfg := rfl
@[simp] theorem State.evictLatest_buf (s : State) : (s.evictLatest).buf = s.buf := rfl
@[simp] theorem State.evictLatest_head (s : State) : (s.evictLatest).head = s.head := rfl
@[simp] theorem State.evictLatest_procTail (s : State) : (s.evictLatest).procTail = s.procTail := rfl
@[simp] theorem State.evictLatest_parseStart (s : State) : (s.evictLatest).parseStart = s.parseStart := rfl
@[simp] theorem State.evictLatest_desc (s : State) : (s.evictLatest).desc = s.desc := rfl
@[simp] theorem State.evictLatest_frameHead (s : State) : (s.evictLatest).frameHead = predMod s.cfg.k s.frameHead := rfl
@[simp] theorem State.evictLatest_frameTail (s : State) : (s.evictLatest).frameTail = s.frameTail := rfl
@[simp] theorem State.evictLatest_frameCount (s : State) : (s.evictLatest).frameCount = s.frameCount - 1 := rfl
@[simp] theorem State.evictLatest_arg0 (s : State) : (s.evictLatest).arg0 = s.arg0 := rfl
@[simp] theorem State.evictLatest_arg1 (s : State) : (s.evictLatest).arg1 = s.arg1 := rfl
@[simp] theorem State.evictLatest_arg2 (s : State) : (s.evictLatest).arg2 = s.arg2 := rfl
@[simp] theorem State.evictLatest_arg3 (s : State) : (s.evictLatest).arg3 = s.arg3 := rfl
@[simp] theorem State.evictLatest_result0 (s : State) : (s.evictLatest).result0 = s.result0 := rfl
@[simp] theorem State.evictLatest_result1 (s : State) : (s.evictLatest).result1 = s.result1 := rfl
@[simp] theorem State.evictLatest_code (s : State) : (s.evictLatest).code = s.code := rfl
@[simp] theorem State.evictLatest_phase (s : State) : (s.evictLatest).phase = s.phase := rfl
@[simp] theorem State.evictLatest_mem (s : State) : (s.evictLatest).mem = s.mem := rfl
@[simp] theorem State.evictLatest_schedule (s : State) : (s.evictLatest).schedule = s.schedule := rfl
@[simp] theorem State.evictLatest_environment (s : State) : (s.evictLatest).environment = s.environment := rfl
@[simp] theorem State.evictLatest_draws (s : State) : (s.evictLatest).draws = s.draws := rfl
@[simp] theorem State.evictLatest_hostData (s : State) : (s.evictLatest).hostData = s.hostData := rfl

/-! ### `appendDescriptor` -/

@[simp] theorem State.appendDescriptor_cfg (s : State) (d : Descriptor) : (s.appendDescriptor d).cfg = s.cfg := rfl
@[simp] theorem State.appendDescriptor_buf (s : State) (d : Descriptor) : (s.appendDescriptor d).buf = s.buf := rfl
@[simp] theorem State.appendDescriptor_head (s : State) (d : Descriptor) : (s.appendDescriptor d).head = s.head := rfl
@[simp] theorem State.appendDescriptor_procTail (s : State) (d : Descriptor) : (s.appendDescriptor d).procTail = s.procTail := rfl
@[simp] theorem State.appendDescriptor_parseStart (s : State) (d : Descriptor) : (s.appendDescriptor d).parseStart = s.parseStart := rfl
@[simp] theorem State.appendDescriptor_desc (s : State) (d : Descriptor) : (s.appendDescriptor d).desc = cellsWrite unlistedDescriptor s.desc s.frameHead d := rfl
@[simp] theorem State.appendDescriptor_frameHead (s : State) (d : Descriptor) : (s.appendDescriptor d).frameHead = succMod s.cfg.k s.frameHead := rfl
@[simp] theorem State.appendDescriptor_frameTail (s : State) (d : Descriptor) : (s.appendDescriptor d).frameTail = s.frameTail := rfl
@[simp] theorem State.appendDescriptor_frameCount (s : State) (d : Descriptor) : (s.appendDescriptor d).frameCount = s.frameCount + 1 := rfl
@[simp] theorem State.appendDescriptor_arg0 (s : State) (d : Descriptor) : (s.appendDescriptor d).arg0 = s.arg0 := rfl
@[simp] theorem State.appendDescriptor_arg1 (s : State) (d : Descriptor) : (s.appendDescriptor d).arg1 = s.arg1 := rfl
@[simp] theorem State.appendDescriptor_arg2 (s : State) (d : Descriptor) : (s.appendDescriptor d).arg2 = s.arg2 := rfl
@[simp] theorem State.appendDescriptor_arg3 (s : State) (d : Descriptor) : (s.appendDescriptor d).arg3 = s.arg3 := rfl
@[simp] theorem State.appendDescriptor_result0 (s : State) (d : Descriptor) : (s.appendDescriptor d).result0 = s.result0 := rfl
@[simp] theorem State.appendDescriptor_result1 (s : State) (d : Descriptor) : (s.appendDescriptor d).result1 = s.result1 := rfl
@[simp] theorem State.appendDescriptor_code (s : State) (d : Descriptor) : (s.appendDescriptor d).code = s.code := rfl
@[simp] theorem State.appendDescriptor_phase (s : State) (d : Descriptor) : (s.appendDescriptor d).phase = s.phase := rfl
@[simp] theorem State.appendDescriptor_mem (s : State) (d : Descriptor) : (s.appendDescriptor d).mem = s.mem := rfl
@[simp] theorem State.appendDescriptor_schedule (s : State) (d : Descriptor) : (s.appendDescriptor d).schedule = s.schedule := rfl
@[simp] theorem State.appendDescriptor_environment (s : State) (d : Descriptor) : (s.appendDescriptor d).environment = s.environment := rfl
@[simp] theorem State.appendDescriptor_draws (s : State) (d : Descriptor) : (s.appendDescriptor d).draws = s.draws := rfl
@[simp] theorem State.appendDescriptor_hostData (s : State) (d : Descriptor) : (s.appendDescriptor d).hostData = s.hostData := rfl

/-! ### `init` -/

@[simp] theorem State.init_cfg (c : Config) : (State.init c).cfg = c := rfl
@[simp] theorem State.init_buf (c : Config) : (State.init c).buf = [] := rfl
@[simp] theorem State.init_head (c : Config) : (State.init c).head = 0 := rfl
@[simp] theorem State.init_procTail (c : Config) : (State.init c).procTail = 0 := rfl
@[simp] theorem State.init_parseStart (c : Config) : (State.init c).parseStart = none := rfl
@[simp] theorem State.init_desc (c : Config) : (State.init c).desc = [] := rfl
@[simp] theorem State.init_frameHead (c : Config) : (State.init c).frameHead = 0 := rfl
@[simp] theorem State.init_frameTail (c : Config) : (State.init c).frameTail = 0 := rfl
@[simp] theorem State.init_frameCount (c : Config) : (State.init c).frameCount = 0 := rfl
@[simp] theorem State.init_arg0 (c : Config) : (State.init c).arg0 = 0#32 := rfl
@[simp] theorem State.init_arg1 (c : Config) : (State.init c).arg1 = 0#32 := rfl
@[simp] theorem State.init_arg2 (c : Config) : (State.init c).arg2 = 0#32 := rfl
@[simp] theorem State.init_arg3 (c : Config) : (State.init c).arg3 = 0#32 := rfl
@[simp] theorem State.init_result0 (c : Config) : (State.init c).result0 = 0#32 := rfl
@[simp] theorem State.init_result1 (c : Config) : (State.init c).result1 = 0#32 := rfl
@[simp] theorem State.init_code (c : Config) : (State.init c).code = .ok := rfl
@[simp] theorem State.init_phase (c : Config) : (State.init c).phase = .idle := rfl
@[simp] theorem State.init_mem (c : Config) : (State.init c).mem = [] := rfl
@[simp] theorem State.init_schedule (c : Config) : (State.init c).schedule = [] := rfl
@[simp] theorem State.init_environment (c : Config) : (State.init c).environment = .silent := rfl
@[simp] theorem State.init_draws (c : Config) : (State.init c).draws = 0 := rfl
@[simp] theorem State.init_hostData (c : Config) : (State.init c).hostData = 0#32 := rfl

end Sys2Proof.Machine
end

