-- ==== Sys2Proof/Laws/Steps.lean ====
section
/-! SUPPORT. What each shared operation over the rings can do, said once: pushes and pool steps leave everything outside
the rings alone; which of the rings' fields each one writes; the cases of the conditional ones. -/

namespace Sys2Proof.Machine

/-! ### Outside the rings -/

theorem SameOutsideRings.refl (s : State) : SameOutsideRings s s := rfl

theorem SameOutsideRings.trans {s t u : State} (h : SameOutsideRings s t) (h' : SameOutsideRings t u) : SameOutsideRings s u := by
  unfold SameOutsideRings at *
  rw [h'] at *
  rw [h]

theorem SameOutsideRings.cfg {s t : State} (h : SameOutsideRings s t) : t.cfg = s.cfg := by rw [h]
theorem SameOutsideRings.arg0 {s t : State} (h : SameOutsideRings s t) : t.arg0 = s.arg0 := by rw [h]
theorem SameOutsideRings.arg1 {s t : State} (h : SameOutsideRings s t) : t.arg1 = s.arg1 := by rw [h]
theorem SameOutsideRings.arg2 {s t : State} (h : SameOutsideRings s t) : t.arg2 = s.arg2 := by rw [h]
theorem SameOutsideRings.arg3 {s t : State} (h : SameOutsideRings s t) : t.arg3 = s.arg3 := by rw [h]
theorem SameOutsideRings.result0 {s t : State} (h : SameOutsideRings s t) : t.result0 = s.result0 := by rw [h]
theorem SameOutsideRings.result1 {s t : State} (h : SameOutsideRings s t) : t.result1 = s.result1 := by rw [h]
theorem SameOutsideRings.code {s t : State} (h : SameOutsideRings s t) : t.code = s.code := by rw [h]
theorem SameOutsideRings.phase {s t : State} (h : SameOutsideRings s t) : t.phase = s.phase := by rw [h]
theorem SameOutsideRings.mem {s t : State} (h : SameOutsideRings s t) : t.mem = s.mem := by rw [h]
theorem SameOutsideRings.schedule {s t : State} (h : SameOutsideRings s t) : t.schedule = s.schedule := by rw [h]
theorem SameOutsideRings.environment {s t : State} (h : SameOutsideRings s t) : t.environment = s.environment := by rw [h]
theorem SameOutsideRings.draws {s t : State} (h : SameOutsideRings s t) : t.draws = s.draws := by rw [h]
theorem SameOutsideRings.hostData {s t : State} (h : SameOutsideRings s t) : t.hostData = s.hostData := by rw [h]

theorem State.indexInsert_frame (s : State) (d : Descriptor) : SameOutsideRings s (s.indexInsert d) := by
  unfold State.indexInsert; split <;> rfl

theorem State.evictIfOverwritten_frame (s : State) (pos : Nat) : SameOutsideRings s (s.evictIfOverwritten pos) := by
  unfold State.evictIfOverwritten; split <;> rfl

theorem State.closeCandidate_frame (s : State) (p t : Nat) : SameOutsideRings s (s.closeCandidate p t) := by
  unfold State.closeCandidate
  split
  · rfl
  · split
    · exact s.indexInsert_frame _
    · rfl

theorem State.examine_frame (s : State) : SameOutsideRings s s.examine := by
  unfold State.examine
  split
  · rfl
  · split
    · split
      · exact (s.closeCandidate_frame _ _).trans rfl
      · rfl
    · rfl

/-- R25, R27, R30: a pool step writes nothing outside the rings. -/
theorem State.poolStep_frame (s : State) : SameOutsideRings s s.poolStep :=
  s.examine_frame.trans rfl

theorem State.drainLoop_frame (s : State) (fuel : Nat) : SameOutsideRings s (s.drainLoop fuel) := by
  induction fuel generalizing s with
  | zero => rfl
  | succ k ih =>
    unfold State.drainLoop
    split
    · rfl
    · exact s.poolStep_frame.trans (ih _)

theorem State.drain_frame (s : State) : SameOutsideRings s s.drain := s.drainLoop_frame _

theorem State.guardOverwrite_frame (s : State) : SameOutsideRings s s.guardOverwrite := by
  unfold State.guardOverwrite
  split
  · rfl
  · exact SameOutsideRings.trans (t := { s with parseStart := _ }) rfl (State.evictIfOverwritten_frame _ _)

theorem State.evictUnparsed_frame (s : State) : SameOutsideRings s s.evictUnparsed := by
  unfold State.evictUnparsed; split <;> rfl

theorem State.advanceHead_frame (s : State) : SameOutsideRings s s.advanceHead :=
  (s.evictIfOverwritten_frame _).trans rfl

theorem State.pushRaw_frame (s : State) (b : Byte) : SameOutsideRings s (s.pushRaw b) :=
  ((s.guardOverwrite_frame.trans (u := s.guardOverwrite.setBuf s.head b) rfl).trans
    (State.evictUnparsed_frame _)).trans (State.advanceHead_frame _)

/-- R145, R252: a push writes nothing outside the rings. -/
theorem State.push_frame (s : State) (b : Byte) : SameOutsideRings s (s.push b) := by
  unfold State.push
  split
  · exact (s.pushRaw_frame b).trans (State.drain_frame _)
  · exact s.pushRaw_frame b

theorem State.pushAll_frame (s : State) (bytes : List Byte) : SameOutsideRings s (s.pushAll bytes) := by
  induction bytes generalizing s with
  | nil => rfl
  | cons b rest ih => exact (s.push_frame b).trans (ih _)

/-! ### Fields `indexInsert` leaves alone -/

@[simp] theorem State.indexInsert_cfg (s : State) (d : Descriptor) : (s.indexInsert d).cfg = s.cfg := (s.indexInsert_frame d).cfg
@[simp] theorem State.indexInsert_arg0 (s : State) (d : Descriptor) : (s.indexInsert d).arg0 = s.arg0 := (s.indexInsert_frame d).arg0
@[simp] theorem State.indexInsert_arg1 (s : State) (d : Descriptor) : (s.indexInsert d).arg1 = s.arg1 := (s.indexInsert_frame d).arg1
@[simp] theorem State.indexInsert_arg2 (s : State) (d : Descriptor) : (s.indexInsert d).arg2 = s.arg2 := (s.indexInsert_frame d).arg2
@[simp] theorem State.indexInsert_arg3 (s : State) (d : Descriptor) : (s.indexInsert d).arg3 = s.arg3 := (s.indexInsert_frame d).arg3
@[simp] theorem State.indexInsert_result0 (s : State) (d : Descriptor) : (s.indexInsert d).result0 = s.result0 := (s.indexInsert_frame d).result0
@[simp] theorem State.indexInsert_result1 (s : State) (d : Descriptor) : (s.indexInsert d).result1 = s.result1 := (s.indexInsert_frame d).result1
@[simp] theorem State.indexInsert_code (s : State) (d : Descriptor) : (s.indexInsert d).code = s.code := (s.indexInsert_frame d).code
@[simp] theorem State.indexInsert_phase (s : State) (d : Descriptor) : (s.indexInsert d).phase = s.phase := (s.indexInsert_frame d).phase
@[simp] theorem State.indexInsert_mem (s : State) (d : Descriptor) : (s.indexInsert d).mem = s.mem := (s.indexInsert_frame d).mem
@[simp] theorem State.indexInsert_schedule (s : State) (d : Descriptor) : (s.indexInsert d).schedule = s.schedule := (s.indexInsert_frame d).schedule
@[simp] theorem State.indexInsert_environment (s : State) (d : Descriptor) : (s.indexInsert d).environment = s.environment := (s.indexInsert_frame d).environment
@[simp] theorem State.indexInsert_draws (s : State) (d : Descriptor) : (s.indexInsert d).draws = s.draws := (s.indexInsert_frame d).draws
@[simp] theorem State.indexInsert_hostData (s : State) (d : Descriptor) : (s.indexInsert d).hostData = s.hostData := (s.indexInsert_frame d).hostData

/-! ### Fields `evictIfOverwritten` leaves alone -/

@[simp] theorem State.evictIfOverwritten_cfg (s : State) (pos : Nat) : (s.evictIfOverwritten pos).cfg = s.cfg := (s.evictIfOverwritten_frame pos).cfg
@[simp] theorem State.evictIfOverwritten_arg0 (s : State) (pos : Nat) : (s.evictIfOverwritten pos).arg0 = s.arg0 := (s.evictIfOverwritten_frame pos).arg0
@[simp] theorem State.evictIfOverwritten_arg1 (s : State) (pos : Nat) : (s.evictIfOverwritten pos).arg1 = s.arg1 := (s.evictIfOverwritten_frame pos).arg1
@[simp] theorem State.evictIfOverwritten_arg2 (s : State) (pos : Nat) : (s.evictIfOverwritten pos).arg2 = s.arg2 := (s.evictIfOverwritten_frame pos).arg2
@[simp] theorem State.evictIfOverwritten_arg3 (s : State) (pos : Nat) : (s.evictIfOverwritten pos).arg3 = s.arg3 := (s.evictIfOverwritten_frame pos).arg3
@[simp] theorem State.evictIfOverwritten_result0 (s : State) (pos : Nat) : (s.evictIfOverwritten pos).result0 = s.result0 := (s.evictIfOverwritten_frame pos).result0
@[simp] theorem State.evictIfOverwritten_result1 (s : State) (pos : Nat) : (s.evictIfOverwritten pos).result1 = s.result1 := (s.evictIfOverwritten_frame pos).result1
@[simp] theorem State.evictIfOverwritten_code (s : State) (pos : Nat) : (s.evictIfOverwritten pos).code = s.code := (s.evictIfOverwritten_frame pos).code
@[simp] theorem State.evictIfOverwritten_phase (s : State) (pos : Nat) : (s.evictIfOverwritten pos).phase = s.phase := (s.evictIfOverwritten_frame pos).phase
@[simp] theorem State.evictIfOverwritten_mem (s : State) (pos : Nat) : (s.evictIfOverwritten pos).mem = s.mem := (s.evictIfOverwritten_frame pos).mem
@[simp] theorem State.evictIfOverwritten_schedule (s : State) (pos : Nat) : (s.evictIfOverwritten pos).schedule = s.schedule := (s.evictIfOverwritten_frame pos).schedule
@[simp] theorem State.evictIfOverwritten_environment (s : State) (pos : Nat) : (s.evictIfOverwritten pos).environment = s.environment := (s.evictIfOverwritten_frame pos).environment
@[simp] theorem State.evictIfOverwritten_draws (s : State) (pos : Nat) : (s.evictIfOverwritten pos).draws = s.draws := (s.evictIfOverwritten_frame pos).draws
@[simp] theorem State.evictIfOverwritten_hostData (s : State) (pos : Nat) : (s.evictIfOverwritten pos).hostData = s.hostData := (s.evictIfOverwritten_frame pos).hostData

/-! ### Fields `examine` leaves alone -/

@[simp] theorem State.examine_cfg (s : State) : (s.examine).cfg = s.cfg := (s.examine_frame).cfg
@[simp] theorem State.examine_arg0 (s : State) : (s.examine).arg0 = s.arg0 := (s.examine_frame).arg0
@[simp] theorem State.examine_arg1 (s : State) : (s.examine).arg1 = s.arg1 := (s.examine_frame).arg1
@[simp] theorem State.examine_arg2 (s : State) : (s.examine).arg2 = s.arg2 := (s.examine_frame).arg2
@[simp] theorem State.examine_arg3 (s : State) : (s.examine).arg3 = s.arg3 := (s.examine_frame).arg3
@[simp] theorem State.examine_result0 (s : State) : (s.examine).result0 = s.result0 := (s.examine_frame).result0
@[simp] theorem State.examine_result1 (s : State) : (s.examine).result1 = s.result1 := (s.examine_frame).result1
@[simp] theorem State.examine_code (s : State) : (s.examine).code = s.code := (s.examine_frame).code
@[simp] theorem State.examine_phase (s : State) : (s.examine).phase = s.phase := (s.examine_frame).phase
@[simp] theorem State.examine_mem (s : State) : (s.examine).mem = s.mem := (s.examine_frame).mem
@[simp] theorem State.examine_schedule (s : State) : (s.examine).schedule = s.schedule := (s.examine_frame).schedule
@[simp] theorem State.examine_environment (s : State) : (s.examine).environment = s.environment := (s.examine_frame).environment
@[simp] theorem State.examine_draws (s : State) : (s.examine).draws = s.draws := (s.examine_frame).draws
@[simp] theorem State.examine_hostData (s : State) : (s.examine).hostData = s.hostData := (s.examine_frame).hostData

/-! ### Fields `poolStep` leaves alone -/

@[simp] theorem State.poolStep_cfg (s : State) : (s.poolStep).cfg = s.cfg := (s.poolStep_frame).cfg
@[simp] theorem State.poolStep_arg0 (s : State) : (s.poolStep).arg0 = s.arg0 := (s.poolStep_frame).arg0
@[simp] theorem State.poolStep_arg1 (s : State) : (s.poolStep).arg1 = s.arg1 := (s.poolStep_frame).arg1
@[simp] theorem State.poolStep_arg2 (s : State) : (s.poolStep).arg2 = s.arg2 := (s.poolStep_frame).arg2
@[simp] theorem State.poolStep_arg3 (s : State) : (s.poolStep).arg3 = s.arg3 := (s.poolStep_frame).arg3
@[simp] theorem State.poolStep_result0 (s : State) : (s.poolStep).result0 = s.result0 := (s.poolStep_frame).result0
@[simp] theorem State.poolStep_result1 (s : State) : (s.poolStep).result1 = s.result1 := (s.poolStep_frame).result1
@[simp] theorem State.poolStep_code (s : State) : (s.poolStep).code = s.code := (s.poolStep_frame).code
@[simp] theorem State.poolStep_phase (s : State) : (s.poolStep).phase = s.phase := (s.poolStep_frame).phase
@[simp] theorem State.poolStep_mem (s : State) : (s.poolStep).mem = s.mem := (s.poolStep_frame).mem
@[simp] theorem State.poolStep_schedule (s : State) : (s.poolStep).schedule = s.schedule := (s.poolStep_frame).schedule
@[simp] theorem State.poolStep_environment (s : State) : (s.poolStep).environment = s.environment := (s.poolStep_frame).environment
@[simp] theorem State.poolStep_draws (s : State) : (s.poolStep).draws = s.draws := (s.poolStep_frame).draws
@[simp] theorem State.poolStep_hostData (s : State) : (s.poolStep).hostData = s.hostData := (s.poolStep_frame).hostData

/-! ### Fields `drain` leaves alone -/

@[simp] theorem State.drain_cfg (s : State) : (s.drain).cfg = s.cfg := (s.drain_frame).cfg
@[simp] theorem State.drain_arg0 (s : State) : (s.drain).arg0 = s.arg0 := (s.drain_frame).arg0
@[simp] theorem State.drain_arg1 (s : State) : (s.drain).arg1 = s.arg1 := (s.drain_frame).arg1
@[simp] theorem State.drain_arg2 (s : State) : (s.drain).arg2 = s.arg2 := (s.drain_frame).arg2
@[simp] theorem State.drain_arg3 (s : State) : (s.drain).arg3 = s.arg3 := (s.drain_frame).arg3
@[simp] theorem State.drain_result0 (s : State) : (s.drain).result0 = s.result0 := (s.drain_frame).result0
@[simp] theorem State.drain_result1 (s : State) : (s.drain).result1 = s.result1 := (s.drain_frame).result1
@[simp] theorem State.drain_code (s : State) : (s.drain).code = s.code := (s.drain_frame).code
@[simp] theorem State.drain_phase (s : State) : (s.drain).phase = s.phase := (s.drain_frame).phase
@[simp] theorem State.drain_mem (s : State) : (s.drain).mem = s.mem := (s.drain_frame).mem
@[simp] theorem State.drain_schedule (s : State) : (s.drain).schedule = s.schedule := (s.drain_frame).schedule
@[simp] theorem State.drain_environment (s : State) : (s.drain).environment = s.environment := (s.drain_frame).environment
@[simp] theorem State.drain_draws (s : State) : (s.drain).draws = s.draws := (s.drain_frame).draws
@[simp] theorem State.drain_hostData (s : State) : (s.drain).hostData = s.hostData := (s.drain_frame).hostData

/-! ### Fields `pushRaw` leaves alone -/

@[simp] theorem State.pushRaw_cfg (s : State) (b : Byte) : (s.pushRaw b).cfg = s.cfg := (s.pushRaw_frame b).cfg
@[simp] theorem State.pushRaw_arg0 (s : State) (b : Byte) : (s.pushRaw b).arg0 = s.arg0 := (s.pushRaw_frame b).arg0
@[simp] theorem State.pushRaw_arg1 (s : State) (b : Byte) : (s.pushRaw b).arg1 = s.arg1 := (s.pushRaw_frame b).arg1
@[simp] theorem State.pushRaw_arg2 (s : State) (b : Byte) : (s.pushRaw b).arg2 = s.arg2 := (s.pushRaw_frame b).arg2
@[simp] theorem State.pushRaw_arg3 (s : State) (b : Byte) : (s.pushRaw b).arg3 = s.arg3 := (s.pushRaw_frame b).arg3
@[simp] theorem State.pushRaw_result0 (s : State) (b : Byte) : (s.pushRaw b).result0 = s.result0 := (s.pushRaw_frame b).result0
@[simp] theorem State.pushRaw_result1 (s : State) (b : Byte) : (s.pushRaw b).result1 = s.result1 := (s.pushRaw_frame b).result1
@[simp] theorem State.pushRaw_code (s : State) (b : Byte) : (s.pushRaw b).code = s.code := (s.pushRaw_frame b).code
@[simp] theorem State.pushRaw_phase (s : State) (b : Byte) : (s.pushRaw b).phase = s.phase := (s.pushRaw_frame b).phase
@[simp] theorem State.pushRaw_mem (s : State) (b : Byte) : (s.pushRaw b).mem = s.mem := (s.pushRaw_frame b).mem
@[simp] theorem State.pushRaw_schedule (s : State) (b : Byte) : (s.pushRaw b).schedule = s.schedule := (s.pushRaw_frame b).schedule
@[simp] theorem State.pushRaw_environment (s : State) (b : Byte) : (s.pushRaw b).environment = s.environment := (s.pushRaw_frame b).environment
@[simp] theorem State.pushRaw_draws (s : State) (b : Byte) : (s.pushRaw b).draws = s.draws := (s.pushRaw_frame b).draws
@[simp] theorem State.pushRaw_hostData (s : State) (b : Byte) : (s.pushRaw b).hostData = s.hostData := (s.pushRaw_frame b).hostData

/-! ### Fields `push` leaves alone -/

@[simp] theorem State.push_cfg (s : State) (b : Byte) : (s.push b).cfg = s.cfg := (s.push_frame b).cfg
@[simp] theorem State.push_arg0 (s : State) (b : Byte) : (s.push b).arg0 = s.arg0 := (s.push_frame b).arg0
@[simp] theorem State.push_arg1 (s : State) (b : Byte) : (s.push b).arg1 = s.arg1 := (s.push_frame b).arg1
@[simp] theorem State.push_arg2 (s : State) (b : Byte) : (s.push b).arg2 = s.arg2 := (s.push_frame b).arg2
@[simp] theorem State.push_arg3 (s : State) (b : Byte) : (s.push b).arg3 = s.arg3 := (s.push_frame b).arg3
@[simp] theorem State.push_result0 (s : State) (b : Byte) : (s.push b).result0 = s.result0 := (s.push_frame b).result0
@[simp] theorem State.push_result1 (s : State) (b : Byte) : (s.push b).result1 = s.result1 := (s.push_frame b).result1
@[simp] theorem State.push_code (s : State) (b : Byte) : (s.push b).code = s.code := (s.push_frame b).code
@[simp] theorem State.push_phase (s : State) (b : Byte) : (s.push b).phase = s.phase := (s.push_frame b).phase
@[simp] theorem State.push_mem (s : State) (b : Byte) : (s.push b).mem = s.mem := (s.push_frame b).mem
@[simp] theorem State.push_schedule (s : State) (b : Byte) : (s.push b).schedule = s.schedule := (s.push_frame b).schedule
@[simp] theorem State.push_environment (s : State) (b : Byte) : (s.push b).environment = s.environment := (s.push_frame b).environment
@[simp] theorem State.push_draws (s : State) (b : Byte) : (s.push b).draws = s.draws := (s.push_frame b).draws
@[simp] theorem State.push_hostData (s : State) (b : Byte) : (s.push b).hostData = s.hostData := (s.push_frame b).hostData

/-! ### Inside the rings -/

/-- R143: the two cases of the overwrite check. -/
theorem State.evictIfOverwritten_cases (s : State) (pos : Nat) :
    (0 < s.frameCount ∧ s.oldest.startPos = pos ∧ s.evictIfOverwritten pos = s.evictOldest) ∨
    (¬ (0 < s.frameCount ∧ s.oldest.startPos = pos) ∧ s.evictIfOverwritten pos = s) := by
  unfold State.evictIfOverwritten
  split
  · exact .inl ⟨by tauto, by tauto, rfl⟩
  · exact .inr ⟨by assumption, rfl⟩

/-- R32: the two cases of an insertion. -/
theorem State.indexInsert_cases (s : State) (d : Descriptor) :
    (s.frameCount = s.cfg.k ∧ s.indexInsert d = s.evictOldest.appendDescriptor d) ∨
    (s.frameCount ≠ s.cfg.k ∧ s.indexInsert d = s.appendDescriptor d) := by
  unfold State.indexInsert
  split
  · exact .inl ⟨by assumption, rfl⟩
  · exact .inr ⟨by assumption, rfl⟩

/-- R162, R165: a candidate that closes inserts its descriptor when it is valid, and else changes nothing. -/
theorem State.closeCandidate_cases (s : State) (p t : Nat) :
    (∃ u, unstuff s.cfg (s.ringSpan (succMod s.cfg.n p) t) = some u ∧ spanValid s.cfg u = true ∧
      s.closeCandidate p t = s.indexInsert ⟨u.headD 0#8, p⟩) ∨ s.closeCandidate p t = s := by
  unfold State.closeCandidate
  split
  · exact .inr rfl
  · split
    · exact .inl ⟨_, by assumption, by assumption, rfl⟩
    · exact .inr rfl

/-- R161, R162, R166: the branches of a pool step. -/
theorem State.examine_cases (s : State) :
    (s.bufAt s.procTail = s.cfg.header ∧ s.examine = { s with parseStart := some s.procTail }) ∨
    (∃ p, s.bufAt s.procTail ≠ s.cfg.header ∧ s.bufAt s.procTail = s.cfg.trailer ∧ s.parseStart = some p ∧
      s.examine = { s.closeCandidate p s.procTail with parseStart := none }) ∨
    (s.bufAt s.procTail ≠ s.cfg.header ∧ (s.bufAt s.procTail ≠ s.cfg.trailer ∨ s.parseStart = none) ∧
      s.examine = s) := by
  unfold State.examine
  split
  · exact .inl ⟨by assumption, rfl⟩
  · split
    · split
      · exact .inr (.inl ⟨_, by assumption, by assumption, by assumption, rfl⟩)
      · exact .inr (.inr ⟨by assumption, .inr (by assumption), rfl⟩)
    · exact .inr (.inr ⟨by assumption, .inl (by assumption), rfl⟩)

@[simp] theorem State.indexInsert_buf (s : State) (d : Descriptor) : (s.indexInsert d).buf = s.buf := by
  rcases s.indexInsert_cases d with ⟨_, h⟩ | ⟨_, h⟩ <;> simp [h]

@[simp] theorem State.indexInsert_head (s : State) (d : Descriptor) : (s.indexInsert d).head = s.head := by
  rcases s.indexInsert_cases d with ⟨_, h⟩ | ⟨_, h⟩ <;> simp [h]

@[simp] theorem State.indexInsert_procTail (s : State) (d : Descriptor) : (s.indexInsert d).procTail = s.procTail := by
  rcases s.indexInsert_cases d with ⟨_, h⟩ | ⟨_, h⟩ <;> simp [h]

@[simp] theorem State.indexInsert_parseStart (s : State) (d : Descriptor) :
    (s.indexInsert d).parseStart = s.parseStart := by
  rcases s.indexInsert_cases d with ⟨_, h⟩ | ⟨_, h⟩ <;> simp [h]

@[simp] theorem State.evictIfOverwritten_buf (s : State) (pos : Nat) : (s.evictIfOverwritten pos).buf = s.buf := by
  rcases s.evictIfOverwritten_cases pos with ⟨_, _, h⟩ | ⟨_, h⟩ <;> simp [h]

@[simp] theorem State.evictIfOverwritten_head (s : State) (pos : Nat) : (s.evictIfOverwritten pos).head = s.head := by
  rcases s.evictIfOverwritten_cases pos with ⟨_, _, h⟩ | ⟨_, h⟩ <;> simp [h]

@[simp] theorem State.evictIfOverwritten_procTail (s : State) (pos : Nat) :
    (s.evictIfOverwritten pos).procTail = s.procTail := by
  rcases s.evictIfOverwritten_cases pos with ⟨_, _, h⟩ | ⟨_, h⟩ <;> simp [h]

@[simp] theorem State.evictIfOverwritten_parseStart (s : State) (pos : Nat) :
    (s.evictIfOverwritten pos).parseStart = s.parseStart := by
  rcases s.evictIfOverwritten_cases pos with ⟨_, _, h⟩ | ⟨_, h⟩ <;> simp [h]

@[simp] theorem State.evictIfOverwritten_desc (s : State) (pos : Nat) : (s.evictIfOverwritten pos).desc = s.desc := by
  rcases s.evictIfOverwritten_cases pos with ⟨_, _, h⟩ | ⟨_, h⟩ <;> simp [h]

@[simp] theorem State.closeCandidate_cfg (s : State) (p t : Nat) : (s.closeCandidate p t).cfg = s.cfg :=
  (s.closeCandidate_frame p t).cfg

@[simp] theorem State.closeCandidate_buf (s : State) (p t : Nat) : (s.closeCandidate p t).buf = s.buf := by
  rcases s.closeCandidate_cases p t with ⟨u, _, _, h⟩ | h <;> simp [h]

@[simp] theorem State.closeCandidate_head (s : State) (p t : Nat) : (s.closeCandidate p t).head = s.head := by
  rcases s.closeCandidate_cases p t with ⟨u, _, _, h⟩ | h <;> simp [h]

@[simp] theorem State.closeCandidate_procTail (s : State) (p t : Nat) :
    (s.closeCandidate p t).procTail = s.procTail := by
  rcases s.closeCandidate_cases p t with ⟨u, _, _, h⟩ | h <;> simp [h]

@[simp] theorem State.examine_buf (s : State) : s.examine.buf = s.buf := by
  rcases s.examine_cases with ⟨_, h⟩ | ⟨p, _, _, _, h⟩ | ⟨_, _, h⟩ <;> simp [h]

@[simp] theorem State.examine_head (s : State) : s.examine.head = s.head := by
  rcases s.examine_cases with ⟨_, h⟩ | ⟨p, _, _, _, h⟩ | ⟨_, _, h⟩ <;> simp [h]

@[simp] theorem State.examine_procTail (s : State) : s.examine.procTail = s.procTail := by
  rcases s.examine_cases with ⟨_, h⟩ | ⟨p, _, _, _, h⟩ | ⟨_, _, h⟩ <;> simp [h]

/-- R23: a pool step only reads the Byte Stream Buffer. -/
@[simp] theorem State.poolStep_buf (s : State) : s.poolStep.buf = s.buf := s.examine_buf

/-- R24: a pool step does not move `head`. -/
@[simp] theorem State.poolStep_head (s : State) : s.poolStep.head = s.head := s.examine_head

/-- R160: a pool step advances `procTail` by one, whatever the byte. -/
@[simp] theorem State.poolStep_procTail (s : State) : s.poolStep.procTail = succMod s.cfg.n s.procTail := rfl

@[simp] theorem State.drainLoop_buf (s : State) (fuel : Nat) : (s.drainLoop fuel).buf = s.buf := by
  induction fuel generalizing s with
  | zero => rfl
  | succ k ih => unfold State.drainLoop; split <;> simp [ih]

@[simp] theorem State.drainLoop_head (s : State) (fuel : Nat) : (s.drainLoop fuel).head = s.head := by
  induction fuel generalizing s with
  | zero => rfl
  | succ k ih => unfold State.drainLoop; split <;> simp [ih]

@[simp] theorem State.drain_buf (s : State) : s.drain.buf = s.buf := s.drainLoop_buf _

@[simp] theorem State.drain_head (s : State) : s.drain.head = s.head := s.drainLoop_head _

@[simp] theorem State.guardOverwrite_cfg (s : State) : s.guardOverwrite.cfg = s.cfg := s.guardOverwrite_frame.cfg

@[simp] theorem State.guardOverwrite_buf (s : State) : s.guardOverwrite.buf = s.buf := by
  unfold State.guardOverwrite; split <;> simp

@[simp] theorem State.guardOverwrite_head (s : State) : s.guardOverwrite.head = s.head := by
  unfold State.guardOverwrite; split <;> simp

@[simp] theorem State.guardOverwrite_procTail (s : State) : s.guardOverwrite.procTail = s.procTail := by
  unfold State.guardOverwrite; split <;> simp

@[simp] theorem State.evictUnparsed_cfg (s : State) : s.evictUnparsed.cfg = s.cfg := s.evictUnparsed_frame.cfg

@[simp] theorem State.evictUnparsed_buf (s : State) : s.evictUnparsed.buf = s.buf := by
  unfold State.evictUnparsed; split <;> rfl

@[simp] theorem State.evictUnparsed_head (s : State) : s.evictUnparsed.head = s.head := by
  unfold State.evictUnparsed; split <;> rfl

theorem State.evictUnparsed_procTail (s : State) : s.evictUnparsed.procTail =
    if succMod s.cfg.n s.head = s.procTail then succMod s.cfg.n s.procTail else s.procTail := by
  unfold State.evictUnparsed; split <;> rfl

/-- R140 step 3: the one position a push writes. -/
@[simp] theorem State.pushRaw_buf (s : State) (b : Byte) :
    (s.pushRaw b).buf = cellsWrite unlistedByte s.buf s.head b := by
  simp [State.pushRaw, State.advanceHead]

/-- R140 steps 4 and 7: a push advances `head` by one. -/
@[simp] theorem State.pushRaw_head (s : State) (b : Byte) : (s.pushRaw b).head = succMod s.cfg.n s.head := by
  simp [State.pushRaw, State.advanceHead]

/-- R140 step 5: a push moves `procTail` only when `head` catches up with it. -/
theorem State.pushRaw_procTail (s : State) (b : Byte) : (s.pushRaw b).procTail =
    if succMod s.cfg.n s.head = s.procTail then succMod s.cfg.n s.procTail else s.procTail := by
  simp [State.pushRaw, State.advanceHead, State.evictUnparsed_procTail]

end Sys2Proof.Machine
end

