-- ==== Sys2Proof/Laws/Meanings.lean ====
section
/-! SUPPORT. What each shared operation behind the commands can do, said once: its cases in the order of the rules'
checks (R241). -/

namespace Sys2Proof.Machine

/-- R123: the five outcomes of ENCODE. -/
theorem encodeChecked_cases (src n dst cap : Word) (s : State) :
    ((src = 0#32 ∨ dst = 0#32) ∧ encodeChecked src n dst cap s = s.complete .nullArgument) ∨
    (src ≠ 0#32 ∧ dst ≠ 0#32 ∧ s32 n ≤ 0 ∧ encodeChecked src n dst cap s = s.complete .invalidArgument) ∨
    (src ≠ 0#32 ∧ dst ≠ 0#32 ∧ 0 < s32 n ∧ s32 cap < worstCase (s32 n) ∧
      encodeChecked src n dst cap s = s.complete .full) ∨
    (src ≠ 0#32 ∧ dst ≠ 0#32 ∧ 0 < s32 n ∧ worstCase (s32 n) ≤ s32 cap ∧
      encodeChecked src n dst cap s = s.complete .generic) ∨
    (src ≠ 0#32 ∧ dst ≠ 0#32 ∧ 0 < s32 n ∧ worstCase (s32 n) ≤ s32 cap ∧
      memAdmit s.cfg src.toNat (s32 n).toNat = true ∧
      ∃ out, out = encodeFrame s.cfg (memReadBytes s.mem src.toNat (s32 n).toNat) ∧
        memAdmit s.cfg dst.toNat out.length = true ∧
        encodeChecked src n dst cap s =
          State.complete { s with mem := memWriteBytes s.mem dst.toNat out, result0 := wordOfNat out.length } .ok) := by
  unfold encodeChecked encodeAdmitted
  split
  · exact .inl ⟨by assumption, rfl⟩
  · rename_i h0
    rw [not_or] at h0
    split
    · exact .inr (.inl ⟨h0.1, h0.2, by assumption, rfl⟩)
    · split
      · exact .inr (.inr (.inl ⟨h0.1, h0.2, by omega, by assumption, rfl⟩))
      · split
        · dsimp only
          split
          · exact .inr (.inr (.inr (.inr ⟨h0.1, h0.2, by omega, by omega, by assumption, _, rfl, by assumption, rfl⟩)))
          · exact .inr (.inr (.inr (.inl ⟨h0.1, h0.2, by omega, by omega, rfl⟩)))
        · exact .inr (.inr (.inr (.inl ⟨h0.1, h0.2, by omega, by omega, rfl⟩)))

/-- R146: the first step of PUSH_BYTES completes, or enters PUSHING with an admitted region. -/
theorem pushBytesFirst_cases (src n : Word) (s : State) :
    ((src = 0#32 ∨ s32 n ≤ 0) ∧ pushBytesFirst src n s = s.complete .ok) ∨
    (src ≠ 0#32 ∧ 0 < s32 n ∧ memAdmit s.cfg src.toNat (s32 n).toNat = true ∧
      pushBytesFirst src n s = { s with phase := .pushing src 0 (s32 n).toNat }) ∨
    (src ≠ 0#32 ∧ 0 < s32 n ∧ memAdmit s.cfg src.toNat (s32 n).toNat = false ∧
      pushBytesFirst src n s = s.complete .generic) := by
  unfold pushBytesFirst
  split
  · exact .inl ⟨by assumption, rfl⟩
  · rename_i h0
    rw [not_or] at h0
    split
    · exact .inr (.inl ⟨h0.1, by omega, by assumption, rfl⟩)
    · exact .inr (.inr ⟨h0.1, by omega, by simp_all, rfl⟩)

/-- R205: the outcomes of a delivery. -/
theorem deliver_cases (op : Getter) (dst cap : Word) (s : State) :
    (s.extract (s.selected op).startPos = none ∧ deliver op dst cap s = s.complete .generic) ∨
    (∃ f, s.extract (s.selected op).startPos = some f ∧ s32 cap < (f.payload.length : Int) ∧
      deliver op dst cap s = s.complete .full) ∨
    (∃ f, s.extract (s.selected op).startPos = some f ∧ (f.payload.length : Int) ≤ s32 cap ∧
      memAdmit s.cfg dst.toNat f.payload.length = false ∧ deliver op dst cap s = s.complete .generic) ∨
    (∃ f, s.extract (s.selected op).startPos = some f ∧ (f.payload.length : Int) ≤ s32 cap ∧
      memAdmit s.cfg dst.toNat f.payload.length = true ∧
      deliver op dst cap s = ((s.handOver op dst.toNat f).evictSelected op).complete .ok) := by
  unfold deliver
  split
  · exact .inl ⟨by assumption, rfl⟩
  · split
    · exact .inr (.inl ⟨_, by assumption, by assumption, rfl⟩)
    · split
      · exact .inr (.inr (.inr ⟨_, by assumption, by omega, by assumption, rfl⟩))
      · exact .inr (.inr (.inl ⟨_, by assumption, by omega, by simp_all, rfl⟩))

/-- R204: the outcomes of a getter's first step. -/
theorem getterFirst_cases (op : Getter) (dst cap tmo : Word) (s : State) :
    (dst = 0#32 ∧ getterFirst op dst cap tmo s = s.complete .nullArgument) ∨
    (dst ≠ 0#32 ∧ s32 cap ≤ 0 ∧ getterFirst op dst cap tmo s = s.complete .invalidArgument) ∨
    (dst ≠ 0#32 ∧ 0 < s32 cap ∧ 0 < s.frameCount ∧ getterFirst op dst cap tmo s = deliver op dst cap s) ∨
    (dst ≠ 0#32 ∧ 0 < s32 cap ∧ s.frameCount = 0 ∧ effectiveTimeout tmo = 0 ∧
      getterFirst op dst cap tmo s = s.complete .timeout) ∨
    (dst ≠ 0#32 ∧ 0 < s32 cap ∧ s.frameCount = 0 ∧ 0 < effectiveTimeout tmo ∧
      getterFirst op dst cap tmo s = { s with phase := .waiting op dst cap (effectiveTimeout tmo) }) := by
  unfold getterFirst
  split
  · exact .inl ⟨by assumption, rfl⟩
  · split
    · exact .inr (.inl ⟨by assumption, by assumption, rfl⟩)
    · split
      · exact .inr (.inr (.inl ⟨by assumption, by omega, by assumption, rfl⟩))
      · split
        · exact .inr (.inr (.inr (.inl ⟨by assumption, by omega, by omega, by assumption, rfl⟩)))
        · exact .inr (.inr (.inr (.inr ⟨by assumption, by omega, by omega, by omega, rfl⟩)))

/-- R212: the outcomes of a wait step. -/
theorem waitStep_cases (op : Getter) (dst cap : Word) (t : Nat) (s : State) :
    (0 < s.frameCount ∧ waitStep op dst cap t s = deliver op dst cap { s with draws := s.draws + 1 }) ∨
    (s.frameCount = 0 ∧ Config.clockExpired s.draws t = true ∧
      waitStep op dst cap t s = State.complete { s with draws := s.draws + 1 } .timeout) ∨
    (s.frameCount = 0 ∧ Config.clockExpired s.draws t = false ∧
      waitStep op dst cap t s = { s with draws := s.draws + 1 }) := by
  unfold waitStep
  dsimp only
  split
  · exact .inl ⟨by assumption, rfl⟩
  · split
    · exact .inr (.inl ⟨by omega, by assumption, rfl⟩)
    · exact .inr (.inr ⟨by omega, by simp_all, rfl⟩)

/-- A getter's step is a check of its own wait, or its first step with the operands latched. -/
theorem getterStep_cases (op : Getter) (s : State) :
    (∃ dst cap t, s.phase = .waiting op dst cap t ∧ getterStep op s = waitStep op dst cap t s) ∨
    ((∀ dst cap t, s.phase ≠ .waiting op dst cap t) ∧
      getterStep op s = getterFirst op s.operands.a0 s.operands.a1 s.operands.a2 s) := by
  unfold getterStep
  split
  · rename_i op' dst cap t h
    split
    · rename_i heq
      subst heq
      exact .inl ⟨dst, cap, t, h, rfl⟩
    · rename_i hne
      refine .inr ⟨?_, rfl⟩
      intro d c u hc
      rw [h] at hc
      exact hne (by injection hc)
  · rename_i h
    exact .inr ⟨fun d c t => h op d c t, rfl⟩

/-- The five getters are one operation (R208 to R210, R215, R216). -/
theorem exec_getter (op : Getter) (s : State) : exec op.instr s = .next (getterStep op s) := by
  cases op <;> rfl

end Sys2Proof.Machine
end

