-- ==== Sys2Proof/Laws/PerInstr.lean ====
section
/-! SUPPORT. Per-instruction statements about the encoding (LAWS.json): every encoded word fits its row of
spec/opcode_table.json. -/

namespace Sys2Proof.Laws

/-- The `mask` of an instruction's row in spec/opcode_table.json. -/
def rowMask (i : Instr) : Word :=
  match i with
  | .crcUpdate _ _ => 0xFFFE00FF#32
  | .encode => 0xFFFFFFFF#32
  | .pushBytes => 0xFFFFFFFF#32
  | .pool => 0xFFFFFFFF#32
  | .hasNewFrame => 0xFFFFFFFF#32
  | .countFrame => 0xFFFFFFFF#32
  | .getOldest => 0xFFFFFFFF#32
  | .getLatest => 0xFFFFFFFF#32
  | .removeOldest => 0xFFFFFFFF#32
  | .removeLatest => 0xFFFFFFFF#32
  | .getDataByte => 0xFFFFFFFF#32
  | .pushByte _ _ => 0x00000000#32

/-- The `match` of an instruction's row in spec/opcode_table.json. -/
def rowMatch (i : Instr) : Word :=
  match i with
  | .crcUpdate _ _ => 0x00000001#32
  | .encode => 0x00000002#32
  | .pushBytes => 0x00000003#32
  | .pool => 0x00000004#32
  | .hasNewFrame => 0x00000005#32
  | .countFrame => 0x00000006#32
  | .getOldest => 0x00000007#32
  | .getLatest => 0x00000008#32
  | .removeOldest => 0x00000009#32
  | .removeLatest => 0x0000000A#32
  | .getDataByte => 0x0000000B#32
  | .pushByte _ _ => 0x00000000#32

/-- The encoded word of an instruction has the fixed bits of its table row. -/
def FitsTableRow.Statement (i : Instr) : Prop := (encode i).2 &&& rowMask i = rowMatch i

theorem FitsTableRow.crcUpdate (byte : Byte) (seed : Bool) : FitsTableRow.Statement (.crcUpdate byte seed) := by
  revert byte seed
  unfold FitsTableRow.Statement
  decide

theorem FitsTableRow.encode : FitsTableRow.Statement .encode := rfl
theorem FitsTableRow.pushBytes : FitsTableRow.Statement .pushBytes := rfl
theorem FitsTableRow.pool : FitsTableRow.Statement .pool := rfl
theorem FitsTableRow.hasNewFrame : FitsTableRow.Statement .hasNewFrame := rfl
theorem FitsTableRow.countFrame : FitsTableRow.Statement .countFrame := rfl
theorem FitsTableRow.getOldest : FitsTableRow.Statement .getOldest := rfl
theorem FitsTableRow.getLatest : FitsTableRow.Statement .getLatest := rfl
theorem FitsTableRow.removeOldest : FitsTableRow.Statement .removeOldest := rfl
theorem FitsTableRow.removeLatest : FitsTableRow.Statement .removeLatest := rfl
theorem FitsTableRow.getDataByte : FitsTableRow.Statement .getDataByte := rfl

theorem FitsTableRow.pushByte (data : Byte) (ignored : BitVec 24) : FitsTableRow.Statement (.pushByte data ignored) :=
  BitVec.and_zero

end Sys2Proof.Laws
end

