-- ==== Sys2Proof/Laws/Runs.lean ====
section
/-! SUPPORT. What a turn and a run can do: the step that takes a given turn, the free moves, and which turns touch the
phase. -/

namespace Sys2Proof.Machine

/-- A step answers a next state only in a well-formed configuration (R7). -/
theorem wf_of_step {s t : State} (h : step s = .next t) : s.cfg.wf = true := by
  unfold step at h
  split at h
  · assumption
  · cases h

theorem step_giveTurn {s : State} (t : Turn) (h : s.cfg.wf = true) :
    step (s.giveTurn t) = runTurn t { s with schedule := [] } := by
  simp [step, State.giveTurn, h]

theorem IsRun.wf {turns : Nat → Turn} {states : Nat → State} (h : IsRun turns states) (k : Nat) :
    (states k).cfg.wf = true :=
  wf_of_step (s := (states k).giveTurn (turns k)) (h k)

/-- One moment of a run: the turn's own step. -/
theorem IsRun.next {turns : Nat → Turn} {states : Nat → State} (h : IsRun turns states) (k : Nat) :
    runTurn (turns k) { states k with schedule := [] } = .next (states (k + 1)) := by
  rw [← step_giveTurn _ (h.wf k)]
  exact h k

/-- A later part of a run is a run. -/
theorem IsRun.drop {turns : Nat → Turn} {states : Nat → State} (h : IsRun turns states) (m : Nat) :
    IsRun (fun k => turns (m + k)) (fun k => states (m + k)) := fun k => h (m + k)

theorem freeRun_silent {s : State} (h : s.environment = .silent) : freeRun s = ownTurn s := by
  simp [freeRun, h]

theorem freeRun_outside {s : State} {t : Turn} (h : s.environment = .free) (ht : Config.outsideTurn s.draws = some t) :
    freeRun s = runTurn t { s with draws := s.draws + 1 } := by
  simp [freeRun, h, ht]

theorem freeRun_own {s : State} (h : s.environment = .free) (ht : Config.outsideTurn s.draws = none) :
    freeRun s = ownTurn { s with draws := s.draws + 1 } := by
  simp [freeRun, h, ht]

/-- R45: outside IDLE a CMD write changes nothing. -/
theorem State.issue_of_busy {s : State} (w : Word) (h : s.phase ≠ .idle) : s.issue w = s := by
  unfold State.issue
  split
  · rename_i hp
    exact absurd hp h
  all_goals rfl

/-- R45, R145: outside IDLE no host write changes the phase. -/
theorem windowWrite_phase {s u : State} {offset : Nat} {width : AccessWidth} {v : Word} (hs : s.phase ≠ .idle)
    (h : windowWrite offset width v s = .next u) : u.phase = s.phase := by
  unfold windowWrite at h
  split at h
  · rename_i r _
    cases r <;> injection h with h <;> rw [← h]
    · rw [State.issue_of_busy _ hs]
    · exact State.push_phase s _
  · injection h with h
    rw [← h]

/-- A command in progress moves on, or ends, only at the consumer sequencer's own turn or at a reset (R44, R213). -/
theorem runTurn_phase {s u : State} {t : Turn} (hc : t ≠ .consumer) (hr : t ≠ .reset) (hs : s.phase ≠ .idle)
    (h : runTurn t s = .next u) : u.phase = s.phase := by
  cases t with
  | consumer => exact absurd rfl hc
  | reset => exact absurd rfl hr
  | poolAgent =>
    injection h with h
    rw [← h]
    unfold poolAgentStep
    split
    · exact State.poolStep_phase s
    · rfl
  | hostWrite offset width v => exact windowWrite_phase hs h
  | hostRead offset width =>
    injection h with h
    rw [← h]
  | hostStore a v =>
    injection h with h
    rw [← h]

end Sys2Proof.Machine
end

