-- ==== Sys2Proof/Laws/Spans.lean ====
section
/-! SUPPORT. Ring walks (R10) as lists of bytes: how a span grows, splits and survives a write elsewhere; the age of a
position (R36). -/

namespace Sys2Proof.Machine

/-- Walking dist(a, b) positions from `a` arrives at `b`. -/
theorem add_distMod {m a b : Nat} (ha : a < m) (hb : b < m) : (a + distMod m a b) % m = b := by
  rw [distMod_eq ha hb]
  split_ifs
  · rw [show a + (b - a) = b by omega, Nat.mod_eq_of_lt hb]
  · rw [show a + (b + m - a) = b + m by omega, Nat.add_mod_right, Nat.mod_eq_of_lt hb]

/-- Two walks of different lengths below `m` end at different positions. -/
theorem add_mod_ne {t j c m : Nat} (hj : j < c) (hc : c < m) : (t + j) % m ≠ (t + c) % m := by
  intro h
  have := Nat.ModEq.add_left_cancel' t h
  rw [Nat.ModEq, Nat.mod_eq_of_lt hc, Nat.mod_eq_of_lt (by omega)] at this
  omega

@[simp] theorem ringBytes_length (buf : List Host.Cell) (n i l : Nat) : (ringBytes buf n i l).length = l := by
  induction l generalizing i with
  | zero => rfl
  | succ l ih => simp [ringBytes, ih]

/-- A walk of `a + b` positions is one of `a` and then one of `b`. -/
theorem ringBytes_add {buf : List Host.Cell} {n : Nat} (i a b : Nat) (hi : i < n) :
    ringBytes buf n i (a + b) = ringBytes buf n i a ++ ringBytes buf n ((i + a) % n) b := by
  induction a generalizing i with
  | zero => simp [ringBytes, Nat.mod_eq_of_lt hi]
  | succ a ih =>
    rw [show a + 1 + b = (a + b) + 1 by omega, ringBytes, ringBytes, ih _ (succMod_lt _ (by omega))]
    simp only [List.cons_append, succMod, Nat.mod_add_mod]
    rw [show i + 1 + a = i + (a + 1) by omega]

/-- The position-by-position reading of a walk. -/
theorem ringBytes_eq_map {buf : List Host.Cell} {n : Nat} (i l : Nat) (hi : i < n) :
    ringBytes buf n i l = (List.range l).map fun j => cellsRead unlistedByte buf ((i + j) % n) := by
  induction l with
  | zero => rfl
  | succ l ih =>
    rw [ringBytes_add i l 1 hi, ih, List.range_succ, List.map_append]
    rfl

/-- A span grows by one byte when its end moves on. -/
theorem State.ringSpan_succ {s : State} {i j : Nat} (hi : i < s.cfg.n) (hj : j < s.cfg.n) (h : succMod s.cfg.n j ≠ i) :
    s.ringSpan i (succMod s.cfg.n j) = s.ringSpan i j ++ [s.bufAt j] := by
  unfold State.ringSpan
  rw [distMod_succ_right hi hj h, ringBytes_add _ _ _ hi, add_distMod hi hj]
  rfl

/-- A non-empty span starts with the byte at its start. -/
theorem State.ringSpan_cons {s : State} {i j : Nat} (hi : i < s.cfg.n) (hj : j < s.cfg.n) (h : i ≠ j) :
    s.ringSpan i j = s.bufAt i :: s.ringSpan (succMod s.cfg.n i) j := by
  unfold State.ringSpan
  rw [← distMod_succ_left hi hj h]
  rfl

/-- A span splits at a position on it. -/
theorem State.ringSpan_split {s : State} {i j k : Nat} (hi : i < s.cfg.n) (hj : j < s.cfg.n) (hk : k < s.cfg.n)
    (h : distMod s.cfg.n i j ≤ distMod s.cfg.n i k) : s.ringSpan i k = s.ringSpan i j ++ s.ringSpan j k := by
  have hd : distMod s.cfg.n i k = distMod s.cfg.n i j + distMod s.cfg.n j k := by
    rw [distMod_eq hi hj, distMod_eq hi hk] at h
    rw [distMod_eq hi hj, distMod_eq hi hk, distMod_eq hj hk]
    split_ifs at h ⊢ <;> omega
  unfold State.ringSpan
  rw [hd, ringBytes_add _ _ _ hi, add_distMod hi hj]

/-- A span that ends at or before a position does not see a write there. -/
theorem State.ringSpan_of_write_outside {s t : State} (hc : t.cfg = s.cfg) (x : Nat)
    (hb : ∀ i, i ≠ x → t.bufAt i = s.bufAt i) {i j : Nat} (hi : i < s.cfg.n) (hx : x < s.cfg.n)
    (hd : distMod s.cfg.n i j ≤ distMod s.cfg.n i x) : t.ringSpan i j = s.ringSpan i j := by
  unfold State.ringSpan
  rw [hc, ringBytes_eq_map _ _ hi, ringBytes_eq_map _ _ hi]
  apply List.map_congr_left
  intro k hk
  refine hb _ fun heq => ?_
  refine add_mod_ne (t := i) (Nat.lt_of_lt_of_le (List.mem_range.1 hk) hd) (distMod_lt _ _ (by omega)) ?_
  rw [heq, add_distMod hi hx]

/-- R36: an age is between 1 and N. -/
theorem State.age_bounds {s : State} (h : 0 < s.cfg.n) (x : Nat) : 1 ≤ s.age x ∧ s.age x ≤ s.cfg.n := by
  have := distMod_lt (succMod s.cfg.n x) s.head h
  unfold State.age
  omega

/-- R36: the oldest position is the one the next push overwrites. -/
theorem State.age_eq_n {s : State} {x : Nat} (hx : x < s.cfg.n) (hh : s.head < s.cfg.n) :
    s.age x = s.cfg.n ↔ x = s.head := by
  have hs := succMod_lt x (by omega : 0 < s.cfg.n)
  unfold State.age
  rw [distMod_eq hs hh, succMod_eq hx]
  split_ifs <;> omega

end Sys2Proof.Machine
end

