-- ==== Sys2Proof/Tests/Slice0.lean ====
section
/-! SUPPORT. Tests: the WellFormed smoke, decoding, one-step vectors of 95_test_vectors, and for each statement with
hypotheses a state that meets them. -/

namespace Sys2Proof.Tests

open Sys2Proof Sys2Proof.Machine

/-! ### Small configurations and states -/

/-- N = 8, K = 2, one refused region of one byte and one of five; else the defaults of R6. -/
def tiny : Config := { Config.hardware with n := 8, k := 2, refusedRegions := [(0x200, 1), (0x208, 5)] }

/-- `tiny` driven by the Pool agent. -/
def tinyBg : Config := { tiny with poolMode := .background }

/-- `tinyBg` without the checks of STRICT. -/
def tinyLiteral : Config := { tinyBg with guardMode := .literal }

/-- A command issued right after reset. -/
def issued (c : Config) (w a0 a1 a2 a3 : Word) : State := { State.init c with phase := .ready w a0 a1 a2 a3 }

/-- Right after reset, with turns to come. -/
def turns (c : Config) (ts : List Turn) : State := { State.init c with schedule := ts }

/-- The five bytes FF 41 B9 15 00 pushed and examined: one live descriptor {41, 0} (95_test_vectors, first
line of program P5). -/
def withFrame (c : Config) : State :=
  { State.init c with
    buf := [(0, 0xFF#8), (1, 0x41#8), (2, 0xB9#8), (3, 0x15#8)]
    head := 5, procTail := 5, desc := [(0, ⟨0x41#8, 0⟩)], frameHead := 1, frameCount := 1 }

/-- `withFrame` with a command issued. -/
def frameIssued (c : Config) (w a0 a1 a2 a3 : Word) : State := { withFrame c with phase := .ready w a0 a1 a2 a3 }

/-- The same five bytes, the last one not examined yet: the candidate is open. -/
def openFrame (c : Config) : State :=
  { State.init c with
    buf := [(0, 0xFF#8), (1, 0x41#8), (2, 0xB9#8), (3, 0x15#8)], head := 5, procTail := 4, parseStart := some 0 }

/-- Two live descriptors, the index full. -/
def fullIndex (c : Config) : State :=
  { withFrame c with desc := [(0, ⟨0x41#8, 0⟩), (1, ⟨0x10#8, 5⟩)], frameHead := 0, frameCount := 2 }

/-- A getter that waits. -/
def waiting (s : State) (op : Getter) : State := { s with phase := .waiting op 0x30#32 4#32 5 }

/-- What a next state satisfies; false of a fault or a refusal. -/
def nextIs (o : Host.Outcome State Fault Refusal) (p : State → Bool) : Bool :=
  match o with
  | .next t => p t
  | .fault _ => false
  | .refused _ => false

/-! ### WellFormed: each check refuses an ill-formed configuration (R6, R7) -/

theorem test_wf_default : Config.hardware.wf = true := by decide
theorem test_wf_tiny : tiny.wf = true := by decide
theorem test_wf_refuses_empty_buffer : ({ tiny with n := 0 }).wf = false := by decide
theorem test_wf_refuses_buffer_above_bound : ({ tiny with n := 65537 }).wf = false := by decide
theorem test_wf_refuses_empty_index : ({ tiny with k := 0 }).wf = false := by decide
theorem test_wf_refuses_index_above_bound : ({ tiny with k := 65537 }).wf = false := by decide
theorem test_wf_refuses_header_as_trailer : ({ tiny with header := 0x00#8 }).wf = false := by decide
theorem test_wf_refuses_header_as_escape : ({ tiny with header := 0xFE#8 }).wf = false := by decide
theorem test_wf_refuses_trailer_as_escape : ({ tiny with trailer := 0xFE#8 }).wf = false := by decide
theorem test_wf_refuses_zero_mask : ({ tiny with xorMask := 0x00#8 }).wf = false := by decide
theorem test_wf_refuses_mask_onto_delimiter : ({ tiny with xorMask := 0x01#8 }).wf = false := by decide
/-- An instruction has no ill-formed term: every value of its operands is one its fields can take (R80, R81). -/
theorem test_wf_instructions : (Instr.crcUpdate 0xFF#8 true).wf = true ∧ (Instr.pushByte 0x00#8 0xFFFFFF#24).wf = true := by
  decide

/-! ### Decoding: words written out bit by bit from R80, R81, R82 -/

theorem test_decode_crcUpdate :
    decode .cmd 0b000000000000000_1_10100101_00000001#32 = .ok (.crcUpdate 0xA5#8 true) ∧
    decode .cmd 0b000000000000000_0_01010110_00000001#32 = .ok (.crcUpdate 0x56#8 false) := by decide
theorem test_decode_encode : decode .cmd 0b000000000000000000000000_00000010#32 = .ok .encode := by decide
theorem test_decode_pushBytes : decode .cmd 0b000000000000000000000000_00000011#32 = .ok .pushBytes := by decide
theorem test_decode_pool : decode .cmd 0b000000000000000000000000_00000100#32 = .ok .pool := by decide
theorem test_decode_hasNewFrame : decode .cmd 0b000000000000000000000000_00000101#32 = .ok .hasNewFrame := by decide
theorem test_decode_countFrame : decode .cmd 0b000000000000000000000000_00000110#32 = .ok .countFrame := by decide
theorem test_decode_getOldest : decode .cmd 0b000000000000000000000000_00000111#32 = .ok .getOldest := by decide
theorem test_decode_getLatest : decode .cmd 0b000000000000000000000000_00001000#32 = .ok .getLatest := by decide
theorem test_decode_removeOldest : decode .cmd 0b000000000000000000000000_00001001#32 = .ok .removeOldest := by decide
theorem test_decode_removeLatest : decode .cmd 0b000000000000000000000000_00001010#32 = .ok .removeLatest := by decide
theorem test_decode_getDataByte : decode .cmd 0b000000000000000000000000_00001011#32 = .ok .getDataByte := by decide
theorem test_decode_pushByte :
    decode .push 0b000100100011010001010110_01000001#32 = .ok (.pushByte 0x41#8 0x123456#24) := by decide
/-- The illegal words of 95_test_vectors 2.7. -/
theorem test_decode_illegal :
    decode .cmd 0x00000000#32 = .error .illegalOpcode ∧ decode .cmd 0x0000000C#32 = .error .illegalOpcode ∧
    decode .cmd 0x000000FF#32 = .error .illegalOpcode ∧ decode .cmd 0x00000105#32 = .error .reservedBits ∧
    decode .cmd 0x00020001#32 = .error .reservedBits ∧ decode .cmd 0x80000001#32 = .error .reservedBits := by decide
theorem test_table_words :
    decodeTableWord 32 0x2 = some .encode ∧ decodeTableWord 32 0x41 = some (.pushByte 0x41#8 0#24) ∧
    decodeTableWord 8 0x4 = some .pool ∧ decodeTableWord 40 0x4 = none := by decide

/-! ### Reset (R49) and the step -/

theorem test_reset_status : State.reset.statusWord = 0#32 ∧ State.reset.head = 0 ∧ State.reset.phase = .idle := by decide
theorem test_reset_memory_wf : Memory.wf State.reset.mem = true := by decide
/-- The table's word for COUNT_FRAME, placed after reset, runs at the very next step. -/
theorem test_fetch_runs_first :
    nextIs (step (State.reset.withFetchWord 32 0x6)) (fun t => decide (t.code = .ok ∧ t.phase = .idle)) = true := by decide
/-- 2.7: an illegal word gives Generic. -/
theorem test_illegal_word :
    nextIs (step { issued tiny 0x00000105#32 0#32 0#32 0#32 0#32 with schedule := [.consumer] })
      (fun t => decide (t.code = .generic ∧ t.phase = .idle ∧ t.result0 = 0#32)) = true := by decide

/-! ### One step of each instruction, against 95_test_vectors -/

/-- 2.1: seed, FF. -/
theorem test_crcUpdate_seed :
    nextIs (exec (.crcUpdate 0xFF#8 true) (issued tiny 0x0001FF01#32 0x1234#32 0#32 0#32 0#32))
      (fun t => decide (t.result0 = 0x0000FF00#32 ∧ t.code = .ok)) = true := by decide
/-- 2.1: ARG0 = 0xFFFF1234, byte 56; ARG0[31:16] ignored. -/
theorem test_crcUpdate_prev :
    nextIs (exec (.crcUpdate 0x56#8 false) (issued tiny 0x00005601#32 0xFFFF1234#32 0#32 0#32 0#32))
      (fun t => decide (t.result0 = 0x00003C40#32)) = true := by decide

/-- 2.2: payload FF, every byte stuffed. -/
theorem test_encode_stuffs :
    nextIs (exec .encode { issued tiny 2#32 0x10#32 1#32 0x20#32 8#32 with mem := [(0x10, 0xFF#8)] })
      (fun t => decide (t.result0 = 8#32 ∧
        memReadBytes t.mem 0x20 8 = [0xFF#8, 0xFE#8, 0xDF#8, 0xFE#8, 0xDF#8, 0xFE#8, 0x20#8, 0x00#8])) = true := by decide
/-- 2.2: in place; the payload is read before the frame is written. -/
theorem test_encode_in_place :
    nextIs (exec .encode { issued tiny 2#32 0x10#32 1#32 0x10#32 8#32 with mem := [(0x10, 0x41#8)] })
      (fun t => decide (t.result0 = 5#32 ∧
        memReadBytes t.mem 0x10 5 = [0xFF#8, 0x41#8, 0xB9#8, 0x15#8, 0x00#8])) = true := by decide

/-- 2.3: ARG0 = 0, ARG1 = 5 completes Ok with nothing pushed. -/
theorem test_pushBytes_absent :
    nextIs (exec .pushBytes (issued tiny 3#32 0#32 5#32 0#32 0#32))
      (fun t => decide (t.code = .ok ∧ t.phase = .idle ∧ t.head = 0)) = true := by decide
/-- R146: a step of PUSHING pushes the byte at addr + i. -/
theorem test_pushBytes_step :
    nextIs (exec .pushBytes { State.init tiny with phase := .pushing 0x10#32 1 2, mem := [(0x11, 0x55#8)] })
      (fun t => decide (t.phase = .pushing 0x10#32 2 2 ∧ t.head = 1 ∧ t.bufAt 0 = 0x55#8)) = true := by decide

/-- 2.4, BACKGROUND: the step on the trailer of FF 41 B9 15 00 inserts {41, 0}. -/
theorem test_pool_closes :
    nextIs (exec .pool { openFrame tinyBg with phase := .pooling })
      (fun t => decide (t.phase = .pooling ∧ t.procTail = 5 ∧ t.parseStart = none ∧ t.live = [⟨0x41#8, 0⟩])) = true := by
  decide
/-- 2.4 V10: 53 8B 66 and a TRAILER close a frame of payload 53. -/
theorem test_pool_accepts_V10 :
    nextIs (exec .pool { openFrame tinyBg with buf := [(0, 0xFF#8), (1, 0x53#8), (2, 0x8B#8), (3, 0x66#8)] })
      (fun t => decide (t.live = [⟨0x53#8, 0⟩])) = true := by decide

theorem test_hasNewFrame :
    nextIs (exec .hasNewFrame (issued tiny 5#32 0#32 0#32 0#32 0#32)) (fun t => decide (t.result0 = 0#32)) = true ∧
    nextIs (exec .hasNewFrame (fullIndex tiny)) (fun t => decide (t.result0 = 1#32)) = true := by decide
theorem test_countFrame :
    nextIs (exec .countFrame (fullIndex tiny)) (fun t => decide (t.result0 = 2#32 ∧ t.code = .ok)) = true := by decide

/-- 2.5: the payload at ARG0, RESULT0 its length, RESULT1 = FF; the frame stays. -/
theorem test_getOldest_delivers :
    nextIs (exec .getOldest (frameIssued tiny 7#32 0x30#32 16#32 0#32 0#32))
      (fun t => decide (t.result0 = 1#32 ∧ t.result1 = 0x000000FF#32 ∧ memRead t.mem 0x30 = 0x41#8 ∧ t.frameCount = 1)) =
      true := by decide
/-- 2.5: reset, (0x3000, 4, 0) gives Timeout. -/
theorem test_getOldest_timeout :
    nextIs (exec .getOldest (issued tiny 7#32 0x3000#32 4#32 0#32 0#32))
      (fun t => decide (t.code = .timeout ∧ t.phase = .idle ∧ t.result0 = 0#32)) = true := by decide
/-- 2.5, V9 at K = 2: the latest frame 10 at position 5. -/
theorem test_getLatest_takes_latest :
    nextIs (exec .getLatest
        { frameIssued { tiny with n := 16 } 8#32 0x30#32 16#32 0#32 0#32 with
          buf := [(0, 0xFF#8), (1, 0x41#8), (2, 0xB9#8), (3, 0x15#8), (5, 0xFF#8), (6, 0x10#8), (7, 0xF3#8), (8, 0xC1#8)]
          head := 10, procTail := 10, desc := [(0, ⟨0x41#8, 0⟩), (1, ⟨0x10#8, 5⟩)], frameHead := 0, frameCount := 2 })
      (fun t => decide (memRead t.mem 0x30 = 0x10#8 ∧ t.frameCount = 2)) = true := by decide
/-- 2.5: REMOVE_OLDEST moves frameTail; with too small a capacity it removes nothing. -/
theorem test_removeOldest :
    nextIs (exec .removeOldest (frameIssued tiny 9#32 0x30#32 1#32 0#32 0#32))
      (fun t => decide (t.frameTail = 1 ∧ t.frameCount = 0 ∧ t.code = .ok)) = true ∧
    nextIs (exec .removeOldest (frameIssued tiny 9#32 0x30#32 0#32 0#32 0#32))
      (fun t => decide (t.frameCount = 1 ∧ t.code = .invalidArgument)) = true := by decide
theorem test_removeLatest :
    nextIs (exec .removeLatest (frameIssued tiny 10#32 0x30#32 1#32 0#32 0#32))
      (fun t => decide (t.frameHead = 0 ∧ t.frameTail = 0 ∧ t.frameCount = 0 ∧ t.result1 = 0xFF#32)) = true := by decide
/-- 2.5: RESULT1 unchanged. -/
theorem test_getDataByte :
    nextIs (exec .getDataByte (frameIssued tiny 11#32 0x30#32 16#32 0#32 0#32))
      (fun t => decide (t.result0 = 1#32 ∧ t.result1 = 0#32 ∧ memRead t.mem 0x30 = 0x41#8)) = true := by decide

/-- 2.3, N = 4 in BACKGROUND: the push of A4 evicts A1 unexamined. -/
theorem test_pushByte_overflow :
    nextIs (exec (.pushByte 0xA4#8 0#24)
        { State.init { tinyBg with n := 4 } with buf := [(0, 0xA1#8), (1, 0xA2#8), (2, 0xA3#8)], head := 3 })
      (fun t => decide (t.head = 0 ∧ t.procTail = 1 ∧ t.bufAt 3 = 0xA4#8 ∧ t.bufAt 0 = 0xA1#8)) = true := by decide
/-- P5: the push at position 7 evicts the descriptor that starts at 0, one push before its header goes. -/
theorem test_pushByte_evicts :
    nextIs (exec (.pushByte 0x79#8 0#24) { withFrame tiny with head := 7, procTail := 7 })
      (fun t => decide (t.head = 0 ∧ t.procTail = 0 ∧ t.frameCount = 0 ∧ t.frameTail = 1)) = true := by decide

/-! ### Witnesses: a state and operands that meet each statement's hypotheses -/

theorem witness_ResetMeetsTheInvariants : tiny.wf = true ∧ Config.hardware.wf = true := by decide
theorem witness_IllFormedConfigurationIsRefused :
    (turns { tiny with n := 0 } []).cfg.wf = false ∧ (turns tiny []).cfg.wf = true := by decide
theorem witness_LaterResetKeepsHostMemory :
    (turns tiny [.reset]).cfg.wf = true ∧ (turns tiny [.reset]).schedule = [.reset] := by decide
theorem witness_DecodeOfEncodeIsTheInstruction : (Instr.crcUpdate 0x00#8 false).wf = true ∧ Instr.encode.wf = true := by decide
theorem witness_EncodeOfDecodeIsTheWord :
    decode .cmd 0x0001FF01#32 = .ok (.crcUpdate 0xFF#8 true) ∧
    decode .push 0xFFFFFF00#32 = .ok (.pushByte 0x00#8 0xFFFFFF#24) := by decide
theorem witness_IllegalWordsCompleteWithGeneric :
    let s := { issued tiny 0x0000000C#32 0#32 0#32 0#32 0#32 with schedule := [.consumer] }
    s.cfg.wf = true ∧ s.phase = .ready 0x0000000C#32 0#32 0#32 0#32 0#32 ∧ s.schedule = [.consumer] ∧
      ∃ e, decode .cmd 0x0000000C#32 = .error e := ⟨by decide, rfl, rfl, .illegalOpcode, by decide⟩

/-- Each of the four phases, with the consumer's turn. -/
theorem witness_StepRunsTheDecodedCommand_turn :
    let r := { issued tiny 4#32 0#32 0#32 0#32 0#32 with schedule := [.consumer] }
    let p := { turns tiny [.consumer] with phase := .pooling }
    let q := { turns tiny [.consumer] with phase := .pushing 0x10#32 0 1 }
    let w := waiting (turns tiny [.consumer]) .getLatest
    tiny.wf = true ∧
    (r.schedule = [.consumer] ∧ r.phase = .ready 4#32 0#32 0#32 0#32 0#32 ∧ decode .cmd 4#32 = .ok .pool) ∧
    (p.schedule = [.consumer] ∧ p.phase = .pooling) ∧ (q.schedule = [.consumer] ∧ q.phase = .pushing 0x10#32 0 1) ∧
    (w.schedule = [.consumer] ∧ w.phase = .waiting .getLatest 0x30#32 4#32 5) := by decide
/-- The same phases with no turn left and no step for the Pool agent. -/
theorem witness_StepRunsTheDecodedCommand_free :
    (let s := issued tiny 4#32 0#32 0#32 0#32 0#32
     s.schedule = [] ∧ s.environment = .silent ∧ s.poolAgentReady = false) ∧
    (let s := waiting (State.init tinyBg) .getOldest
     s.schedule = [] ∧ s.environment = .silent ∧ s.poolAgentReady = false) := by decide
theorem witness_StepRunsPushWrites :
    tiny.wf = true ∧ (turns tiny [.hostWrite 0x20 .w32 0x41#32]).schedule = [.hostWrite 0x20 .w32 0x41#32] := by decide
theorem witness_PlacedWordRunsNext :
    State.reset.cfg.wf = true ∧ decodeTableWord 32 (0x2#32).toNat = some .encode ∧
    decodeTableWord 32 (0x41#32).toNat = some (.pushByte 0x41#8 0#24) := by decide
/-- Each clause: BACKGROUND with a region, BACKGROUND without, AFTER_PUSH. -/
theorem witness_PoolAgentStepsWhenItHasWork :
    (let s := { openFrame tinyBg with schedule := [.poolAgent] }
     s.cfg.wf = true ∧ s.schedule = [.poolAgent] ∧ s.cfg.poolMode = .background ∧ s.procTail ≠ s.head) ∧
    (turns tinyBg [.poolAgent]).procTail = (turns tinyBg [.poolAgent]).head ∧
    (turns tiny [.poolAgent]).cfg.poolMode = .afterPush := by decide
/-- The free values are open: which clause applies is not decided, and one of each pair does. -/
theorem witness_EitherEnabledAgentMayMove :
    (let s := { openFrame tinyBg with phase := .pooling }
     s.cfg.wf = true ∧ s.schedule = [] ∧ s.environment = .silent ∧ s.phase ≠ .idle ∧ s.cfg.poolMode = .background ∧
     s.procTail ≠ s.head) ∧
    (Config.freeTurn 0 = true ∨ Config.freeTurn 0 = false) ∧
    ({ openFrame tinyBg with environment := .free }).environment = .free ∧
    ((∃ t, Config.outsideTurn 0 = some t) ∨ Config.outsideTurn 0 = none) :=
  ⟨by decide, by cases Config.freeTurn 0 <;> simp, rfl, by cases Config.outsideTurn 0 <;> simp⟩
theorem witness_QuiescentStateStays :
    (let s := State.init tinyBg
     s.cfg.wf = true ∧ s.phase = .idle ∧ (s.cfg.poolMode = .background → s.procTail = s.head) ∧ s.schedule = [] ∧
       s.environment = .silent) := by decide
theorem witness_EveryStepAnswersANextState : State.reset.cfg.wf = true ∧ (openFrame tinyLiteral).cfg.wf = true := by decide
/-- Offsets 0x00, 0x20, 0x21, 0x24, each width, and the three kinds of phase for STATUS. -/
theorem witness_RegisterReadsFollowTheMap :
    tiny.wf = true ∧ (turns tiny [.hostRead 0x20 .w32]).schedule = [.hostRead 0x20 .w32] ∧
    (AccessWidth.w8 ≠ .w32 ∧ 0x21 % 4 ≠ 0 ∧ 0x24 ≤ 0x24) ∧
    (turns tiny [.hostRead 0x04 .w32]).phase = .idle ∧
    (∃ op dst cap t, (waiting (turns tiny [.hostRead 0x04 .w32]) .getOldest).phase = .waiting op dst cap t) ∧
    (let s := { turns tiny [.hostRead 0x04 .w32] with phase := .pooling }
     s.phase ≠ .idle ∧ ∀ op dst cap t, s.phase ≠ .waiting op dst cap t) :=
  ⟨by decide, rfl, by decide, rfl, ⟨_, _, _, _, rfl⟩, nofun, nofun⟩
theorem witness_RegisterWritesFollowTheMap :
    tiny.wf = true ∧ (turns tiny [.hostWrite 0x1C .w32 7#32]).schedule = [.hostWrite 0x1C .w32 7#32] ∧
    (turns tiny [.hostWrite 0x08 .w16 7#32]).schedule = [.hostWrite 0x08 .w16 7#32] ∧
    (turns tiny [.hostWrite 0x24 .w32 7#32]).schedule = [.hostWrite 0x24 .w32 7#32] := by decide
theorem witness_CommandWriteIssuesOnlyWhenIdle :
    (let s := turns tiny [.hostWrite 0x00 .w32 4#32]
     s.cfg.wf = true ∧ s.schedule = [.hostWrite 0x00 .w32 4#32] ∧ s.phase = .idle) ∧
    (waiting (turns tiny [.hostWrite 0x00 .w32 4#32]) .getOldest).phase ≠ .idle := by decide
/-- A first step, and a later step of each command that has one. -/
theorem witness_LatchedOperandsDecideTheCommand :
    (∃ t, (frameIssued tiny 7#32 0x30#32 16#32 0#32 0#32).phase = .ready 7#32 0x30#32 16#32 0#32 0#32 ∧
      exec .getOldest (frameIssued tiny 7#32 0x30#32 16#32 0#32 0#32) = .next t) ∧
    (∃ t, exec .pool { openFrame tinyBg with phase := .pooling } = .next t) ∧
    (∃ t, exec .pushBytes { State.init tiny with phase := .pushing 0x10#32 0 1 } = .next t) ∧
    ∃ t, (waiting (withFrame tiny) .removeLatest).phase = .waiting .removeLatest 0x30#32 4#32 5 ∧
      exec Getter.removeLatest.instr (waiting (withFrame tiny) .removeLatest) = .next t :=
  ⟨⟨_, rfl, rfl⟩, ⟨_, rfl⟩, ⟨_, rfl⟩, ⟨_, rfl, rfl⟩⟩
theorem witness_CrcUpdateCompletes :
    (issued tiny 0x00000101#32 0#32 0#32 0#32 0#32).phase = .ready 0x00000101#32 0#32 0#32 0#32 0#32 := rfl
/-- R105 on "12": ARG0 holds the CRC of "1". -/
theorem witness_CrcCommandsChain :
    (issued tiny 0x00003201#32 0xC782#32 0#32 0#32 0#32).phase = .ready 0x00003201#32 0xC782#32 0#32 0#32 0#32 ∧
    0xC782#32 = (crc16 tiny.poly [0x31#8]).setWidth 32 := by decide
theorem witness_EncodedFrameLength : [0xFF#8] ≠ ([] : List Byte) := by decide
theorem witness_StuffedBytesHoldNoDelimiter : tiny.wf = true := by decide
theorem witness_UnstuffingInvertsStuffing : tiny.wf = true ∧ Config.hardware.wf = true := by decide

/-- Each clause of R123's errors: absent source, absent destination, length 0, capacity one short, an unadmitted source,
an unadmitted destination. -/
theorem witness_EncodeErrorsInOrder :
    (issued tiny 2#32 0#32 0#32 0#32 0#32).phase = .ready 2#32 0#32 0#32 0#32 0#32 ∧
    (issued tiny 2#32 0x10#32 1#32 0#32 8#32).phase = .ready 2#32 0x10#32 1#32 0#32 8#32 ∧
    (0x10#32 ≠ 0#32 ∧ 0x20#32 ≠ 0#32 ∧ (0#32).toInt ≤ 0 ∧ 0 < (1#32).toInt ∧ (7#32).toInt < 2 + ((1#32).toInt + 2) * 2 ∧
      2 + ((1#32).toInt + 2) * 2 ≤ (8#32).toInt) ∧
    memAdmit tiny (0x200#32).toNat (1#32).toInt.toNat = false ∧
    (let s := { issued tiny 2#32 0x10#32 1#32 0x208#32 8#32 with mem := [(0x10, 0x41#8)] }
     memAdmit s.cfg (0x208#32).toNat
       (encodeFrame s.cfg (memReadBytes s.mem (0x10#32).toNat (1#32).toInt.toNat)).length = false) := by decide
theorem witness_EncodeWritesItsFrame :
    let s := { issued tiny 2#32 0x10#32 1#32 0x10#32 8#32 with mem := [(0x10, 0x41#8)] }
    s.phase = .ready 2#32 0x10#32 1#32 0x10#32 8#32 ∧ Memory.wf s.mem = true ∧ 0x10#32 ≠ 0#32 ∧ 0 < (1#32).toInt ∧
    2 + ((1#32).toInt + 2) * 2 ≤ (8#32).toInt ∧ memAdmit s.cfg (0x10#32).toNat (1#32).toInt.toNat = true ∧
    [0x41#8].length = (1#32).toInt.toNat ∧ (∀ j < [0x41#8].length, [0x41#8][j]? = some (memRead s.mem ((0x10#32).toNat + j))) ∧
    memAdmit s.cfg (0x10#32).toNat (encodeFrame s.cfg [0x41#8]).length = true := by decide

theorem witness_PushByteCompletes : cellsWf unlistedByte 0 (withFrame tiny).cfg.n (withFrame tiny).buf = true := by decide
/-- STRICT and LITERAL, each with the push that catches up with `procTail` and with the open header in the way. -/
theorem witness_PushAppliesTheOverwriteChecks :
    (let s := { openFrame tinyBg with head := 0, procTail := 1 }
     s.cfg.poolMode = .background ∧ s.ringOk ∧ s.indexOk ∧ s.cfg.guardMode = .strict ∧ s.parseStart = some s.head ∧
     succMod s.cfg.n s.head = s.procTail) ∧
    (let s := { openFrame tinyLiteral with head := 0, procTail := 1 }
     s.cfg.poolMode = .background ∧ s.ringOk ∧ s.indexOk ∧ s.cfg.guardMode = .literal ∧ s.parseStart = some 0 ∧
     succMod s.cfg.n s.head = s.procTail ∧ succMod s.cfg.n 0 = s.procTail) ∧
    (withFrame tinyLiteral).parseStart = none := by decide
theorem witness_AfterPushDrainsOneByte :
    (let s := withFrame tiny
     s.cfg.poolMode = .afterPush ∧ s.ringOk ∧ s.procTail = s.head) ∧
    (let s := State.init { tiny with n := 1 }
     s.cfg.poolMode = .afterPush ∧ s.ringOk ∧ s.procTail = s.head) := by decide
/-- Each clause of R146: absent source, length 0 and length −1, unadmitted, admitted; the end of PUSHING and before it. -/
theorem witness_PushBytesStepByStep :
    (issued tiny 3#32 0#32 5#32 0#32 0#32).phase = .ready 3#32 0#32 5#32 0#32 0#32 ∧
    ((0#32).toInt ≤ 0 ∧ (0xFFFFFFFF#32).toInt ≤ 0 ∧ 0 < (1#32).toInt) ∧
    memAdmit tiny (0x200#32).toNat (1#32).toInt.toNat = false ∧ memAdmit tiny (0x10#32).toNat (1#32).toInt.toNat = true ∧
    ({ State.init tiny with phase := .pushing 0x10#32 1 1 }).phase = .pushing 0x10#32 1 1 ∧
    ({ State.init tiny with phase := .pushing 0x10#32 0 1 }).phase = .pushing 0x10#32 0 1 := by decide
theorem witness_PushBytesTakesNPlusTwoSteps :
    let s := { issued tiny 3#32 0x10#32 1#32 0#32 0#32 with schedule := [.consumer, .consumer, .consumer] }
    s.cfg.wf = true ∧ s.phase = .ready 3#32 0x10#32 1#32 0#32 0#32 ∧ decode .cmd 3#32 = .ok .pushBytes ∧ 0x10#32 ≠ 0#32 ∧
    0 < (1#32).toInt ∧ memAdmit s.cfg (0x10#32).toNat (1#32).toInt.toNat = true ∧
    s.schedule = List.replicate ((1#32).toInt.toNat + 2) .consumer ++ [] := by decide

theorem witness_UnstuffingIsTheRingWalk : 0 < (State.init { tiny with n := 1 }).cfg.n ∧ 7 < (withFrame tiny).cfg.n := by decide
/-- A full index and one that is not. -/
theorem witness_InsertionNeverDropsTheNewFrame :
    (fullIndex tiny).indexOk ∧ (fullIndex tiny).frameCount = tiny.k ∧ (State.init tiny).indexOk := by decide
theorem witness_EvictionTakesItsEnd : (fullIndex tiny).indexOk ∧ 0 < (fullIndex tiny).frameCount := by decide
/-- A HEADER, a TRAILER with and without an open header, and another byte under `procTail`. -/
theorem witness_PoolStepBranches :
    (let s := { openFrame tinyBg with procTail := 0 }
     s.cfg.wf = true ∧ s.ringOk ∧ s.indexOk ∧ s.bufAt s.procTail = s.cfg.header) ∧
    (let s := openFrame tinyBg
     s.cfg.wf = true ∧ s.ringOk ∧ s.indexOk ∧ s.bufAt s.procTail = s.cfg.trailer ∧ s.parseStart = some 0) ∧
    (let s := { openFrame tinyBg with parseStart := none }
     s.ringOk ∧ s.indexOk ∧ s.bufAt s.procTail = s.cfg.trailer ∧ s.parseStart = none) ∧
    (let s := { openFrame tinyBg with procTail := 1 }
     s.ringOk ∧ s.indexOk ∧ s.bufAt s.procTail ≠ s.cfg.header ∧ s.bufAt s.procTail ≠ s.cfg.trailer) := by decide
theorem witness_PoolStepsOrCompletes :
    (let s := { openFrame tinyBg with phase := .pooling }
     s.phase = .pooling ∧ s.procTail ≠ s.head) ∧
    (issued tiny 4#32 0#32 0#32 0#32 0#32).phase = .ready 4#32 0#32 0#32 0#32 0#32 ∧
    (issued tiny 4#32 0#32 0#32 0#32 0#32).procTail = (issued tiny 4#32 0#32 0#32 0#32 0#32).head := by decide
theorem witness_PoolDrainsTheRegion :
    (let s := { openFrame tinyBg with phase := .pooling, schedule := [.consumer, .consumer] }
     s.cfg.wf = true ∧ s.ringOk ∧ s.phase = .pooling ∧ s.schedule = List.replicate (s.unparsed + 1) .consumer ++ []) ∧
    decode .cmd 4#32 = .ok .pool := by decide

theorem witness_QueriesComplete :
    let s := frameIssued tiny 6#32 0#32 0#32 0#32 0#32
    s.phase = .ready 6#32 0#32 0#32 0#32 0#32 ∧ s.frameCount ≤ s.cfg.k ∧ s.cfg.wf = true := by decide
/-- Each clause: absent destination; capacity 0 and −1; no frame with timeout 0, 5 and the default's −1. -/
theorem witness_GetterFirstStepWithoutDelivery :
    (issued tiny 7#32 0#32 0#32 0#32 0#32).phase = .ready 7#32 0#32 0#32 0#32 0#32 ∧
    (0x30#32 ≠ 0#32 ∧ (0#32).toInt ≤ 0 ∧ (0xFFFFFFFF#32).toInt ≤ 0 ∧ 0 < (1#32).toInt) ∧
    (issued tiny 7#32 0x30#32 1#32 5#32 0#32).frameCount = 0 ∧
    (0#32).toInt.toNat = 0 ∧ (5#32).toInt.toNat ≠ 0 ∧ (0xFFFFFFFF#32).toInt < 0 := by decide
/-- A first raw TRAILER three positions on, and a region without one. -/
theorem witness_ExtractionStopsAtTheFirstTrailer :
    (let s := withFrame tiny
     0 < s.cfg.n ∧ s.head < s.cfg.n ∧ 3 < distMod s.cfg.n (succMod s.cfg.n 0) s.head ∧
     s.bufAt ((0 + 1 + 3) % s.cfg.n) = s.cfg.trailer ∧ ∀ i < 3, s.bufAt ((0 + 1 + i) % s.cfg.n) ≠ s.cfg.trailer) ∧
    (let s := { withFrame tiny with head := 4 }
     s.head < s.cfg.n ∧
     ∀ i < distMod s.cfg.n (succMod s.cfg.n 0) s.head, s.bufAt ((0 + 1 + i) % s.cfg.n) ≠ s.cfg.trailer) := by decide
/-- At the first step and at a wait step. -/
theorem witness_GetterDelivers :
    let s := frameIssued tiny 7#32 0x30#32 1#32 0#32 0#32
    let v := waiting (withFrame tiny) .removeOldest
    (s.phase = .ready 7#32 0x30#32 1#32 0#32 0#32 ∧ 0x30#32 ≠ 0#32 ∧ v.phase = .waiting .removeOldest 0x30#32 4#32 5) ∧
    Memory.wf s.mem = true ∧ 0 < s.frameCount ∧ Memory.wf v.mem = true ∧ 0 < v.frameCount ∧
    s.extract s.oldest.startPos = some ⟨[0x41#8], 0xFF#8, 0x00#8⟩ ∧ s.extract s.latest.startPos = some ⟨[0x41#8], 0xFF#8, 0x00#8⟩ ∧
    v.extract v.oldest.startPos = some ⟨[0x41#8], 0xFF#8, 0x00#8⟩ ∧
    (([0x41#8] : List Byte).length : Int) ≤ (1#32).toInt ∧ (([0x41#8] : List Byte).length : Int) ≤ (4#32).toInt ∧
    memAdmit tiny (0x30#32).toNat ([0x41#8] : List Byte).length = true := by
  decide
/-- Each clause: no extraction (LITERAL with the ring ended early), at the first step and at a wait step; capacity 1 for
three bytes; an unadmitted destination. -/
theorem witness_FailedDeliveryEvictsNothing :
    (let s := { frameIssued tinyLiteral 7#32 0x30#32 1#32 0#32 0#32 with head := 1 }
     s.phase = .ready 7#32 0x30#32 1#32 0#32 0#32 ∧ 0x30#32 ≠ 0#32 ∧ 0 < (1#32).toInt ∧ 0 < s.frameCount ∧
     s.extract s.oldest.startPos = none) ∧
    (let s := { waiting (withFrame tinyLiteral) .getLatest with head := 1 }
     s.phase = .waiting .getLatest 0x30#32 4#32 5 ∧ 0 < s.frameCount ∧ s.extract s.latest.startPos = none) ∧
    (let s := { frameIssued tiny 7#32 0x30#32 1#32 0#32 0#32 with
       buf := [(0, 0xFF#8), (1, 0x10#8), (2, 0x01#8), (3, 0x02#8), (4, 0x9C#8), (5, 0x8C#8)], head := 7, procTail := 7 }
     ∃ f, s.extract s.oldest.startPos = some f ∧ (1#32).toInt < (f.payload.length : Int)) ∧
    (let s := frameIssued tiny 7#32 0x200#32 1#32 0#32 0#32
     ∃ f, s.extract s.oldest.startPos = some f ∧ (f.payload.length : Int) ≤ (1#32).toInt ∧
       memAdmit s.cfg (0x200#32).toNat f.payload.length = false) :=
  ⟨by decide, by decide, ⟨⟨[0x10#8, 0x01#8, 0x02#8], 0xFF#8, 0x00#8⟩, by decide⟩, ⟨⟨[0x41#8], 0xFF#8, 0x00#8⟩, by decide⟩⟩
/-- With a frame; without one, where the Clock's draw is open. -/
theorem witness_WaitStepChecksOnce :
    ((waiting (withFrame tiny) .removeLatest).phase = .waiting .removeLatest 0x30#32 4#32 5 ∧
      0 < (waiting (withFrame tiny) .removeLatest).frameCount) ∧
    ((waiting (State.init tiny) .getOldest).phase = .waiting .getOldest 0x30#32 4#32 5 ∧
      (waiting (State.init tiny) .getOldest).frameCount = 0) ∧
    (Config.clockExpired 0 5 = true ∨ Config.clockExpired 0 5 = false) :=
  ⟨by decide, by decide, by cases Config.clockExpired 0 5 <;> simp⟩

theorem witness_ErrorsHaveNoPartialEffect :
    ∃ t, exec .encode (issued tiny 2#32 0#32 0#32 0#32 0#32) = .next t ∧
      (issued tiny 2#32 0#32 0#32 0#32 0#32).phase ≠ .idle ∧ t.phase = .idle ∧ t.code ≠ .ok :=
  ⟨_, rfl, by decide, by decide, by decide⟩
/-- A step that changes CODE, and one that changes RESULT0 and RESULT1. -/
theorem witness_ResultsAreWrittenOnlyOnOk :
    (∃ t, exec .encode (issued tiny 2#32 0#32 0#32 0#32 0#32) = .next t ∧ t.code ≠ (issued tiny 2#32 0#32 0#32 0#32 0#32).code) ∧
    ∃ t, exec .getOldest (frameIssued tiny 7#32 0x30#32 16#32 0#32 0#32) = .next t ∧ t.result0 ≠ 0#32 ∧ t.result1 ≠ 0#32 :=
  ⟨⟨_, rfl, by decide⟩, ⟨_, rfl, by decide, by decide⟩⟩
/-- A step that writes host memory. -/
theorem witness_EachInstructionWritesOnlyItsOwn :
    ∃ t, exec .getDataByte (frameIssued tiny 11#32 0x30#32 16#32 0#32 0#32) = .next t ∧
      t.mem ≠ (frameIssued tiny 11#32 0x30#32 16#32 0#32 0#32).mem := ⟨_, rfl, by decide⟩
theorem witness_StepKeepsTheInvariant :
    ∃ t, (turns tiny [.hostWrite 0x20 .w32 0xFF#32]).Inv ∧ step (turns tiny [.hostWrite 0x20 .w32 0xFF#32]) = .next t :=
  ⟨_, by decide, rfl⟩
/-- A live frame and the push that evicts it. -/
theorem witness_StepKeepsTheStrictInvariant :
    ∃ t,
      let s := { withFrame tiny with head := 7, procTail := 7, schedule := [.hostWrite 0x20 .w32 0x79#32] }
      s.cfg.guardMode = .strict ∧ s.Inv ∧ s.StrictInv ∧ step s = .next t := ⟨_, by decide, by decide, by decide, rfl⟩
theorem witness_StrictExtractionNeverFails :
    let s := frameIssued tiny 7#32 0x30#32 16#32 0#32 0#32
    s.Inv ∧ s.StrictInv ∧ 0 < s.frameCount ∧ s.phase = .ready 7#32 0x30#32 16#32 0#32 0#32 ∧ 0x30#32 ≠ 0#32 ∧
      0 < (16#32).toInt := by decide
/-- A frame of wire length N = 5 in BACKGROUND mode: the next push overwrites its header (95_test_vectors 2.6, case A);
and one whose header the next push makes the next head (P5). -/
theorem witness_OldestCheckIsEnough :
    (let s := { withFrame { tinyBg with n := 5 } with head := 0, procTail := 0 }
     s.Inv ∧ s.StrictInv ∧ ⟨0x41#8, 0⟩ ∈ s.live ∧ (⟨0x41#8, 0⟩ : Descriptor).startPos = s.head) ∧
    (let s := { withFrame tiny with head := 7, procTail := 7 }
     s.Inv ∧ s.StrictInv ∧ ⟨0x41#8, 0⟩ ∈ dropIfStartsAt s.head s.live ∧
     (⟨0x41#8, 0⟩ : Descriptor).startPos = succMod s.cfg.n s.head) := ⟨by decide, by decide⟩
/-- A frame that leaves room and one of wire length N. -/
theorem witness_PushedFrameIsFoundAndReturned :
    (let s := withFrame tiny
     s.Inv ∧ s.cfg.poolMode = .afterPush ∧ s.cfg.guardMode = .strict ∧ s.parseStart = none ∧ [0x41#8] ≠ ([] : List Byte) ∧
     (encodeFrame s.cfg [0x41#8]).length ≤ s.cfg.n) ∧
    (encodeFrame tiny [0xFF#8]).length = tiny.n := by decide
/-- A frame one byte longer than the ring. -/
theorem witness_FrameLongerThanTheRingIsNotFound :
    let s := State.init { tiny with n := 4 }
    s.Inv ∧ s.cfg.poolMode = .afterPush ∧ s.cfg.guardMode = .strict ∧ s.parseStart = none ∧
      s.cfg.n < (encodeFrame s.cfg [0x41#8]).length := by decide
theorem witness_ResetContentsAreNeverObserved :
    ∃ t, tiny.wf = true ∧ cellsWf unlistedByte 0 tiny.n [(0, 0xFF#8), (7, 0x01#8)] = true ∧
      cellsWf unlistedDescriptor 0 tiny.k [(1, ⟨0x55#8, 3⟩)] = true ∧
      Host.Core.run core 1 { State.init tiny with
        mem := [], schedule := [.hostWrite 0x20 .w32 0xFF#32], environment := .silent } = .next t :=
  ⟨_, by decide, by decide, by decide, rfl⟩

/-- A getter that finds its frame at its first wait check. -/
def deliveryStart : State := waiting (withFrame tiny) .getOldest

/-- `deliveryStart` after that check. -/
def deliveryEnd : State :=
  { withFrame tiny with
    mem := [(0x30, 0x41#8)], result0 := 1#32, result1 := 0xFF#32, code := .ok, phase := .idle, draws := 1 }

/-- A run that gives the consumer sequencer every turn. -/
def deliveryRun (k : Nat) : State :=
  match k with
  | 0 => deliveryStart
  | _ + 1 => deliveryEnd

theorem test_delivery_ends : step (deliveryStart.giveTurn .consumer) = .next deliveryEnd := rfl
theorem test_idle_consumer_turn : step (deliveryEnd.giveTurn .consumer) = .next deliveryEnd := rfl

/-- A fair run with a command other than POOL in progress; and a configuration whose POOL can run for ever. -/
theorem witness_FairRunsCompleteEveryCommandButPool :
    (FairRun (fun _ => .consumer) deliveryRun ∧ (deliveryRun 0).phase.ok = true ∧ (deliveryRun 0).phase ≠ .pooling ∧
      ∀ w a0 a1 a2 a3, (deliveryRun 0).phase = .ready w a0 a1 a2 a3 → decode .cmd w ≠ .ok .pool) ∧
    (tinyBg.wf = true ∧ tinyBg.poolMode = .background ∧ 2 ≤ tinyBg.n) := by
  have ready : deliveryEnd.poolAgentReady = false := by decide
  refine ⟨⟨⟨?_, fun k _ => ⟨k, le_refl k, rfl⟩, fun k hp => ?_, fun k op dst cap t hw _ => ?_⟩, by decide, by decide, nofun⟩,
    by decide⟩
  · intro k
    cases k
    · exact test_delivery_ends
    · exact test_idle_consumer_turn
  · have h : deliveryEnd.poolAgentReady = true := hp (k + 1) (Nat.le_succ k)
    rw [ready] at h
    cases h
  · have h : deliveryEnd.phase = .waiting op dst cap t := hw (k + 1) (Nat.le_succ k)
    cases h

end Sys2Proof.Tests
end

