-- ==== Sys2Proof/Proofs/WellFormedConfig.lean ====
section
/-! The checks of a configuration (R6, R7) as propositions. -/

namespace Sys2Proof

theorem Config.capacitiesOk_iff (c : Config) :
    c.capacitiesOk = true ↔ (1 ≤ c.n ∧ c.n ≤ 65536) ∧ (1 ≤ c.k ∧ c.k ≤ 65536) := by
  simp [Config.capacitiesOk, and_assoc]

theorem Config.delimitersDistinct_iff (c : Config) :
    c.delimitersDistinct = true ↔ c.header ≠ c.trailer ∧ c.header ≠ c.escape ∧ c.trailer ≠ c.escape := by
  simp only [Config.delimitersDistinct, decide_eq_true_eq]

theorem Config.maskOk_iff (c : Config) :
    c.maskOk = true ↔ c.xorMask ≠ 0#8 ∧ ∀ r ∈ c.delimiters, r ^^^ c.xorMask ∉ c.delimiters := by
  simp only [Config.maskOk, Bool.and_eq_true, decide_eq_true_eq, List.all_eq_true, Bool.not_eq_true',
    List.contains_eq_mem, decide_eq_false_iff_not]

theorem Config.wf_iff (c : Config) :
    c.wf = true ↔ c.capacitiesOk = true ∧ c.delimitersDistinct = true ∧ c.maskOk = true := by
  simp only [Config.wf, Bool.and_eq_true, and_assoc]

/-- R7 within R6's bounds, written out. -/
theorem Config.wf_iff_r7 (c : Config) :
    c.wf = true ↔
      (1 ≤ c.n ∧ c.n ≤ 65536) ∧ (1 ≤ c.k ∧ c.k ≤ 65536) ∧
      c.header ≠ c.trailer ∧ c.header ≠ c.escape ∧ c.trailer ≠ c.escape ∧ c.xorMask ≠ 0#8 ∧
      ∀ r ∈ [c.header, c.trailer, c.escape], r ^^^ c.xorMask ∉ [c.header, c.trailer, c.escape] := by
  rw [c.wf_iff, c.capacitiesOk_iff, c.delimitersDistinct_iff, c.maskOk_iff]
  simp only [Config.delimiters, and_assoc]

theorem Config.mem_delimiters {c : Config} {b : Byte} :
    b ∈ c.delimiters ↔ b = c.header ∨ b = c.trailer ∨ b = c.escape := by
  simp [Config.delimiters]

end Sys2Proof
end

