-- ==== Sys2Proof/Proofs/StepTotal.lean ====
section
/-! No operation of the machine faults or refuses (R242, R245): the one refusal a step can answer is that of an ill-formed
configuration (R271). -/

namespace Sys2Proof.Machine

theorem execPushBytes_answers (s : State) : ∃ t, execPushBytes s = .next t := by
  unfold execPushBytes
  split
  · exact ⟨_, rfl⟩
  · exact ⟨_, rfl⟩

theorem execPool_answers (s : State) : ∃ t, execPool s = .next t := by
  unfold execPool
  split
  · exact ⟨_, rfl⟩
  · exact ⟨_, rfl⟩

/-- R245: every instruction answers a next state. -/
theorem exec_answers (i : Instr) (s : State) : ∃ t, exec i s = .next t := by
  cases i with
  | pushBytes => exact execPushBytes_answers s
  | pool => exact execPool_answers s
  | getOldest => exact ⟨_, exec_getter .getOldest s⟩
  | getLatest => exact ⟨_, exec_getter .getLatest s⟩
  | removeOldest => exact ⟨_, exec_getter .removeOldest s⟩
  | removeLatest => exact ⟨_, exec_getter .removeLatest s⟩
  | getDataByte => exact ⟨_, exec_getter .getDataByte s⟩
  | crcUpdate byte seed => exact ⟨_, rfl⟩
  | encode => exact ⟨_, rfl⟩
  | hasNewFrame => exact ⟨_, rfl⟩
  | countFrame => exact ⟨_, rfl⟩
  | pushByte data ignored => exact ⟨_, rfl⟩

theorem consumerStep_answers (s : State) : ∃ t, consumerStep s = .next t := by
  unfold consumerStep
  split
  · exact ⟨_, rfl⟩
  · exact ⟨_, rfl⟩
  · exact exec_answers _ s

theorem windowWrite_answers (offset : Nat) (width : AccessWidth) (v : Word) (s : State) :
    ∃ t, windowWrite offset width v s = .next t := by
  unfold windowWrite
  split
  · rename_i r _
    cases r <;> exact ⟨_, rfl⟩
  · exact ⟨_, rfl⟩

theorem runTurn_answers (t : Turn) (s : State) : ∃ u, runTurn t s = .next u := by
  cases t with
  | consumer => exact consumerStep_answers s
  | hostWrite offset width v => exact windowWrite_answers offset width v s
  | poolAgent => exact ⟨_, rfl⟩
  | hostRead offset width => exact ⟨_, rfl⟩
  | hostStore addr v => exact ⟨_, rfl⟩
  | reset => exact ⟨_, rfl⟩

theorem ownTurn_answers (s : State) : ∃ t, ownTurn s = .next t := by
  unfold ownTurn
  split
  · split
    · split
      · exact consumerStep_answers _
      · exact ⟨_, rfl⟩
    · exact consumerStep_answers s
  · exact ⟨_, rfl⟩

theorem freeRun_answers (s : State) : ∃ t, freeRun s = .next t := by
  cases henv : s.environment with
  | silent =>
    rw [freeRun_silent henv]
    exact ownTurn_answers s
  | free =>
    cases hturn : Config.outsideTurn s.draws with
    | some t =>
      rw [freeRun_outside henv hturn]
      exact runTurn_answers t _
    | none =>
      rw [freeRun_own henv hturn]
      exact ownTurn_answers _

theorem step_answers_of_wf {s : State} (h : s.cfg.wf = true) : ∃ t, step s = .next t := by
  unfold step
  rw [if_pos h]
  split
  · exact freeRun_answers s
  · exact runTurn_answers _ _

theorem step_refuses_of_not_wf {s : State} (h : s.cfg.wf = false) : step s = .refused .illFormedConfiguration := by
  simp [step, h]

theorem step_answers_iff_wf (s : State) : (∃ t, step s = .next t) ↔ s.cfg.wf = true :=
  ⟨fun ⟨_, ht⟩ => wf_of_step ht, step_answers_of_wf⟩

theorem step_refuses_iff_not_wf (s : State) : step s = .refused .illFormedConfiguration ↔ s.cfg.wf = false := by
  refine ⟨fun href => ?_, step_refuses_of_not_wf⟩
  rw [← Bool.not_eq_true]
  intro hwf
  obtain ⟨t, ht⟩ := step_answers_of_wf hwf
  rw [href] at ht
  cases ht

/-- Settles O4. -/
theorem illFormedConfigurationIsRefused : Obligations.IllFormedConfigurationIsRefused :=
  ⟨Config.wf_iff_r7, step_answers_iff_wf, step_refuses_iff_not_wf⟩

end Sys2Proof.Machine
end

