-- ==== Sys2Proof/Proofs/Stuffing.lean ====
section
/-! Stuffing (R120): what it emits for a byte, and which bytes never appear in it. -/

namespace Sys2Proof.Machine

theorem stuff_of_mem {c : Config} {b : Byte} (h : b ∈ c.delimiters) : stuff c b = [c.escape, b ^^^ c.xorMask] :=
  if_pos (Config.mem_delimiters.mp h)

theorem stuff_of_not_mem {c : Config} {b : Byte} (h : b ∉ c.delimiters) : stuff c b = [b] :=
  if_neg (mt Config.mem_delimiters.mpr h)

/-- A delimiter other than ESCAPE is not emitted: R7 keeps the masked bytes clear of the delimiters, and an unmasked byte is
none. -/
theorem delimiter_not_mem_stuff {c : Config} {r : Byte} (hmask : c.maskOk = true) (hr : r ∈ c.delimiters)
    (hne : r ≠ c.escape) (b : Byte) : r ∉ stuff c b := by
  obtain ⟨-, hclear⟩ := c.maskOk_iff.mp hmask
  by_cases hb : b ∈ c.delimiters
  · have hmasked : r ≠ b ^^^ c.xorMask := fun h => hclear b hb (h ▸ hr)
    simp [stuff_of_mem hb, hne, hmasked]
  · have hplain : r ≠ b := fun h => hb (h ▸ hr)
    simp [stuff_of_not_mem hb, hplain]

theorem delimiter_not_mem_stuffed {c : Config} {r : Byte} (hmask : c.maskOk = true) (hr : r ∈ c.delimiters)
    (hne : r ≠ c.escape) (p : List Byte) : r ∉ p.flatMap (stuff c) := by
  rw [List.mem_flatMap]
  rintro ⟨b, -, hb⟩
  exact delimiter_not_mem_stuff hmask hr hne b hb

/-- Settles O29: HEADER and TRAILER are delimiters other than ESCAPE. -/
theorem stuffedBytesHoldNoDelimiter : Obligations.StuffedBytesHoldNoDelimiter := by
  intro c p hwf
  obtain ⟨-, hdistinct, hmask⟩ := c.wf_iff.mp hwf
  obtain ⟨-, hheader, htrailer⟩ := c.delimitersDistinct_iff.mp hdistinct
  exact ⟨delimiter_not_mem_stuffed hmask (Config.mem_delimiters.mpr (.inl rfl)) hheader p,
    delimiter_not_mem_stuffed hmask (Config.mem_delimiters.mpr (.inr (.inl rfl))) htrailer p⟩

end Sys2Proof.Machine
end

