-- ==== Sys2Proof/Proofs/FrameIndex.lean ====
section
/-! The Frame Index (R29 to R34): its live descriptors as a list, and what inserting and evicting do to it. -/

namespace Sys2Proof.Machine

/-- R29, R35 invariant 2, of the indices and the slots' form alone: what the lists of live descriptors rest on. -/
abbrev State.slotsOk (s : State) : Prop :=
  s.frameTail < s.cfg.k ∧ s.frameCount ≤ s.cfg.k ∧ s.frameHead = (s.frameTail + s.frameCount) % s.cfg.k ∧
  cellsWf unlistedDescriptor 0 s.cfg.k s.desc = true

/-- Every slot holds a ring position (R28, R29). -/
abbrev State.slotsInRange (s : State) : Prop := (s.desc.all fun c => decide (c.2.startPos < s.cfg.n)) = true

theorem State.indexOk_iff (s : State) : s.indexOk ↔ s.slotsOk ∧ s.slotsInRange := by
  simp only [State.indexOk, State.slotsOk, State.slotsInRange, and_assoc]

theorem State.indexOk.slots {s : State} (h : s.indexOk) : s.slotsOk := (s.indexOk_iff.1 h).1

@[simp] theorem State.live_length (s : State) : s.live.length = s.frameCount := by simp [State.live]

theorem State.live_eq_nil {s : State} (h : s.frameCount = 0) : s.live = [] := by simp [State.live, h]

/-- R29: with a frame available the live descriptors begin at the oldest one. -/
theorem State.live_eq_cons {s : State} (ht : s.frameTail < s.cfg.k) (hc : 0 < s.frameCount) :
    s.live = s.oldest :: s.evictOldest.live := by
  obtain ⟨c, hc⟩ : ∃ c, s.frameCount = c + 1 := ⟨s.frameCount - 1, by omega⟩
  have hshift (j : Nat) : (s.frameTail + (j + 1)) % s.cfg.k = (succMod s.cfg.k s.frameTail + j) % s.cfg.k := by
    rw [succMod, Nat.mod_add_mod]; congr 1; omega
  simp only [State.live, State.evictOldest_frameCount, State.evictOldest_frameTail, State.evictOldest_cfg, hc,
    Nat.add_sub_cancel, List.range_succ_eq_map, List.map_cons, List.map_map, Nat.add_zero, Nat.mod_eq_of_lt ht,
    Function.comp_def, Nat.succ_eq_add_one, hshift]
  rfl

/-- R33: the eviction of the oldest. -/
theorem State.live_evictOldest {s : State} (ht : s.frameTail < s.cfg.k) : s.evictOldest.live = s.live.tail := by
  rcases Nat.eq_zero_or_pos s.frameCount with hc | hc
  · rw [State.live_eq_nil hc, State.live_eq_nil (by simp [hc])]; rfl
  · rw [State.live_eq_cons ht hc]; rfl

/-- R29: with a frame available the live descriptors end at the latest one. -/
theorem State.live_eq_concat {s : State} (h : s.slotsOk) (hc : 0 < s.frameCount) :
    s.live = s.evictLatest.live ++ [s.latest] := by
  obtain ⟨ht, hle, hhead, -⟩ := h
  obtain ⟨c, hc⟩ : ∃ c, s.frameCount = c + 1 := ⟨s.frameCount - 1, by omega⟩
  have hlast : predMod s.cfg.k s.frameHead = (s.frameTail + c) % s.cfg.k := by
    rw [hhead, hc, ← Nat.add_assoc, ← Nat.mod_add_mod]
    exact predMod_succMod (Nat.mod_lt _ (by omega))
  simp only [State.live, State.latest, State.evictLatest_frameCount, hc, Nat.add_sub_cancel, List.range_succ,
    List.map_append, List.map_singleton, hlast]
  rfl

/-- R34: the eviction of the latest. -/
theorem State.live_evictLatest {s : State} (h : s.slotsOk) (hc : 0 < s.frameCount) :
    s.evictLatest.live = s.live.dropLast := by
  rw [State.live_eq_concat h hc, List.dropLast_concat]

/-- R32: a descriptor appended to an index that is not full. -/
theorem State.live_appendDescriptor {s : State} (h : s.slotsOk) (hc : s.frameCount < s.cfg.k) (d : Descriptor) :
    (s.appendDescriptor d).live = s.live ++ [d] := by
  obtain ⟨-, -, hhead, hwf⟩ := h
  have hslot (j : Nat) : (s.appendDescriptor d).descAt j = if j = s.frameHead then d else s.descAt j :=
    cellsRead_write _ _ _ hwf
  simp only [State.live, State.appendDescriptor_frameCount, State.appendDescriptor_frameTail,
    State.appendDescriptor_cfg, List.range_succ, List.map_append, List.map_singleton, hslot, hhead, if_true]
  congr 1
  refine List.map_congr_left fun j hj => if_neg ?_
  exact add_mod_ne (List.mem_range.1 hj) hc

theorem State.latest_appendDescriptor {s : State} (h : s.slotsOk) (d : Descriptor) :
    (s.appendDescriptor d).latest = d := by
  obtain ⟨ht, -, hhead, hwf⟩ := h
  have hlt : s.frameHead < s.cfg.k := by rw [hhead]; exact Nat.mod_lt _ (by omega)
  simp only [State.latest, State.descAt, State.appendDescriptor_frameHead, State.appendDescriptor_cfg,
    State.appendDescriptor_desc, predMod_succMod hlt]
  exact cellsRead_write_same _ _ hwf

/-- Every slot holds a ring position (R28, R29). -/
theorem State.descAt_startPos_lt {s : State} (h : s.indexOk) (hn : 0 < s.cfg.n) (j : Nat) :
    (s.descAt j).startPos < s.cfg.n := by
  obtain ⟨-, hpos⟩ := s.indexOk_iff.1 h
  unfold State.slotsInRange at hpos
  unfold State.descAt
  generalize s.desc = m at hpos
  induction m with
  | nil => exact hn
  | cons c rest ih =>
    simp only [List.all_cons, Bool.and_eq_true, decide_eq_true_eq] at hpos
    unfold cellsRead
    split_ifs
    · exact hpos.1
    · exact ih hpos.2
    · exact hn

theorem State.live_startPos_lt {s : State} (h : s.indexOk) (hn : 0 < s.cfg.n) {d : Descriptor} (hd : d ∈ s.live) :
    d.startPos < s.cfg.n := by
  obtain ⟨j, -, rfl⟩ := List.mem_map.1 hd
  exact State.descAt_startPos_lt h hn _

/-! ### The index stays well formed -/

theorem State.evictOldest_slotsOk {s : State} (h : s.slotsOk) (hc : 0 < s.frameCount) : s.evictOldest.slotsOk := by
  obtain ⟨ht, hle, hhead, hwf⟩ := h
  refine ⟨succMod_lt _ (by omega), Nat.le_trans (Nat.sub_le _ _) hle, ?_, hwf⟩
  simp only [State.evictOldest_frameHead, State.evictOldest_frameTail, State.evictOldest_frameCount,
    State.evictOldest_cfg, hhead, succMod, Nat.mod_add_mod]
  congr 1
  omega

theorem State.evictLatest_slotsOk {s : State} (h : s.slotsOk) (hc : 0 < s.frameCount) : s.evictLatest.slotsOk := by
  obtain ⟨ht, hle, hhead, hwf⟩ := h
  refine ⟨ht, Nat.le_trans (Nat.sub_le _ _) hle, ?_, hwf⟩
  have hback : s.frameTail + s.frameCount = (s.frameTail + (s.frameCount - 1)) + 1 := by omega
  simp only [State.evictLatest_frameHead, State.evictLatest_frameTail, State.evictLatest_frameCount,
    State.evictLatest_cfg, hhead, hback]
  rw [← Nat.mod_add_mod]
  exact predMod_succMod (Nat.mod_lt _ (by omega))

theorem State.appendDescriptor_slotsOk {s : State} (h : s.slotsOk) (hc : s.frameCount < s.cfg.k) (d : Descriptor) :
    (s.appendDescriptor d).slotsOk := by
  obtain ⟨ht, hle, hhead, hwf⟩ := h
  refine ⟨ht, hc, ?_, cellsWrite_wf d hwf (Nat.zero_le _) ?_⟩
  · simp only [State.appendDescriptor_frameHead, State.appendDescriptor_frameTail, State.appendDescriptor_frameCount,
      State.appendDescriptor_cfg, hhead, succMod, Nat.mod_add_mod, Nat.add_assoc]
  · rw [hhead]; exact Nat.mod_lt _ (by omega)

theorem State.indexInsert_slotsOk {s : State} (h : s.slotsOk) (d : Descriptor) : (s.indexInsert d).slotsOk := by
  obtain ⟨ht, hle, -⟩ := id h
  rcases s.indexInsert_cases d with ⟨hfull, heq⟩ | ⟨hroom, heq⟩
  · rw [heq]
    exact State.appendDescriptor_slotsOk (State.evictOldest_slotsOk h (by omega))
      (by simp only [State.evictOldest_frameCount, State.evictOldest_cfg]; omega) d
  · rw [heq]
    exact State.appendDescriptor_slotsOk h (by omega) d

theorem State.evictOldest_indexOk {s : State} (h : s.indexOk) (hc : 0 < s.frameCount) : s.evictOldest.indexOk :=
  (State.indexOk_iff _).2 ⟨State.evictOldest_slotsOk h.slots hc, (s.indexOk_iff.1 h).2⟩

theorem State.evictLatest_indexOk {s : State} (h : s.indexOk) (hc : 0 < s.frameCount) : s.evictLatest.indexOk :=
  (State.indexOk_iff _).2 ⟨State.evictLatest_slotsOk h.slots hc, (s.indexOk_iff.1 h).2⟩

theorem mem_of_mem_cellsWrite {α : Type} [DecidableEq α] {d v : α} {m : List (Nat × α)} {a : Nat} {c : Nat × α}
    (h : c ∈ cellsWrite d m a v) : c ∈ m ∨ c = (a, v) := by
  induction m with
  | nil =>
    unfold cellsWrite at h
    split_ifs at h <;> simp_all
  | cons c' rest ih =>
    unfold cellsWrite at h
    split_ifs at h <;> simp only [List.mem_cons] at h ⊢ <;> tauto

theorem State.appendDescriptor_slotsInRange {s : State} (h : s.slotsInRange) {d : Descriptor}
    (hd : d.startPos < s.cfg.n) : (s.appendDescriptor d).slotsInRange := by
  simp only [State.slotsInRange, List.all_eq_true, decide_eq_true_eq] at h ⊢
  intro c hmem
  rcases mem_of_mem_cellsWrite hmem with hold | rfl
  · exact h c hold
  · exact hd

theorem State.indexInsert_indexOk {s : State} (h : s.indexOk) {d : Descriptor} (hd : d.startPos < s.cfg.n) :
    (s.indexInsert d).indexOk := by
  obtain ⟨hslots, hrange⟩ := s.indexOk_iff.1 h
  refine (State.indexOk_iff _).2 ⟨State.indexInsert_slotsOk hslots d, ?_⟩
  rcases s.indexInsert_cases d with ⟨-, heq⟩ | ⟨-, heq⟩
  · rw [heq]; exact State.appendDescriptor_slotsInRange (s := s.evictOldest) hrange hd
  · rw [heq]; exact State.appendDescriptor_slotsInRange hrange hd

theorem State.evictIfOverwritten_indexOk {s : State} (h : s.indexOk) (pos : Nat) :
    (s.evictIfOverwritten pos).indexOk := by
  rcases s.evictIfOverwritten_cases pos with ⟨hc, -, heq⟩ | ⟨-, heq⟩
  · rw [heq]; exact State.evictOldest_indexOk h hc
  · rw [heq]; exact h

/-! ### Insertion and the overwrite check, on the list of live descriptors -/

theorem State.live_indexInsert {s : State} (h : s.slotsOk) (d : Descriptor) :
    (s.indexInsert d).live = (if s.frameCount = s.cfg.k then s.live.drop 1 else s.live) ++ [d] := by
  obtain ⟨ht, hle, -⟩ := id h
  rcases s.indexInsert_cases d with ⟨hfull, heq⟩ | ⟨hroom, heq⟩
  · rw [heq, if_pos hfull, List.drop_one, ← State.live_evictOldest ht]
    exact State.live_appendDescriptor (State.evictOldest_slotsOk h (by omega))
      (by simp only [State.evictOldest_frameCount, State.evictOldest_cfg]; omega) d
  · rw [heq, if_neg hroom]
    exact State.live_appendDescriptor h (by omega) d

theorem State.latest_indexInsert {s : State} (h : s.slotsOk) (d : Descriptor) : (s.indexInsert d).latest = d := by
  obtain ⟨ht, -⟩ := id h
  rcases s.indexInsert_cases d with ⟨hfull, heq⟩ | ⟨-, heq⟩
  · rw [heq]
    exact State.latest_appendDescriptor (State.evictOldest_slotsOk h (by omega)) d
  · rw [heq]
    exact State.latest_appendDescriptor h d

theorem State.indexInsert_frameCount {s : State} (h : s.slotsOk) (d : Descriptor) :
    (s.indexInsert d).frameCount = min (s.frameCount + 1) s.cfg.k := by
  obtain ⟨ht, hle, -⟩ := h
  rcases s.indexInsert_cases d with ⟨hfull, heq⟩ | ⟨hroom, heq⟩
  · rw [heq, State.appendDescriptor_frameCount, State.evictOldest_frameCount]; omega
  · rw [heq, State.appendDescriptor_frameCount]; omega

/-- R143 on the list of live descriptors. -/
theorem State.live_evictIfOverwritten {s : State} (ht : s.frameTail < s.cfg.k) (pos : Nat) :
    (s.evictIfOverwritten pos).live = dropIfStartsAt pos s.live := by
  rcases Nat.eq_zero_or_pos s.frameCount with hc | hc
  · have hkeep : s.evictIfOverwritten pos = s := if_neg (by omega)
    rw [hkeep, State.live_eq_nil hc]; rfl
  · rw [State.live_eq_cons ht hc]
    rcases s.evictIfOverwritten_cases pos with ⟨-, hpos, heq⟩ | ⟨hno, heq⟩
    · simp only [dropIfStartsAt, if_pos hpos, heq]
    · simp only [dropIfStartsAt, if_neg (fun hpos => hno ⟨hc, hpos⟩), heq, ← State.live_eq_cons ht hc]

theorem State.live_head? {s : State} (ht : s.frameTail < s.cfg.k) (hc : 0 < s.frameCount) :
    s.live.head? = some s.oldest := by
  rw [State.live_eq_cons ht hc]; rfl

theorem State.live_getLast? {s : State} (h : s.slotsOk) (hc : 0 < s.frameCount) :
    s.live.getLast? = some s.latest := by
  rw [State.live_eq_concat h hc, List.getLast?_concat]

/-- Settles O39: both cases of an insertion end in an append to an index that is not full. -/
theorem insertionNeverDropsTheNewFrame : Obligations.InsertionNeverDropsTheNewFrame := fun _ d h =>
  ⟨State.live_indexInsert h.slots d, State.latest_indexInsert h.slots d, State.indexInsert_frameCount h.slots d⟩

/-- Settles O40: the live descriptors as a list with the oldest in front, and as one with the latest behind. -/
theorem evictionTakesItsEnd : Obligations.EvictionTakesItsEnd := by
  intro s h hc
  obtain ⟨ht, -⟩ := id h
  exact ⟨State.live_head? ht hc, State.live_getLast? h.slots hc, State.live_evictOldest ht,
    State.live_evictLatest h.slots hc⟩

end Sys2Proof.Machine
end

