-- ==== Sys2Proof/Proofs/RingRanges.lean ====
section
/-! The ranges of the rings (R8, R23 to R29) through pool steps, drains and pushes, and the empty unparsed region of
AFTER_PUSH mode (R141). -/

namespace Sys2Proof.Machine

/-- Both rings in range: the Byte Stream Buffer's part and the Frame Index's. -/
abbrev State.ringsOk (s : State) : Prop := s.ringOk ∧ s.indexOk

theorem State.ringOk_iff (s : State) :
    s.ringOk ↔ s.head < s.cfg.n ∧ s.procTail < s.cfg.n ∧ (∀ p, s.parseStart = some p → p < s.cfg.n) ∧
      cellsWf unlistedByte 0 s.cfg.n s.buf = true := by
  cases h : s.parseStart <;> simp [State.ringOk, h]

theorem State.ringOk.parseStart_lt {s : State} (h : s.ringOk) {p : Nat} (hp : s.parseStart = some p) : p < s.cfg.n :=
  (s.ringOk_iff.1 h).2.2.1 p hp

/-! ### Pool steps and the drain -/

theorem State.closeCandidate_indexOk {s : State} (h : s.indexOk) {p : Nat} (hp : p < s.cfg.n) (t : Nat) :
    (s.closeCandidate p t).indexOk := by
  rcases s.closeCandidate_cases p t with ⟨u, -, -, heq⟩ | heq
  · rw [heq]; exact State.indexInsert_indexOk h hp
  · rw [heq]; exact h

theorem State.examine_indexOk {s : State} (h : s.ringsOk) : s.examine.indexOk := by
  obtain ⟨hring, hindex⟩ := h
  rcases s.examine_cases with ⟨-, heq⟩ | ⟨p, -, -, hp, heq⟩ | ⟨-, -, heq⟩
  · rw [heq]; exact hindex
  · rw [heq]; exact State.closeCandidate_indexOk hindex (hring.parseStart_lt hp) s.procTail
  · rw [heq]; exact hindex

/-- R161, R162: what the open header is after a byte was examined. -/
theorem State.examine_parseStart (s : State) :
    s.examine.parseStart = some s.procTail ∨ s.examine.parseStart = none ∨ s.examine.parseStart = s.parseStart := by
  rcases s.examine_cases with ⟨-, heq⟩ | ⟨p, -, -, -, heq⟩ | ⟨-, -, heq⟩
  · exact .inl (by rw [heq])
  · exact .inr (.inl (by rw [heq]))
  · exact .inr (.inr (by rw [heq]))

theorem State.poolStep_ringsOk {s : State} (h : s.ringsOk) : s.poolStep.ringsOk := by
  obtain ⟨hring, hindex⟩ := h
  obtain ⟨hhead, htail, hopen, hbuf⟩ := s.ringOk_iff.1 hring
  refine ⟨(State.ringOk_iff _).2 ?_, State.examine_indexOk ⟨hring, hindex⟩⟩
  simp only [State.poolStep_cfg, State.poolStep_head, State.poolStep_procTail, State.poolStep_buf]
  refine ⟨hhead, succMod_lt _ (by omega), fun p hp => ?_, hbuf⟩
  have hp : s.examine.parseStart = some p := hp
  rcases s.examine_parseStart with heq | heq | heq <;> rw [heq] at hp
  · injection hp with hp; omega
  · cases hp
  · exact hopen p hp

theorem State.drainLoop_ringsOk {s : State} (h : s.ringsOk) (fuel : Nat) : (s.drainLoop fuel).ringsOk := by
  induction fuel generalizing s with
  | zero => exact h
  | succ k ih =>
    unfold State.drainLoop
    split
    · exact h
    · exact ih (State.poolStep_ringsOk h)

/-- R160, R26: a pool step shortens the unparsed region by one byte. -/
theorem State.unparsed_poolStep {s : State} (h : s.ringOk) (hne : s.procTail ≠ s.head) :
    s.poolStep.unparsed + 1 = s.unparsed := by
  simp only [State.unparsed, State.poolStep_cfg, State.poolStep_procTail, State.poolStep_head]
  exact distMod_succ_left h.2.1 h.1 hne

/-- R141: a drain with a turn for every unparsed byte leaves none. -/
theorem State.drainLoop_drained {s : State} (h : s.ringsOk) {fuel : Nat} (hfuel : s.unparsed ≤ fuel) :
    (s.drainLoop fuel).procTail = s.head := by
  induction fuel generalizing s with
  | zero => exact (distMod_eq_zero h.1.2.1 h.1.1).1 (Nat.le_zero.1 hfuel)
  | succ k ih =>
    unfold State.drainLoop
    split
    · assumption
    · rename_i hne
      have hshorter := State.unparsed_poolStep h.1 hne
      rw [ih (State.poolStep_ringsOk h) (by omega), State.poolStep_head]

theorem State.drain_drained {s : State} (h : s.ringsOk) : s.drain.procTail = s.drain.head := by
  rw [State.drain_head]
  exact State.drainLoop_drained h (Nat.le_of_lt (distMod_lt _ _ (by have := h.1.1; omega)))

/-! ### Pushes -/

/-- R140 step 1 leaves the open header or none. -/
theorem State.guardOverwrite_parseStart (s : State) :
    s.guardOverwrite.parseStart = s.parseStart ∨ s.guardOverwrite.parseStart = none := by
  unfold State.guardOverwrite
  split
  · exact .inl rfl
  · rw [State.evictIfOverwritten_parseStart]
    dsimp only
    split
    · exact .inr rfl
    · exact .inl rfl

theorem State.guardOverwrite_indexOk {s : State} (h : s.indexOk) : s.guardOverwrite.indexOk := by
  unfold State.guardOverwrite
  split
  · exact h
  · refine State.evictIfOverwritten_indexOk ?_ _
    exact h

/-- R140 step 5 leaves the open header or none. -/
theorem State.evictUnparsed_parseStart (s : State) :
    s.evictUnparsed.parseStart = s.parseStart ∨ s.evictUnparsed.parseStart = none := by
  unfold State.evictUnparsed
  split
  · cases s.parseStart with
    | none => exact .inl rfl
    | some p => dsimp only; split <;> simp
  · exact .inl rfl

theorem State.evictUnparsed_indexOk {s : State} (h : s.indexOk) : s.evictUnparsed.indexOk := by
  unfold State.evictUnparsed
  split
  · exact h
  · exact h

/-- R140: a push leaves the open header or none. -/
theorem State.pushRaw_parseStart (s : State) (b : Byte) :
    (s.pushRaw b).parseStart = s.parseStart ∨ (s.pushRaw b).parseStart = none := by
  have hraw : (s.pushRaw b).parseStart = (s.guardOverwrite.setBuf s.head b).evictUnparsed.parseStart := by
    simp [State.pushRaw, State.advanceHead]
  rw [hraw]
  rcases State.evictUnparsed_parseStart (s.guardOverwrite.setBuf s.head b) with heq | heq
  · rw [heq]; exact s.guardOverwrite_parseStart
  · exact .inr heq

theorem State.pushRaw_ringsOk {s : State} (h : s.ringsOk) (b : Byte) : (s.pushRaw b).ringsOk := by
  obtain ⟨hring, hindex⟩ := h
  obtain ⟨hhead, htail, hopen, hbuf⟩ := s.ringOk_iff.1 hring
  refine ⟨(State.ringOk_iff _).2 ?_, ?_⟩
  · simp only [State.pushRaw_cfg, State.pushRaw_head, State.pushRaw_buf, State.pushRaw_procTail]
    refine ⟨succMod_lt _ (by omega), ?_, fun p hp => ?_, cellsWrite_wf _ hbuf (Nat.zero_le _) hhead⟩
    · split
      · exact succMod_lt _ (by omega)
      · exact htail
    · rcases s.pushRaw_parseStart b with heq | heq <;> rw [heq] at hp
      · exact hopen p hp
      · cases hp
  · have hguard : (s.guardOverwrite.setBuf s.head b).indexOk := State.guardOverwrite_indexOk hindex
    exact State.evictIfOverwritten_indexOk (State.evictUnparsed_indexOk hguard) _

theorem State.push_ringsOk {s : State} (h : s.ringsOk) (b : Byte) : (s.push b).ringsOk := by
  unfold State.push
  split
  · exact State.drainLoop_ringsOk (State.pushRaw_ringsOk h b) _
  · exact State.pushRaw_ringsOk h b

@[simp] theorem State.push_head (s : State) (b : Byte) : (s.push b).head = succMod s.cfg.n s.head := by
  unfold State.push; split <;> simp

@[simp] theorem State.push_buf (s : State) (b : Byte) :
    (s.push b).buf = cellsWrite unlistedByte s.buf s.head b := by
  unfold State.push; split <;> simp

/-- R141: in AFTER_PUSH mode a push leaves no byte unparsed. -/
theorem State.push_drainedOk {s : State} (h : s.ringsOk) (b : Byte) : (s.push b).drainedOk := by
  intro hmode
  rw [State.push_cfg] at hmode
  unfold State.push
  rw [hmode]
  exact State.drain_drained (State.pushRaw_ringsOk h b)

/-- Settles O33: the drain that may follow the push only reads the buffer. -/
theorem pushByteCompletes : Obligations.PushByteCompletes := by
  intro s data ignored hbuf
  refine ⟨s.push data, rfl, s.push_frame data, s.push_head data, fun i => ?_⟩
  rw [State.bufAt, State.push_buf]
  exact cellsRead_write s.head i data hbuf

end Sys2Proof.Machine
end

