-- ==== Sys2Proof/Proofs/InstructionEffects.lean ====
section
/-! What an instruction can do to the state, said once over all of them, and who writes what (R40, R41, R252). -/

namespace Sys2Proof.Machine

/-- The codes a command can fail with: R240's, without Ok and the two that are never produced. -/
def StatusCode.isFailure (c : StatusCode) : Bool :=
  match c with
  | .generic => true
  | .nullArgument => true
  | .invalidArgument => true
  | .full => true
  | .timeout => true
  | .ok => false
  | .crcMismatch => false
  | .empty => false

/-- The outcomes of an instruction's step (`exec_effect`). -/
inductive ExecEffect (s : State) : Instr → State → Prop where
  /-- an error: only CODE and the phase (R243), and the draw of a wait step -/
  | fails (i : Instr) (drawn : Nat) (c : StatusCode) (hc : c.isFailure = true) :
      ExecEffect s i (State.complete { s with draws := drawn } c)
  /-- PUSH_BYTES or POOL at its end -/
  | ends (i : Instr) : ExecEffect s i (s.complete .ok)
  /-- CRC_UPDATE, HAS_NEW_FRAME, COUNT_FRAME -/
  | answers (i : Instr) (v : Word) (hpool : i ≠ .pool) (hpushes : i ≠ .pushBytes) (hpush : ∀ d x, i ≠ .pushByte d x) :
      ExecEffect s i (State.complete { s with result0 := v } .ok)
  /-- ENCODE writes its frame (R123) -/
  | encodes (dst : Nat) (out : List Byte) (v : Word) (hadmit : memAdmit s.cfg dst out.length = true) :
      ExecEffect s .encode (State.complete { s with mem := memWriteBytes s.mem dst out, result0 := v } .ok)
  /-- a getter delivers (R205) -/
  | delivers (op : Getter) (drawn dst : Nat) (f : Extracted) (hcount : 0 < s.frameCount)
      (hadmit : memAdmit s.cfg dst f.payload.length = true) :
      ExecEffect s op.instr (((State.handOver { s with draws := drawn } op dst f).evictSelected op).complete .ok)
  /-- PUSH_BYTES enters PUSHING, or a getter waits (R146, R204, R212) -/
  | waits (i : Instr) (drawn : Nat) (p : Phase) (hp : s.phase.ok = true → p.ok = true) :
      ExecEffect s i { s with draws := drawn, phase := p }
  /-- PUSH_BYTE (R145) -/
  | pushes (d : Byte) (x : BitVec 24) : ExecEffect s (.pushByte d x) (s.push d)
  /-- PUSH_BYTES pushes its next byte (R146) -/
  | pushesNext (b : Byte) (p : Phase) (hp : s.phase.ok = true → p.ok = true) :
      ExecEffect s .pushBytes { s.push b with phase := p }
  /-- POOL does a pool step (R171) -/
  | pools (hne : s.procTail ≠ s.head) : ExecEffect s .pool { s.poolStep with phase := .pooling }

theorem encodeChecked_effect (src n dst cap : Word) (s : State) :
    ExecEffect s .encode (encodeChecked src n dst cap s) := by
  rcases encodeChecked_cases src n dst cap s with
    ⟨-, heq⟩ | ⟨-, -, -, heq⟩ | ⟨-, -, -, -, heq⟩ | ⟨-, -, -, -, heq⟩ | ⟨-, -, -, -, -, out, -, hadmit, heq⟩
  · exact heq ▸ .fails .encode s.draws .nullArgument rfl
  · exact heq ▸ .fails .encode s.draws .invalidArgument rfl
  · exact heq ▸ .fails .encode s.draws .full rfl
  · exact heq ▸ .fails .encode s.draws .generic rfl
  · exact heq ▸ .encodes dst.toNat out (wordOfNat out.length) hadmit

theorem pushBytesFirst_effect (src n : Word) (s : State) : ExecEffect s .pushBytes (pushBytesFirst src n s) := by
  rcases pushBytesFirst_cases src n s with ⟨-, heq⟩ | ⟨hsrc, hn, hadmit, heq⟩ | ⟨-, -, -, heq⟩
  · exact heq ▸ .ends .pushBytes
  · refine heq ▸ .waits .pushBytes s.draws _ fun _ => ?_
    have hregion := memAdmit_le hadmit (by omega)
    simp only [Phase.ok, decide_eq_true_eq]
    exact ⟨hsrc, by omega, by omega, hregion⟩
  · exact heq ▸ .fails .pushBytes s.draws .generic rfl

theorem execPushBytes_effect {s t : State} (h : execPushBytes s = .next t) : ExecEffect s .pushBytes t := by
  unfold execPushBytes at h
  split at h <;> injection h with h <;> subst h
  · rename_i addr i n hphase
    unfold pushBytesNext
    split
    · exact .ends .pushBytes
    · refine .pushesNext _ _ fun hok => ?_
      simp only [hphase, Phase.ok, decide_eq_true_eq] at hok ⊢
      obtain ⟨haddr, hle, hpos, hregion⟩ := hok
      exact ⟨haddr, by omega, hpos, hregion⟩
  · exact pushBytesFirst_effect _ _ s

theorem execPool_effect {s t : State} (h : execPool s = .next t) : ExecEffect s .pool t := by
  unfold execPool at h
  split at h <;> injection h with h <;> subst h
  · exact .ends .pool
  · exact .pools (by assumption)

theorem deliver_effect (op : Getter) (dst cap : Word) (drawn : Nat) {s : State} (hcount : 0 < s.frameCount) :
    ExecEffect s op.instr (deliver op dst cap { s with draws := drawn }) := by
  rcases deliver_cases op dst cap { s with draws := drawn } with
    ⟨-, heq⟩ | ⟨f, -, -, heq⟩ | ⟨f, -, -, -, heq⟩ | ⟨f, -, -, hadmit, heq⟩
  · exact heq ▸ .fails op.instr drawn .generic rfl
  · exact heq ▸ .fails op.instr drawn .full rfl
  · exact heq ▸ .fails op.instr drawn .generic rfl
  · exact heq ▸ .delivers op drawn dst.toNat f hcount hadmit

theorem getterFirst_effect (op : Getter) (dst cap tmo : Word) (s : State) :
    ExecEffect s op.instr (getterFirst op dst cap tmo s) := by
  rcases getterFirst_cases op dst cap tmo s with
    ⟨-, heq⟩ | ⟨-, -, heq⟩ | ⟨-, -, hcount, heq⟩ | ⟨-, -, -, -, heq⟩ | ⟨hdst, hcap, -, htmo, heq⟩
  · exact heq ▸ .fails op.instr s.draws .nullArgument rfl
  · exact heq ▸ .fails op.instr s.draws .invalidArgument rfl
  · exact heq ▸ deliver_effect op dst cap s.draws hcount
  · exact heq ▸ .fails op.instr s.draws .timeout rfl
  · refine heq ▸ .waits op.instr s.draws _ fun _ => ?_
    simp only [Phase.ok, decide_eq_true_eq]
    exact ⟨hdst, hcap, htmo⟩

theorem getterStep_effect (op : Getter) (s : State) : ExecEffect s op.instr (getterStep op s) := by
  rcases getterStep_cases op s with ⟨dst, cap, t, -, hwait⟩ | ⟨-, hfirst⟩
  · rw [hwait]
    rcases waitStep_cases op dst cap t s with ⟨hcount, heq⟩ | ⟨-, -, heq⟩ | ⟨-, -, heq⟩
    · exact heq ▸ deliver_effect op dst cap (s.draws + 1) hcount
    · exact heq ▸ .fails op.instr (s.draws + 1) .timeout rfl
    · exact heq ▸ .waits op.instr (s.draws + 1) s.phase id
  · exact hfirst ▸ getterFirst_effect op _ _ _ s

/-- What a step of an instruction can do. -/
theorem exec_effect {i : Instr} {s t : State} (h : exec i s = .next t) : ExecEffect s i t := by
  cases i with
  | pushBytes => exact execPushBytes_effect h
  | pool => exact execPool_effect h
  | crcUpdate byte seed => injection h with h; exact h ▸ .answers _ _ nofun nofun nofun
  | hasNewFrame => injection h with h; exact h ▸ .answers _ _ nofun nofun nofun
  | countFrame => injection h with h; exact h ▸ .answers _ _ nofun nofun nofun
  | encode => injection h with h; exact h ▸ encodeChecked_effect _ _ _ _ s
  | getOldest => injection h with h; exact h ▸ getterStep_effect .getOldest s
  | getLatest => injection h with h; exact h ▸ getterStep_effect .getLatest s
  | removeOldest => injection h with h; exact h ▸ getterStep_effect .removeOldest s
  | removeLatest => injection h with h; exact h ▸ getterStep_effect .removeLatest s
  | getDataByte => injection h with h; exact h ▸ getterStep_effect .getDataByte s
  | pushByte data ignored => injection h with h; exact h ▸ .pushes data ignored

/-! ### The eviction of a delivery, field by field -/

section eviction

variable (s : State) (op : Getter)

@[simp] theorem State.evictSelected_mem : (s.evictSelected op).mem = s.mem := by cases op <;> rfl
@[simp] theorem State.evictSelected_arg0 : (s.evictSelected op).arg0 = s.arg0 := by cases op <;> rfl
@[simp] theorem State.evictSelected_arg1 : (s.evictSelected op).arg1 = s.arg1 := by cases op <;> rfl
@[simp] theorem State.evictSelected_arg2 : (s.evictSelected op).arg2 = s.arg2 := by cases op <;> rfl
@[simp] theorem State.evictSelected_arg3 : (s.evictSelected op).arg3 = s.arg3 := by cases op <;> rfl
@[simp] theorem State.evictSelected_buf : (s.evictSelected op).buf = s.buf := by cases op <;> rfl
@[simp] theorem State.evictSelected_head : (s.evictSelected op).head = s.head := by cases op <;> rfl
@[simp] theorem State.evictSelected_procTail : (s.evictSelected op).procTail = s.procTail := by cases op <;> rfl
@[simp] theorem State.evictSelected_parseStart : (s.evictSelected op).parseStart = s.parseStart := by cases op <;> rfl
@[simp] theorem State.evictSelected_desc : (s.evictSelected op).desc = s.desc := by cases op <;> rfl

/-- R215, R216: a getter that is not a remove evicts nothing. -/
theorem State.evictSelected_of_get (ho : op ≠ .removeOldest) (hl : op ≠ .removeLatest) : s.evictSelected op = s := by
  cases op with
  | removeOldest => exact absurd rfl ho
  | removeLatest => exact absurd rfl hl
  | getOldest => rfl
  | getLatest => rfl
  | getDataByte => rfl

end eviction

theorem Getter.instr_ne_pool (op : Getter) : op.instr ≠ .pool := by cases op <;> nofun
theorem Getter.instr_ne_pushBytes (op : Getter) : op.instr ≠ .pushBytes := by cases op <;> nofun
theorem Getter.instr_ne_pushByte (op : Getter) (d : Byte) (x : BitVec 24) : op.instr ≠ .pushByte d x := by
  cases op <;> nofun

/-! ### The result registers -/

theorem ExecEffect.code {i : Instr} {s t : State} (h : ExecEffect s i t) (hne : t.code ≠ s.code) : t.phase = .idle := by
  cases h with
  | fails | ends | answers | encodes | delivers => rfl
  | waits => exact absurd rfl hne
  | pushes d x => exact absurd (s.push_code d) hne
  | pushesNext b p hp => exact absurd (s.push_code b) hne
  | pools => exact absurd s.poolStep_code hne

theorem ExecEffect.result0 {i : Instr} {s t : State} (h : ExecEffect s i t) (hne : t.result0 ≠ s.result0) :
    t.phase = .idle ∧ t.code = .ok ∧ i ≠ .pool ∧ i ≠ .pushBytes ∧ ∀ d x, i ≠ .pushByte d x := by
  cases h with
  | answers _ v hpool hpushes hpush => exact ⟨rfl, rfl, hpool, hpushes, hpush⟩
  | encodes => exact ⟨rfl, rfl, nofun, nofun, nofun⟩
  | delivers op => exact ⟨rfl, rfl, op.instr_ne_pool, op.instr_ne_pushBytes, op.instr_ne_pushByte⟩
  | fails | ends | waits => exact absurd rfl hne
  | pushes d x => exact absurd (s.push_result0 d) hne
  | pushesNext b p hp => exact absurd (s.push_result0 b) hne
  | pools => exact absurd s.poolStep_result0 hne

theorem ExecEffect.result1 {i : Instr} {s t : State} (h : ExecEffect s i t) (hne : t.result1 ≠ s.result1) :
    t.phase = .idle ∧ t.code = .ok ∧
      (i = .getOldest ∨ i = .getLatest ∨ i = .removeOldest ∨ i = .removeLatest) := by
  cases h with
  | delivers op drawn dst f =>
    refine ⟨rfl, rfl, ?_⟩
    cases op with
    | getDataByte => exact absurd rfl hne
    | getOldest => exact .inl rfl
    | getLatest => exact .inr (.inl rfl)
    | removeOldest => exact .inr (.inr (.inl rfl))
    | removeLatest => exact .inr (.inr (.inr rfl))
  | fails | ends | answers | encodes | waits => exact absurd rfl hne
  | pushes d x => exact absurd (s.push_result1 d) hne
  | pushesNext b p hp => exact absurd (s.push_result1 b) hne
  | pools => exact absurd s.poolStep_result1 hne

/-- Settles O51, outcome by outcome. -/
theorem resultsAreWrittenOnlyOnOk : Obligations.ResultsAreWrittenOnlyOnOk := fun _ _ _ h =>
  ⟨(exec_effect h).code, (exec_effect h).result0, (exec_effect h).result1⟩

/-! ### Who writes what -/

theorem ExecEffect.args {i : Instr} {s t : State} (h : ExecEffect s i t) :
    t.arg0 = s.arg0 ∧ t.arg1 = s.arg1 ∧ t.arg2 = s.arg2 ∧ t.arg3 = s.arg3 := by
  cases h with
  | fails | ends | answers | encodes | waits => exact ⟨rfl, rfl, rfl, rfl⟩
  | delivers op drawn dst f => simp [State.handOver]
  | pushes | pushesNext | pools => simp

theorem ExecEffect.buffer {i : Instr} {s t : State} (h : ExecEffect s i t) (hpushes : i ≠ .pushBytes)
    (hpush : ∀ d x, i ≠ .pushByte d x) : t.buf = s.buf ∧ t.head = s.head := by
  cases h with
  | fails | ends | answers | encodes | waits => exact ⟨rfl, rfl⟩
  | delivers op drawn dst f => simp [State.handOver]
  | pools => simp
  | pushes d x => exact absurd rfl (hpush d x)
  | pushesNext => exact absurd rfl hpushes

theorem ExecEffect.parser {i : Instr} {s t : State} (h : ExecEffect s i t) (hpushes : i ≠ .pushBytes)
    (hpush : ∀ d x, i ≠ .pushByte d x) (hpool : i ≠ .pool) :
    t.procTail = s.procTail ∧ t.parseStart = s.parseStart ∧ t.desc = s.desc := by
  cases h with
  | fails | ends | answers | encodes | waits => exact ⟨rfl, rfl, rfl⟩
  | delivers op drawn dst f => simp [State.handOver]
  | pools => exact absurd rfl hpool
  | pushes d x => exact absurd rfl (hpush d x)
  | pushesNext => exact absurd rfl hpushes

theorem ExecEffect.indices {i : Instr} {s t : State} (h : ExecEffect s i t) (hpushes : i ≠ .pushBytes)
    (hpush : ∀ d x, i ≠ .pushByte d x) (hpool : i ≠ .pool) (ho : i ≠ .removeOldest) (hl : i ≠ .removeLatest) :
    t.frameHead = s.frameHead ∧ t.frameTail = s.frameTail ∧ t.frameCount = s.frameCount := by
  cases h with
  | fails | ends | answers | encodes | waits => exact ⟨rfl, rfl, rfl⟩
  | delivers op drawn dst f =>
    rw [State.evictSelected_of_get _ op (fun h => ho (by rw [h]; rfl)) (fun h => hl (by rw [h]; rfl))]
    exact ⟨rfl, rfl, rfl⟩
  | pools => exact absurd rfl hpool
  | pushes d x => exact absurd rfl (hpush d x)
  | pushesNext => exact absurd rfl hpushes

theorem ExecEffect.memory {i : Instr} {s t : State} (h : ExecEffect s i t) (hne : t.mem ≠ s.mem) :
    t.code = .ok ∧ t.phase = .idle ∧ (i = .encode ∨ i = .getOldest ∨ i = .getLatest ∨ i = .removeOldest ∨
      i = .removeLatest ∨ i = .getDataByte) := by
  cases h with
  | encodes => exact ⟨rfl, rfl, .inl rfl⟩
  | delivers op => exact ⟨rfl, rfl, by cases op <;> simp [Getter.instr]⟩
  | fails | ends | answers | waits => exact absurd rfl hne
  | pushes d x => exact absurd (s.push_mem d) hne
  | pushesNext b p hp => exact absurd (s.push_mem b) hne
  | pools => exact absurd s.poolStep_mem hne

/-- Settles O52, outcome by outcome. -/
theorem eachInstructionWritesOnlyItsOwn : Obligations.EachInstructionWritesOnlyItsOwn := by
  intro i s t h
  have he := exec_effect h
  obtain ⟨h0, h1, h2, h3⟩ := he.args
  refine ⟨h0, h1, h2, h3, fun hpushes hpush => ?_, he.memory⟩
  obtain ⟨hbuf, hhead⟩ := he.buffer hpushes hpush
  refine ⟨hbuf, hhead, fun hpool => ?_⟩
  obtain ⟨htail, hopen, hdesc⟩ := he.parser hpushes hpush hpool
  exact ⟨htail, hopen, hdesc, he.indices hpushes hpush hpool⟩

end Sys2Proof.Machine
end

