-- ==== Sys2Proof/Proofs/RingMoves.lean ====
section
/-! Every step is a turn, and what a turn can do to the two rings, said once: the moves by which the invariants over the
rings are proved. -/

namespace Sys2Proof.Machine

/-- `t` has the parameters, the Byte Stream Buffer, its positions and the Frame Index of `s`. -/
def SameRings (s t : State) : Prop :=
  t = { t with
    cfg := s.cfg, buf := s.buf, head := s.head, procTail := s.procTail, parseStart := s.parseStart
    desc := s.desc, frameHead := s.frameHead, frameTail := s.frameTail, frameCount := s.frameCount }

/-- What a turn does to the rings (`runTurn_ringMove`). -/
inductive RingMove (s t : State) : Prop where
  | stays (h : SameRings s t)
  | pushes (b : Byte) (h : SameRings (s.push b) t)
  | pools (hne : s.procTail ≠ s.head) (h : SameRings s.poolStep t)
  | evictsOldest (hcount : 0 < s.frameCount) (h : SameRings s.evictOldest t)
  | evictsLatest (hcount : 0 < s.frameCount) (h : SameRings s.evictLatest t)
  | resets (h : SameRings (State.init s.cfg) t)

theorem ExecEffect.ringMove {i : Instr} {s t : State} (h : ExecEffect s i t) : RingMove s t := by
  cases h with
  | fails | ends | answers | encodes | waits => exact .stays rfl
  | pushes d x => exact .pushes d rfl
  | pushesNext b p => exact .pushes b rfl
  | pools hne => exact .pools hne rfl
  | delivers op drawn dst f hcount =>
    cases op with
    | removeOldest => exact .evictsOldest hcount rfl
    | removeLatest => exact .evictsLatest hcount rfl
    | getOldest => exact .stays rfl
    | getLatest => exact .stays rfl
    | getDataByte => exact .stays rfl

/-- R45: a CMD write latches a command in IDLE and else changes nothing. -/
theorem State.issue_cases (s : State) (w : Word) :
    s.issue w = { s with phase := .ready w s.arg0 s.arg1 s.arg2 s.arg3 } ∨ s.issue w = s := by
  by_cases hidle : s.phase = .idle
  · exact .inl (by simp [State.issue, hidle])
  · exact .inr (State.issue_of_busy w hidle)

/-- What a turn can do, over the instructions and the agents. -/
inductive TurnEffect (s : State) : State → Prop where
  /-- the consumer sequencer runs an instruction (R44) -/
  | executes (i : Instr) (t : State) (h : ExecEffect s i t) : TurnEffect s t
  /-- an illegal word (R84) -/
  | rejects : TurnEffect s (s.complete .generic)
  /-- the Pool agent (R172) -/
  | pools (hne : s.procTail ≠ s.head) : TurnEffect s s.poolStep
  /-- a host access but for PUSH (R37, R45) -/
  | accesses (p : Phase) (hp : s.phase.ok = true → p.ok = true) (a0 a1 a2 a3 v : Word) :
      TurnEffect s { s with phase := p, arg0 := a0, arg1 := a1, arg2 := a2, arg3 := a3, hostData := v }
  /-- a host store -/
  | stores (addr : Word) (v : Byte) : TurnEffect s { s with mem := memWrite s.mem addr.toNat v }
  /-- a later reset (R270) -/
  | resets : TurnEffect s s.resetAgain

theorem TurnEffect.refl (s : State) : TurnEffect s s :=
  .accesses s.phase id s.arg0 s.arg1 s.arg2 s.arg3 s.hostData

theorem consumerStep_effect {s t : State} (h : consumerStep s = .next t) : TurnEffect s t := by
  unfold consumerStep at h
  split at h
  · injection h with h; exact h ▸ .refl s
  · injection h with h; exact h ▸ .rejects
  · exact .executes _ t (exec_effect h)

theorem writeReg_effect {s t : State} {r : Reg} {v : Word} (h : writeReg r v s = .next t) : TurnEffect s t := by
  cases r with
  | push => exact .executes (decodePush v) t (exec_effect h)
  | cmd =>
    injection h with h
    subst h
    rcases s.issue_cases v with heq | heq
    · exact heq ▸ .accesses (.ready v s.arg0 s.arg1 s.arg2 s.arg3) (fun _ => rfl) s.arg0 s.arg1 s.arg2 s.arg3 s.hostData
    · exact heq.symm ▸ .refl s
  | arg0 => injection h with h; exact h ▸ .accesses s.phase id v s.arg1 s.arg2 s.arg3 s.hostData
  | arg1 => injection h with h; exact h ▸ .accesses s.phase id s.arg0 v s.arg2 s.arg3 s.hostData
  | arg2 => injection h with h; exact h ▸ .accesses s.phase id s.arg0 s.arg1 v s.arg3 s.hostData
  | arg3 => injection h with h; exact h ▸ .accesses s.phase id s.arg0 s.arg1 s.arg2 v s.hostData
  | status | result0 | result1 => injection h with h; exact h ▸ .refl s

theorem windowWrite_effect {s t : State} {offset : Nat} {width : AccessWidth} {v : Word}
    (h : windowWrite offset width v s = .next t) : TurnEffect s t := by
  unfold windowWrite at h
  split at h
  · exact writeReg_effect h
  · injection h with h; exact h ▸ .refl s

theorem State.poolAgentReady_iff (s : State) :
    s.poolAgentReady = true ↔ s.cfg.poolMode = .background ∧ s.procTail ≠ s.head := by
  simp only [State.poolAgentReady, Bool.and_eq_true, decide_eq_true_eq]

theorem poolAgentStep_effect (s : State) : TurnEffect s (poolAgentStep s) := by
  unfold poolAgentStep
  split
  · rename_i hready
    exact .pools (s.poolAgentReady_iff.1 hready).2
  · exact .refl s

/-- What a turn can do. -/
theorem runTurn_effect {turn : Turn} {s t : State} (h : runTurn turn s = .next t) : TurnEffect s t := by
  cases turn with
  | consumer => exact consumerStep_effect h
  | poolAgent => injection h with h; exact h ▸ poolAgentStep_effect s
  | hostRead offset width =>
    injection h with h
    exact h ▸ .accesses s.phase id s.arg0 s.arg1 s.arg2 s.arg3 (s.windowRead offset width)
  | hostStore addr v => injection h with h; exact h ▸ .stores addr v
  | reset => injection h with h; exact h ▸ .resets
  | hostWrite offset width v => exact windowWrite_effect h

/-- The rings after a turn. -/
theorem TurnEffect.ringMove {s t : State} (h : TurnEffect s t) : RingMove s t := by
  cases h with
  | executes i _ h => exact h.ringMove
  | pools hne => exact .pools hne rfl
  | resets => exact .resets rfl
  | rejects | accesses | stores => exact .stays rfl

/-! ### The turn of a step -/

/-- Which turn a step takes, and the turns to come and the count of draws it leaves to it. -/
structure Choice where
  turn : Turn
  rest : List Turn
  drawn : Nat

/-- The choice of the block on its own (R22, log 7). -/
def State.ownChoice (s : State) : Choice :=
  if s.phase.busy then
    if s.poolAgentReady then
      if Config.freeTurn s.draws then ⟨.consumer, s.schedule, s.draws + 1⟩ else ⟨.poolAgent, s.schedule, s.draws + 1⟩
    else ⟨.consumer, s.schedule, s.draws⟩
  else ⟨.poolAgent, s.schedule, s.draws⟩

/-- The choice when the schedule is empty (log 23). -/
def State.freeChoice (s : State) : Choice :=
  match s.environment with
  | .silent => s.ownChoice
  | .free =>
    match Config.outsideTurn s.draws with
    | some t => ⟨t, s.schedule, s.draws + 1⟩
    | none => { s with draws := s.draws + 1 }.ownChoice

/-- The choice of a step. -/
def State.choice (s : State) : Choice :=
  match s.schedule with
  | [] => s.freeChoice
  | t :: rest => ⟨t, rest, s.draws⟩

theorem ownTurn_eq_runTurn (s : State) :
    ownTurn s = runTurn s.ownChoice.turn { s with schedule := s.ownChoice.rest, draws := s.ownChoice.drawn } := by
  unfold ownTurn State.ownChoice
  split_ifs <;> rfl

theorem freeRun_eq_runTurn (s : State) :
    freeRun s = runTurn s.freeChoice.turn { s with schedule := s.freeChoice.rest, draws := s.freeChoice.drawn } := by
  obtain henv | henv : s.environment = .silent ∨ s.environment = .free := by cases s.environment <;> simp
  · have hchoice : s.freeChoice = s.ownChoice := by simp only [State.freeChoice, henv]
    rw [freeRun_silent henv, hchoice]
    exact ownTurn_eq_runTurn s
  · cases hturn : Config.outsideTurn s.draws with
    | some t =>
      have hchoice : s.freeChoice = ⟨t, s.schedule, s.draws + 1⟩ := by simp only [State.freeChoice, henv, hturn]
      rw [freeRun_outside henv hturn, hchoice]
    | none =>
      have hchoice : s.freeChoice = { s with draws := s.draws + 1 }.ownChoice := by
        simp only [State.freeChoice, henv, hturn]
      rw [freeRun_own henv hturn, hchoice]
      exact ownTurn_eq_runTurn { s with draws := s.draws + 1 }

/-- R22: every step is a turn of some agent, whatever the schedule and the environment say. -/
theorem step_eq_runTurn {s : State} (hwf : s.cfg.wf = true) :
    step s = runTurn s.choice.turn { s with schedule := s.choice.rest, draws := s.choice.drawn } := by
  rw [step, if_pos hwf]
  cases hsched : s.schedule with
  | nil =>
    have hchoice : s.choice = s.freeChoice := by simp only [State.choice, hsched]
    rw [hchoice]
    exact freeRun_eq_runTurn s
  | cons t rest =>
    have hchoice : s.choice = ⟨t, rest, s.draws⟩ := by simp only [State.choice, hsched]
    rw [hchoice]

/-- What a step can do: a turn, from the same state but for the turns to come and the draws. -/
theorem step_effect {s t : State} (h : step s = .next t) :
    TurnEffect { s with schedule := s.choice.rest, draws := s.choice.drawn } t := by
  rw [step_eq_runTurn (wf_of_step h)] at h
  exact runTurn_effect h

end Sys2Proof.Machine
end

