-- ==== Sys2Proof/Proofs/MachineInvariant.lean ====
section
/-! The invariant of the machine: the rings' part goes along the ring moves, the rest along the turns. -/

namespace Sys2Proof.Machine

/-! ### What the rings' fields decide is the same on the same rings -/

theorem SameRings.cfg_eq {s t : State} (h : SameRings s t) : t.cfg = s.cfg := by rw [h]

theorem SameRings.ringsOk {s t : State} (h : SameRings s t) (hs : s.ringsOk) : t.ringsOk := by
  rw [h]; exact hs

theorem SameRings.drainedOk {s t : State} (h : SameRings s t) (hs : s.drainedOk) : t.drainedOk := by
  rw [h]; exact hs

theorem State.init_ringsOk {c : Config} (h : c.wf = true) : (State.init c).ringsOk := by
  obtain ⟨⟨hn, -⟩, ⟨hk, -⟩, -⟩ := c.wf_iff_r7.1 h
  refine ⟨⟨hn, hn, rfl, rfl⟩, hk, Nat.zero_le _, ?_, rfl, rfl⟩
  simp

theorem RingMove.cfg_eq {s t : State} (h : RingMove s t) : t.cfg = s.cfg := by
  cases h with
  | stays h => exact h.cfg_eq
  | pushes b h => rw [h.cfg_eq, State.push_cfg]
  | pools hne h => rw [h.cfg_eq, State.poolStep_cfg]
  | evictsOldest hcount h => exact h.cfg_eq
  | evictsLatest hcount h => exact h.cfg_eq
  | resets h => exact h.cfg_eq

/-- R8, R29: every move keeps both rings in range. -/
theorem RingMove.ringsOk {s t : State} (h : RingMove s t) (hwf : s.cfg.wf = true) (hs : s.ringsOk) : t.ringsOk := by
  cases h with
  | stays h => exact h.ringsOk hs
  | pushes b h => exact h.ringsOk (State.push_ringsOk hs b)
  | pools hne h => exact h.ringsOk (State.poolStep_ringsOk hs)
  | evictsOldest hcount h => exact h.ringsOk ⟨hs.1, State.evictOldest_indexOk hs.2 hcount⟩
  | evictsLatest hcount h => exact h.ringsOk ⟨hs.1, State.evictLatest_indexOk hs.2 hcount⟩
  | resets h => exact h.ringsOk (State.init_ringsOk hwf)

/-- R141: every move leaves the unparsed region empty in AFTER_PUSH mode, where no pool step stands on its own. -/
theorem RingMove.drainedOk {s t : State} (h : RingMove s t) (hrings : s.ringsOk) (hs : s.drainedOk) : t.drainedOk := by
  cases h with
  | stays h => exact h.drainedOk hs
  | pushes b h => exact h.drainedOk (State.push_drainedOk hrings b)
  | pools hne h => exact h.drainedOk fun hmode => absurd (hs (s.poolStep_cfg ▸ hmode)) hne
  | evictsOldest hcount h => exact h.drainedOk hs
  | evictsLatest hcount h => exact h.drainedOk hs
  | resets h => exact h.drainedOk fun _ => rfl

/-! ### Host memory, the phase and CODE -/

/-- The part of the invariant outside the rings. -/
abbrev State.controlOk (s : State) : Prop := s.memoryOk ∧ s.phase.ok = true ∧ s.codeOk

theorem StatusCode.produced_of_isFailure {c : StatusCode} (h : c.isFailure = true) :
    c ≠ .crcMismatch ∧ c ≠ .empty := by
  cases c <;> simp [StatusCode.isFailure] at h ⊢

/-- An admitted region, empty or not, can be written. -/
theorem memWriteBytes_wf_of_admit {c : Config} {m : List Host.Cell} {a : Nat} {bs : List Byte}
    (h : Memory.wf m = true) (hadmit : memAdmit c a bs.length = true) : Memory.wf (memWriteBytes m a bs) = true := by
  cases bs with
  | nil => exact h
  | cons b rest => exact memWriteBytes_wf _ h (memAdmit_le hadmit (Nat.succ_pos _))

theorem ExecEffect.controlOk {i : Instr} {s t : State} (h : ExecEffect s i t) (hs : s.controlOk) : t.controlOk := by
  obtain ⟨hmem, hphase, hcode⟩ := hs
  cases h with
  | fails _ drawn c hc => exact ⟨hmem, rfl, StatusCode.produced_of_isFailure hc⟩
  | ends | answers => exact ⟨hmem, rfl, nofun, nofun⟩
  | encodes dst out v hadmit => exact ⟨memWriteBytes_wf_of_admit hmem hadmit, rfl, nofun, nofun⟩
  | delivers op drawn dst f hcount hadmit =>
    refine ⟨?_, rfl, nofun, nofun⟩
    simp only [State.memoryOk, State.complete_mem, State.evictSelected_mem]
    exact memWriteBytes_wf_of_admit hmem hadmit
  | waits _ drawn p hp => exact ⟨hmem, hp hphase, hcode⟩
  | pushes d x =>
    simp only [State.controlOk, State.memoryOk, State.codeOk, State.push_mem, State.push_phase, State.push_code]
    exact ⟨hmem, hphase, hcode⟩
  | pushesNext b p hp =>
    simp only [State.controlOk, State.memoryOk, State.codeOk, State.push_mem, State.push_code]
    exact ⟨hmem, hp hphase, hcode⟩
  | pools hne =>
    simp only [State.controlOk, State.memoryOk, State.codeOk, State.poolStep_mem, State.poolStep_code]
    exact ⟨hmem, rfl, hcode⟩

theorem TurnEffect.controlOk {s t : State} (h : TurnEffect s t) (hs : s.controlOk) : t.controlOk := by
  obtain ⟨hmem, hphase, hcode⟩ := id hs
  cases h with
  | executes i _ h => exact h.controlOk hs
  | rejects => exact ⟨hmem, rfl, nofun, nofun⟩
  | pools hne =>
    simp only [State.controlOk, State.memoryOk, State.codeOk, State.poolStep_mem, State.poolStep_phase,
      State.poolStep_code]
    exact hs
  | accesses p hp => exact ⟨hmem, hp hphase, hcode⟩
  | stores addr v => exact ⟨memWrite_wf v hmem addr.isLt, hphase, hcode⟩
  | resets => exact ⟨hmem, rfl, nofun, nofun⟩

theorem State.inv_iff (s : State) :
    s.Inv ↔ s.cfg.wf = true ∧ s.ringsOk ∧ s.drainedOk ∧ s.controlOk := by
  simp only [State.Inv, State.ringsOk, State.controlOk]
  tauto

theorem TurnEffect.inv {s t : State} (h : TurnEffect s t) (hs : s.Inv) : t.Inv := by
  obtain ⟨hwf, hrings, hdrained, hcontrol⟩ := s.inv_iff.1 hs
  refine t.inv_iff.2 ⟨?_, h.ringMove.ringsOk hwf hrings, h.ringMove.drainedOk hrings hdrained, h.controlOk hcontrol⟩
  rw [h.ringMove.cfg_eq]
  exact hwf

/-- Settles O53: the turns to come and the draws stand outside the invariant, and every turn keeps it. -/
theorem stepKeepsTheInvariant : Obligations.StepKeepsTheInvariant := fun _ _ hs h => (step_effect h).inv hs

end Sys2Proof.Machine
end

