-- ==== Sys2Proof/Proofs/StrictInvariant.lean ====
section
/-! The STRICT invariant (R35, R36, R142, R201): live headers intact and in the order they were written, the open header,
and every live frame extractable. -/

namespace Sys2Proof.Machine

/-! ### Ages under the lists of live descriptors (R36, R143) -/

/-- A descriptor is written no earlier than any other of a list in order of writing: it is the first. -/
theorem head?_of_maximal {age : Descriptor → Nat} {l : List Descriptor}
    (hord : (l.map age).Pairwise (fun a b => b < a)) {d : Descriptor} (hd : d ∈ l) (hmax : ∀ e ∈ l, age e ≤ age d) :
    l.head? = some d := by
  cases l with
  | nil => cases hd
  | cons e rest =>
    rcases List.mem_cons.1 hd with rfl | hrest
    · rfl
    · obtain ⟨hyounger, -⟩ := List.pairwise_cons.1 hord
      have := hyounger _ (List.mem_map_of_mem hrest)
      have := hmax e List.mem_cons_self
      omega

theorem dropIfStartsAt_sublist (pos : Nat) (l : List Descriptor) : (dropIfStartsAt pos l).Sublist l := by
  cases l with
  | nil => exact List.Sublist.refl _
  | cons e rest =>
    rw [dropIfStartsAt]
    split
    · exact List.sublist_cons_self _ _
    · exact List.Sublist.refl _

/-- R143: the check at a position as old as any in the list leaves no descriptor that starts there. -/
theorem startPos_ne_of_mem_dropIfStartsAt {age : Nat → Nat} {l : List Descriptor} {pos : Nat}
    (hord : (l.map fun d => age d.startPos).Pairwise (fun a b => b < a)) (hmax : ∀ e ∈ l, age e.startPos ≤ age pos)
    {d : Descriptor} (hd : d ∈ dropIfStartsAt pos l) : d.startPos ≠ pos := by
  intro hpos
  have hfirst := head?_of_maximal hord ((dropIfStartsAt_sublist pos l).subset hd) (by rw [hpos]; exact hmax)
  obtain ⟨rest, rfl⟩ : ∃ rest, l = d :: rest := by
    cases l with
    | nil => cases hfirst
    | cons e rest => exact ⟨rest, by rw [Option.some.inj hfirst]⟩
  rw [dropIfStartsAt, if_pos hpos] at hd
  obtain ⟨hyounger, -⟩ := List.pairwise_cons.1 hord
  exact Nat.lt_irrefl _ (hyounger _ (List.mem_map_of_mem hd))

theorem succMod_injective {m i j : Nat} (hi : i < m) (hj : j < m) (h : succMod m i = succMod m j) : i = j := by
  rw [← predMod_succMod hi, h, predMod_succMod hj]

/-- R36: the position after `head` is the next oldest. -/
theorem State.age_succ_head {s : State} (hh : s.head < s.cfg.n) (hne : succMod s.cfg.n s.head ≠ s.head) :
    s.age (succMod s.cfg.n s.head) + 1 = s.cfg.n := by
  have hround := distMod_succ_self hh
  have hshorter := distMod_succ_left (succMod_lt s.head (by omega)) hh hne
  unfold State.age
  omega

/-- With a region shorter than the age of `p`, the walk from `p` comes to the region before it comes to `head`. -/
theorem State.procTail_before_head {s : State} (h : s.ringOk) {p : Nat}
    (hage : s.unparsed < s.age p) :
    distMod s.cfg.n (succMod s.cfg.n p) s.procTail ≤ distMod s.cfg.n (succMod s.cfg.n p) s.head := by
  obtain ⟨hhead, htail, -⟩ := h
  have hs := succMod_lt p (by omega : 0 < s.cfg.n)
  unfold State.unparsed State.age at hage
  rw [distMod_eq hs hhead] at hage ⊢
  rw [distMod_eq htail hhead] at hage
  rw [distMod_eq hs htail]
  split_ifs at hage ⊢ <;> omega

/-- Settles O56: with the starts in order of writing, the oldest of N positions, or of N − 1, is the first. -/
theorem oldestCheckIsEnough : Obligations.OldestCheckIsEnough := by
  rintro s d ⟨-, hring, hindex, -⟩ ⟨-, hord, -⟩
  obtain ⟨hhead, -⟩ := id hring
  have hn : 0 < s.cfg.n := by omega
  have hage : s.age s.head = s.cfg.n := (State.age_eq_n hhead hhead).2 rfl
  refine ⟨fun hd hpos => head?_of_maximal hord hd fun e _ => ?_, fun hd hpos => ?_⟩
  · rw [hpos, hage]; exact (State.age_bounds hn _).2
  · have hsub := dropIfStartsAt_sublist s.head s.live
    have hnone : ∀ e ∈ dropIfStartsAt s.head s.live, e.startPos ≠ s.head := fun e he =>
      startPos_ne_of_mem_dropIfStartsAt hord (fun _ _ => hage ▸ (State.age_bounds hn _).2) he
    refine head?_of_maximal (age := fun e => s.age e.startPos) (hord.sublist (hsub.map _)) hd fun e he => ?_
    have hnext := State.age_succ_head hhead (hpos ▸ hnone d hd)
    have hbound := (State.age_bounds hn e.startPos).2
    have hother := mt (State.age_eq_n (State.live_startPos_lt hindex hn (hsub.subset he)) hhead).1 (hnone e he)
    simp only [hpos]
    omega

/-! ### Extraction (R201) -/

/-- The bytes before the first TRAILER. -/
theorem takeWhile_ne_of_split {x : Byte} {span rest : List Byte} (h : x ∉ span) :
    (span ++ x :: rest).takeWhile (fun b => decide (b ≠ x)) = span := by
  rw [List.takeWhile_append_of_pos (fun b hb => decide_eq_true (ne_of_mem_of_not_mem hb h)),
    List.takeWhile_cons_of_neg (by simp), List.append_nil]

/-- R201: an extraction succeeds exactly when a raw TRAILER stands before `head` and the span up to the first one unstuffs
to three bytes or more. -/
theorem State.extract_eq_some_iff {s : State} {p : Nat} {f : Extracted} :
    s.extract p = some f ↔
      ∃ span rest u, s.ringSpan (succMod s.cfg.n p) s.head = span ++ s.cfg.trailer :: rest ∧ s.cfg.trailer ∉ span ∧
        unstuff s.cfg span = some u ∧ 3 ≤ u.length ∧ f = ⟨spanBody u, s.bufAt p, s.cfg.trailer⟩ := by
  unfold State.extract
  generalize s.ringSpan (succMod s.cfg.n p) s.head = region
  by_cases htrailer : s.cfg.trailer ∈ region
  · obtain ⟨span, rest, rfl, hspan⟩ := List.eq_append_cons_of_mem htrailer
    simp only [takeWhile_ne_of_split hspan, List.drop_left]
    constructor
    · intro h
      split at h
      · cases h
      · rename_i u hu
        split_ifs at h with hlen
        exact ⟨span, rest, u, rfl, hspan, hu, Nat.not_lt.1 hlen, (Option.some.inj h).symm⟩
    · rintro ⟨span', rest', u, hregion, hspan', hu, hlen, rfl⟩
      have hsame : span = span' := by
        rw [← takeWhile_ne_of_split (rest := rest) hspan, hregion, takeWhile_ne_of_split hspan']
      simp only [hsame, hu, if_neg (Nat.not_lt.2 hlen)]
  · have hall : region.takeWhile (fun b => decide (b ≠ s.cfg.trailer)) = region :=
      List.takeWhile_eq_self_iff.2 fun b hb => decide_eq_true (ne_of_mem_of_not_mem hb htrailer)
    simp only [hall, List.drop_length]
    constructor
    · intro h; cases h
    · rintro ⟨span, rest, u, rfl, -⟩
      exact absurd (by simp) htrailer

/-- A frame that can be extracted stays so when the ring grows by a byte at `head`. -/
theorem State.extract_of_grown {s t : State} (hc : t.cfg = s.cfg) {p : Nat} {b : Byte} {f : Extracted}
    (hspan : t.ringSpan (succMod s.cfg.n p) t.head = s.ringSpan (succMod s.cfg.n p) s.head ++ [b])
    (hp : t.bufAt p = s.bufAt p) (h : s.extract p = some f) : t.extract p = some f := by
  obtain ⟨span, rest, u, hregion, hclear, hu, hlen, rfl⟩ := State.extract_eq_some_iff.1 h
  refine State.extract_eq_some_iff.2 ⟨span, rest ++ [b], u, ?_, ?_⟩
  · rw [hc, hspan, hregion, List.append_assoc, List.cons_append]
  · rw [hc, hp]; exact ⟨hclear, hu, hlen, rfl⟩

/-- R162, R165, R201: the candidate that a TRAILER closes is what extraction finds from its header. -/
theorem State.extract_of_candidate {s : State} {p t : Nat} {u : List Byte} (ht : t < s.cfg.n)
    (hhead : s.head < s.cfg.n) (hne : t ≠ s.head)
    (hbefore : distMod s.cfg.n (succMod s.cfg.n p) t ≤ distMod s.cfg.n (succMod s.cfg.n p) s.head)
    (hclear : s.cfg.trailer ∉ s.ringSpan (succMod s.cfg.n p) t) (htrailer : s.bufAt t = s.cfg.trailer)
    (hu : unstuff s.cfg (s.ringSpan (succMod s.cfg.n p) t) = some u) (hlen : 3 ≤ u.length) :
    s.extract p = some ⟨spanBody u, s.bufAt p, s.cfg.trailer⟩ := by
  refine State.extract_eq_some_iff.2 ⟨_, s.ringSpan (succMod s.cfg.n t) s.head, u, ?_, hclear, hu, hlen, rfl⟩
  rw [State.ringSpan_split (succMod_lt p (by omega)) ht hhead hbefore, State.ringSpan_cons ht hhead hne, htrailer]

theorem three_le_of_spanValid {c : Config} {u : List Byte} (h : spanValid c u = true) : 3 ≤ u.length := by
  simp only [spanValid, Bool.and_eq_true, decide_eq_true_eq] at h
  exact h.1

/-- R28: the first byte of a valid span is the first byte of its body. -/
theorem spanBody_head? {u : List Byte} (h : 3 ≤ u.length) : (spanBody u).head? = some (u.headD 0#8) := by
  match u, h with
  | a :: b :: c :: rest, _ => simp [spanBody]

/-! ### The invariant, descriptor by descriptor -/

/-- What the STRICT invariant says of one live descriptor. -/
def State.frameOk (s : State) (d : Descriptor) : Prop :=
  s.bufAt d.startPos = s.cfg.header ∧ s.unparsed < s.age d.startPos ∧
  (s.extract d.startPos).map (fun f => (f.payload.head?, f.header, f.trailer)) =
    some (some d.idByte, s.cfg.header, s.cfg.trailer)

theorem State.strictInv_iff (s : State) :
    s.StrictInv ↔ (∀ d ∈ s.live, s.frameOk d) ∧ s.startsOrdered ∧ s.openHeaderOk := by
  refine ⟨fun ⟨hheader, hord, hexam, hopen, hframes⟩ =>
      ⟨fun d hd => ⟨hheader d hd, hexam d hd, hframes d hd⟩, hord, hopen⟩, fun ⟨hok, hord, hopen⟩ => ?_⟩
  exact ⟨fun d hd => (hok d hd).1, hord, fun d hd => (hok d hd).2.1, hopen, fun d hd => (hok d hd).2.2⟩

theorem State.openHeaderOk_iff (s : State) : s.openHeaderOk ↔ ∀ p, s.parseStart = some p → s.openHeaderOkAt p := by
  simp only [State.openHeaderOk, Option.mem_toList]

theorem SameRings.strictInv {s t : State} (h : SameRings s t) (hs : s.StrictInv) : t.StrictInv := by
  rw [h]; exact hs

/-- No live descriptor and no open header: nothing to keep. -/
theorem State.strictInv_of_empty {s : State} (hcount : s.frameCount = 0) (hopen : s.parseStart = none) :
    s.StrictInv := by
  have hlive := State.live_eq_nil hcount
  refine s.strictInv_iff.2 ⟨?_, ?_, s.openHeaderOk_iff.2 ?_⟩
  · simp [hlive]
  · simp [State.startsOrdered, hlive]
  · simp [hopen]

/-- Losing live descriptors keeps the invariant. -/
theorem State.strictInv_of_live_sublist {s : State} (hs : s.StrictInv) {tail head count : Nat}
    (hsub : (State.live { s with frameTail := tail, frameHead := head, frameCount := count }).Sublist s.live) :
    State.StrictInv { s with frameTail := tail, frameHead := head, frameCount := count } := by
  obtain ⟨hok, hord, hopen⟩ := s.strictInv_iff.1 hs
  refine (State.strictInv_iff _).2 ⟨fun d hd => hok d (hsub.subset hd), hord.sublist (hsub.map _), fun p hp => ?_⟩
  obtain ⟨hheader, hexam, hyoung, hclear⟩ := hopen p hp
  exact ⟨hheader, hexam, fun d hd => hyoung d (hsub.subset hd), hclear⟩

/-! ### A pool step -/

theorem State.poolStep_bufAt (s : State) (x : Nat) : s.poolStep.bufAt x = s.bufAt x := by
  simp only [State.bufAt, State.poolStep_buf]

theorem State.poolStep_age (s : State) (x : Nat) : s.poolStep.age x = s.age x := by
  simp only [State.age, State.poolStep_cfg, State.poolStep_head]

theorem State.poolStep_ringSpan (s : State) (i j : Nat) : s.poolStep.ringSpan i j = s.ringSpan i j := by
  simp only [State.ringSpan, State.poolStep_buf, State.poolStep_cfg]

theorem State.poolStep_extract (s : State) (p : Nat) : s.poolStep.extract p = s.extract p := by
  simp only [State.extract, State.poolStep_ringSpan, State.poolStep_cfg, State.poolStep_head, State.poolStep_bufAt]

theorem State.frameOk_poolStep {s : State} (h : s.ringOk) (hne : s.procTail ≠ s.head) {d : Descriptor}
    (hd : s.frameOk d) : s.poolStep.frameOk d := by
  obtain ⟨hheader, hexam, hframe⟩ := hd
  have hshorter := State.unparsed_poolStep h hne
  unfold State.frameOk
  rw [State.poolStep_bufAt, State.poolStep_age, State.poolStep_extract, State.poolStep_cfg]
  exact ⟨hheader, by omega, hframe⟩

/-- R165: the descriptor of a candidate that closes here. -/
theorem State.frameOk_of_candidate {s : State} (h : s.ringOk) (hne : s.procTail ≠ s.head) {p : Nat} {u : List Byte}
    (hopen : s.openHeaderOkAt p) (htrailer : s.bufAt s.procTail = s.cfg.trailer)
    (hu : unstuff s.cfg (s.ringSpan (succMod s.cfg.n p) s.procTail) = some u) (hvalid : spanValid s.cfg u = true) :
    s.frameOk ⟨u.headD 0#8, p⟩ := by
  obtain ⟨hheader, hexam, -, hclear⟩ := hopen
  have hlen := three_le_of_spanValid hvalid
  refine ⟨hheader, hexam, ?_⟩
  rw [State.extract_of_candidate h.2.1 h.1 hne (State.procTail_before_head h hexam) hclear htrailer hu hlen,
    Option.map_some, spanBody_head? hlen, hheader]

/-- The next byte to examine is the oldest of the unparsed region. -/
theorem State.age_procTail {s : State} (h : s.ringOk) (hne : s.procTail ≠ s.head) : s.age s.procTail = s.unparsed :=
  distMod_succ_left h.2.1 h.1 hne

/-- R161: the HEADER examined here becomes the open header. -/
theorem State.openHeaderOkAt_procTail {s : State} (h : s.ringOk) (hne : s.procTail ≠ s.head)
    (hheader : s.bufAt s.procTail = s.cfg.header) (hlive : s.poolStep.live = s.live)
    (hok : ∀ d ∈ s.live, s.frameOk d) : s.poolStep.openHeaderOkAt s.procTail := by
  have hshorter := State.unparsed_poolStep h hne
  have hage := State.age_procTail h hne
  have hnext := succMod_lt s.procTail (by have := h.1; omega : 0 < s.cfg.n)
  unfold State.openHeaderOkAt
  rw [hlive, State.poolStep_cfg, State.poolStep_procTail, State.poolStep_ringSpan, State.poolStep_bufAt]
  simp only [State.poolStep_age]
  refine ⟨hheader, by omega, fun d hd => ?_, ?_⟩
  · obtain ⟨-, hexam, -⟩ := hok d hd
    omega
  · rw [State.ringSpan, (distMod_eq_zero hnext hnext).2 rfl]
    exact List.not_mem_nil

/-- R166: an open header stays open past a byte that is no TRAILER. -/
theorem State.openHeaderOkAt_poolStep {s : State} (h : s.ringOk) (hne : s.procTail ≠ s.head) {p : Nat}
    (hp : p < s.cfg.n) (hbyte : s.bufAt s.procTail ≠ s.cfg.trailer) (hlive : s.poolStep.live = s.live)
    (hopen : s.openHeaderOkAt p) : s.poolStep.openHeaderOkAt p := by
  obtain ⟨hheader, hexam, hyoung, hclear⟩ := hopen
  have hshorter := State.unparsed_poolStep h hne
  have hapart : succMod s.cfg.n s.procTail ≠ succMod s.cfg.n p := by
    intro heq
    rw [← succMod_injective h.2.1 hp heq, State.age_procTail h hne] at hexam
    omega
  unfold State.openHeaderOkAt
  rw [hlive, State.poolStep_cfg, State.poolStep_procTail, State.poolStep_ringSpan, State.poolStep_bufAt,
    State.ringSpan_succ (succMod_lt p (by omega)) h.2.1 hapart]
  simp only [State.poolStep_age, List.mem_append, List.mem_singleton, not_or]
  exact ⟨hheader, by omega, hyoung, hclear, hbyte.symm⟩

theorem State.live_poolStep (s : State) : s.poolStep.live = s.examine.live := rfl

theorem State.poolStep_parseStart (s : State) : s.poolStep.parseStart = s.examine.parseStart := rfl

/-- The live descriptors after a candidate closed: the old ones or fewer, and the candidate's when it is valid. -/
theorem State.live_closeCandidate {s : State} (h : s.indexOk) (p t : Nat) :
    (∃ u, unstuff s.cfg (s.ringSpan (succMod s.cfg.n p) t) = some u ∧ spanValid s.cfg u = true ∧
      (s.closeCandidate p t).live.Sublist (s.live ++ [⟨u.headD 0#8, p⟩])) ∨ (s.closeCandidate p t).live = s.live := by
  rcases s.closeCandidate_cases p t with ⟨u, hu, hvalid, heq⟩ | heq
  · refine .inl ⟨u, hu, hvalid, ?_⟩
    rw [heq, State.live_indexInsert h.slots]
    refine List.Sublist.append ?_ (List.Sublist.refl _)
    split
    · exact List.drop_sublist _ _
    · exact List.Sublist.refl _
  · exact .inr (by rw [heq])

/-- A closed candidate is younger than every live descriptor. -/
theorem State.startsOrdered_concat {s : State} {p : Nat} (b : Byte) (hord : s.startsOrdered)
    (hopen : s.openHeaderOkAt p) :
    ((s.live ++ [(⟨b, p⟩ : Descriptor)]).map fun d : Descriptor => s.age d.startPos).Pairwise (fun a b => b < a) := by
  obtain ⟨-, -, hyoung, -⟩ := hopen
  rw [List.map_append, List.pairwise_append]
  refine ⟨hord, List.pairwise_singleton _ _, ?_⟩
  simpa using hyoung

/-- A pool step keeps the STRICT invariant. -/
theorem State.strictInv_poolStep {s : State} (hrings : s.ringsOk) (hne : s.procTail ≠ s.head) (hs : s.StrictInv) :
    s.poolStep.StrictInv := by
  obtain ⟨hring, hindex⟩ := hrings
  obtain ⟨hok, hord, hopen⟩ := s.strictInv_iff.1 hs
  have hopen := s.openHeaderOk_iff.1 hopen
  have hkeep : ∀ d, s.frameOk d → s.poolStep.frameOk d := fun d => State.frameOk_poolStep hring hne
  rw [State.strictInv_iff, State.openHeaderOk_iff, State.startsOrdered]
  simp only [State.poolStep_age]
  rcases s.examine_cases with ⟨hheader, heq⟩ | ⟨p, -, htrailer, hp, heq⟩ | ⟨-, hbyte, heq⟩
  · have hlive : s.poolStep.live = s.live := by rw [State.live_poolStep, heq]; rfl
    have hparse : s.poolStep.parseStart = some s.procTail := by rw [State.poolStep_parseStart, heq]
    rw [hlive, hparse]
    refine ⟨fun d hd => hkeep d (hok d hd), hord, fun q hq => ?_⟩
    obtain rfl := Option.some.inj hq
    exact State.openHeaderOkAt_procTail hring hne hheader hlive hok
  · have hlive : s.poolStep.live = (s.closeCandidate p s.procTail).live := by rw [State.live_poolStep, heq]; rfl
    have hparse : s.poolStep.parseStart = none := by rw [State.poolStep_parseStart, heq]
    rw [hparse, hlive]
    rcases State.live_closeCandidate hindex p s.procTail with ⟨u, hu, hvalid, hsub⟩ | hsame
    · have hnew := State.frameOk_of_candidate hring hne (hopen p hp) htrailer hu hvalid
      refine ⟨fun d hd => hkeep d ?_, (State.startsOrdered_concat _ hord (hopen p hp)).sublist (hsub.map _), nofun⟩
      rcases List.mem_append.1 (hsub.subset hd) with hold | hlast
      · exact hok d hold
      · rw [List.mem_singleton.1 hlast]; exact hnew
    · rw [hsame]
      exact ⟨fun d hd => hkeep d (hok d hd), hord, nofun⟩
  · have hlive : s.poolStep.live = s.live := by rw [State.live_poolStep, heq]
    have hparse : s.poolStep.parseStart = s.parseStart := by rw [State.poolStep_parseStart, heq]
    rw [hlive, hparse]
    refine ⟨fun d hd => hkeep d (hok d hd), hord, fun p hp => ?_⟩
    have hbyte : s.bufAt s.procTail ≠ s.cfg.trailer := hbyte.resolve_right (by rw [hp]; nofun)
    exact State.openHeaderOkAt_poolStep hring hne (hring.parseStart_lt hp) hbyte hlive (hopen p hp)

theorem State.strictInv_drainLoop {s : State} (hrings : s.ringsOk) (hs : s.StrictInv) (fuel : Nat) :
    (s.drainLoop fuel).StrictInv := by
  induction fuel generalizing s with
  | zero => exact hs
  | succ k ih =>
    unfold State.drainLoop
    split
    · exact hs
    · rename_i hne
      exact ih (State.poolStep_ringsOk hrings) (State.strictInv_poolStep hrings hne hs)

/-! ### A push under STRICT -/

theorem State.guardOverwrite_strict {s : State} (hmode : s.cfg.guardMode = .strict) :
    s.guardOverwrite = State.evictIfOverwritten
      { s with parseStart := if s.parseStart = some s.head then none else s.parseStart } s.head := by
  simp only [State.guardOverwrite, hmode]

theorem State.live_guardOverwrite_strict {s : State} (hmode : s.cfg.guardMode = .strict) (ht : s.frameTail < s.cfg.k) :
    s.guardOverwrite.live = dropIfStartsAt s.head s.live := by
  rw [State.guardOverwrite_strict hmode]
  exact State.live_evictIfOverwritten (by exact ht) _

/-- R142: an open header survives a push only when it is not about to be overwritten. -/
theorem State.pushRaw_parseStart_strict {s : State} (hmode : s.cfg.guardMode = .strict) {b : Byte} {p : Nat}
    (hp : (s.pushRaw b).parseStart = some p) : s.parseStart = some p ∧ p ≠ s.head := by
  have hraw : (s.pushRaw b).parseStart = (s.guardOverwrite.setBuf s.head b).evictUnparsed.parseStart := by
    simp [State.pushRaw, State.advanceHead]
  have hguard : s.guardOverwrite.parseStart = some p := by
    rw [hraw] at hp
    rcases State.evictUnparsed_parseStart (s.guardOverwrite.setBuf s.head b) with heq | heq <;> rw [heq] at hp
    · exact hp
    · cases hp
  rw [State.guardOverwrite_strict hmode, State.evictIfOverwritten_parseStart] at hguard
  dsimp only at hguard
  split_ifs at hguard with hhead
  exact ⟨hguard, fun heq => hhead (heq ▸ hguard)⟩

/-- R140 step 6, on the list of live descriptors that steps 1 and 2 leave. -/
theorem State.live_pushRaw {s : State} (hindex : s.indexOk) (b : Byte) :
    (s.pushRaw b).live = dropIfStartsAt (succMod s.cfg.n s.head) s.guardOverwrite.live := by
  have hwritten : ((s.guardOverwrite.setBuf s.head b).evictUnparsed).live = s.guardOverwrite.live := by
    unfold State.evictUnparsed; split <;> rfl
  obtain ⟨htail, -⟩ : ((s.guardOverwrite.setBuf s.head b).evictUnparsed).indexOk :=
    State.evictUnparsed_indexOk (s := s.guardOverwrite.setBuf s.head b) (State.guardOverwrite_indexOk hindex)
  have hsecond := State.live_evictIfOverwritten htail (succMod s.cfg.n s.head)
  rw [← hwritten, ← hsecond]
  simp only [State.pushRaw, State.advanceHead, State.evictUnparsed_cfg, State.evictUnparsed_head, State.setBuf_cfg,
    State.setBuf_head, State.guardOverwrite_cfg, State.guardOverwrite_head]
  rfl

/-- R140, R143: the two checks of a push, on the list of live descriptors. -/
theorem State.live_pushRaw_strict {s : State} (hmode : s.cfg.guardMode = .strict) (hindex : s.indexOk) (b : Byte) :
    (s.pushRaw b).live = dropIfStartsAt (succMod s.cfg.n s.head) (dropIfStartsAt s.head s.live) := by
  rw [State.live_pushRaw hindex, State.live_guardOverwrite_strict hmode hindex.1]

theorem State.bufAt_pushRaw {s : State} {m : Nat} (h : cellsWf unlistedByte 0 m s.buf = true) (b : Byte) (x : Nat) :
    (s.pushRaw b).bufAt x = if x = s.head then b else s.bufAt x := by
  rw [State.bufAt, State.pushRaw_buf]
  exact cellsRead_write _ _ b h

theorem State.pushRaw_bufAt {s : State} (h : s.ringOk) (b : Byte) {x : Nat} (hx : x ≠ s.head) :
    (s.pushRaw b).bufAt x = s.bufAt x := by
  rw [State.bufAt_pushRaw h.2.2.2, if_neg hx]

/-- R36: every position but the one overwritten grows older by one push. -/
theorem State.pushRaw_age {s : State} (h : s.ringOk) (b : Byte) {x : Nat} (hx : x < s.cfg.n) (hne : x ≠ s.head) :
    (s.pushRaw b).age x = s.age x + 1 := by
  simp only [State.age, State.pushRaw_cfg, State.pushRaw_head]
  rw [distMod_succ_right (succMod_lt x (by omega)) h.1 fun heq => hne (succMod_injective h.1 hx heq).symm]

/-- R26: a push lengthens the unparsed region by at most one byte. -/
theorem State.pushRaw_unparsed_le {s : State} (h : s.ringOk) (b : Byte) :
    (s.pushRaw b).unparsed ≤ s.unparsed + 1 := by
  obtain ⟨hhead, htail, -⟩ := h
  simp only [State.unparsed, State.pushRaw_cfg, State.pushRaw_head, State.pushRaw_procTail]
  split
  · rename_i hfull
    rw [← hfull, distMod_succ_self (succMod_lt _ (by omega)), distMod_succ_self hhead]
    exact Nat.le_succ _
  · rename_i hroom
    rw [distMod_succ_right htail hhead hroom]

/-- A span that ends at the old `head` is the same after the push, with the pushed byte behind it. -/
theorem State.pushRaw_ringSpan_head {s : State} (h : s.ringOk) (b : Byte) {x : Nat} (hx : x < s.cfg.n)
    (hne : x ≠ s.head) :
    (s.pushRaw b).ringSpan (succMod s.cfg.n x) (succMod s.cfg.n s.head) =
      s.ringSpan (succMod s.cfg.n x) s.head ++ [b] := by
  have hcfg := s.pushRaw_cfg b
  have hstart := succMod_lt x (by omega : 0 < s.cfg.n)
  have hapart : succMod s.cfg.n s.head ≠ succMod s.cfg.n x := fun heq => hne (succMod_injective h.1 hx heq).symm
  have hwritten : (s.pushRaw b).bufAt s.head = b := by rw [State.bufAt_pushRaw h.2.2.2, if_pos rfl]
  have hgrow := State.ringSpan_succ (s := s.pushRaw b) (i := succMod s.cfg.n x) (j := s.head)
    (by rw [hcfg]; exact hstart) (by rw [hcfg]; exact h.1) (by rw [hcfg]; exact hapart)
  rw [hcfg, hwritten] at hgrow
  rw [hgrow, State.ringSpan_of_write_outside hcfg s.head (fun i hi => State.pushRaw_bufAt h b hi) hstart h.1
    (Nat.le_refl _)]

theorem State.pushRaw_frameOk {s : State} (h : s.ringOk) (b : Byte) {d : Descriptor} (hd : d.startPos < s.cfg.n)
    (hne : d.startPos ≠ s.head) (hok : s.frameOk d) : (s.pushRaw b).frameOk d := by
  obtain ⟨hheader, hexam, hframe⟩ := hok
  obtain ⟨f, hf, hparts⟩ := Option.map_eq_some_iff.1 hframe
  have hlonger := State.pushRaw_unparsed_le h b
  have hbuf := State.pushRaw_bufAt h b hne
  have hspan := State.pushRaw_ringSpan_head h b hd hne
  rw [← State.pushRaw_head s b] at hspan
  unfold State.frameOk
  rw [hbuf, State.pushRaw_age h b hd hne, State.extract_of_grown (s.pushRaw_cfg b) hspan hbuf hf, State.pushRaw_cfg]
  exact ⟨hheader, by omega, congrArg some hparts⟩

/-- Under STRICT a push never catches up with an open header that it keeps: the region behind it is too short. -/
theorem State.pushRaw_openHeaderOkAt {s : State} (h : s.ringOk) (b : Byte) {p : Nat} (hp : p < s.cfg.n)
    (hne : p ≠ s.head) (hlive : ∀ d ∈ (s.pushRaw b).live, d ∈ s.live ∧ d.startPos < s.cfg.n ∧ d.startPos ≠ s.head)
    (hopen : s.openHeaderOkAt p) : (s.pushRaw b).openHeaderOkAt p := by
  obtain ⟨hheader, hexam, hyoung, hclear⟩ := hopen
  have hlonger := State.pushRaw_unparsed_le h b
  have hbefore := State.procTail_before_head h hexam
  have hroom : succMod s.cfg.n s.head ≠ s.procTail := by
    intro hfull
    have hregion : s.unparsed = s.cfg.n - 1 := by rw [State.unparsed, ← hfull, distMod_succ_self h.1]
    have hbound := (State.age_bounds (s := s) (by omega) p).2
    exact hne ((State.age_eq_n hp h.1).1 (by omega))
  have hspan := State.ringSpan_of_write_outside (s.pushRaw_cfg b) s.head (fun i hi => State.pushRaw_bufAt h b hi)
    (succMod_lt p (by omega)) h.1 hbefore
  unfold State.openHeaderOkAt
  rw [State.pushRaw_procTail, if_neg hroom, State.pushRaw_cfg, hspan, State.pushRaw_bufAt h b hne,
    State.pushRaw_age h b hp hne]
  refine ⟨hheader, by omega, fun d hd => ?_, hclear⟩
  obtain ⟨hold, hlt, hapart⟩ := hlive d hd
  rw [State.pushRaw_age h b hlt hapart]
  exact Nat.succ_lt_succ (hyoung d hold)

theorem State.strictInv_pushRaw {s : State} (hmode : s.cfg.guardMode = .strict) (hrings : s.ringsOk) (hs : s.StrictInv)
    (b : Byte) : (s.pushRaw b).StrictInv := by
  obtain ⟨hring, hindex⟩ := hrings
  obtain ⟨hok, hord, hopen⟩ := s.strictInv_iff.1 hs
  have hn : 0 < s.cfg.n := by have := hring.1; omega
  have hfirst := dropIfStartsAt_sublist s.head s.live
  have hboth := (dropIfStartsAt_sublist (succMod s.cfg.n s.head) _).trans hfirst
  rw [← State.live_pushRaw_strict hmode hindex b] at hboth
  have hlive : ∀ d ∈ (s.pushRaw b).live, d ∈ s.live ∧ d.startPos < s.cfg.n ∧ d.startPos ≠ s.head := by
    intro d hd
    refine ⟨hboth.subset hd, State.live_startPos_lt hindex hn (hboth.subset hd), ?_⟩
    rw [State.live_pushRaw_strict hmode hindex b] at hd
    refine startPos_ne_of_mem_dropIfStartsAt hord (fun e _ => ?_) ((dropIfStartsAt_sublist _ _).subset hd)
    rw [(State.age_eq_n hring.1 hring.1).2 rfl]
    exact (State.age_bounds hn _).2
  refine (State.strictInv_iff _).2 ⟨fun d hd => ?_, ?_, (State.openHeaderOk_iff _).2 fun p hp => ?_⟩
  · obtain ⟨hold, hlt, hne⟩ := hlive d hd
    exact State.pushRaw_frameOk hring b hlt hne (hok d hold)
  · have hages : (s.pushRaw b).live.map (fun d => (s.pushRaw b).age d.startPos) =
        (s.pushRaw b).live.map (fun d => s.age d.startPos + 1) := by
      refine List.map_congr_left fun d hd => ?_
      obtain ⟨-, hlt, hne⟩ := hlive d hd
      exact State.pushRaw_age hring b hlt hne
    have hold := hord.sublist (hboth.map _)
    rw [State.startsOrdered, hages]
    rw [List.pairwise_map] at hold ⊢
    exact hold.imp fun hlt => Nat.succ_lt_succ hlt
  · obtain ⟨hwas, hne⟩ := State.pushRaw_parseStart_strict hmode hp
    exact State.pushRaw_openHeaderOkAt hring b (hring.parseStart_lt hwas) hne hlive (s.openHeaderOk_iff.1 hopen p hwas)

theorem State.strictInv_push {s : State} (hmode : s.cfg.guardMode = .strict) (hrings : s.ringsOk) (hs : s.StrictInv)
    (b : Byte) : (s.push b).StrictInv := by
  have hraw := State.strictInv_pushRaw hmode hrings hs b
  unfold State.push
  split
  · exact State.strictInv_drainLoop (State.pushRaw_ringsOk hrings b) hraw _
  · exact hraw

/-! ### Every move -/

theorem RingMove.strictInv {s t : State} (h : RingMove s t) (hmode : s.cfg.guardMode = .strict) (hrings : s.ringsOk)
    (hs : s.StrictInv) : t.StrictInv := by
  obtain ⟨hring, hindex⟩ := id hrings
  cases h with
  | stays h => exact h.strictInv hs
  | pushes b h => exact h.strictInv (State.strictInv_push hmode hrings hs b)
  | pools hne h => exact h.strictInv (State.strictInv_poolStep hrings hne hs)
  | evictsOldest hcount h =>
    refine h.strictInv (State.strictInv_of_live_sublist hs ?_)
    exact State.live_evictOldest hindex.1 ▸ List.tail_sublist _
  | evictsLatest hcount h =>
    refine h.strictInv (State.strictInv_of_live_sublist hs ?_)
    exact State.live_evictLatest hindex.slots hcount ▸ List.dropLast_sublist _
  | resets h => exact h.strictInv (State.strictInv_of_empty rfl rfl)

/-- Settles O54: under STRICT every move of the rings keeps the invariant. -/
theorem stepKeepsTheStrictInvariant : Obligations.StepKeepsTheStrictInvariant := by
  intro s t hmode hinv hs h
  obtain ⟨-, hring, hindex, -⟩ := hinv
  exact (step_effect h).ringMove.strictInv hmode ⟨hring, hindex⟩ hs

theorem State.init_inv {c : Config} (h : c.wf = true) : (State.init c).Inv :=
  (State.inv_iff _).2 ⟨h, State.init_ringsOk h, fun _ => rfl, rfl, rfl, nofun, nofun⟩

/-- Settles O3. -/
theorem resetMeetsTheInvariants : Obligations.ResetMeetsTheInvariants :=
  ⟨State.init_inv (by decide), State.strictInv_of_empty rfl rfl,
    fun _ h => ⟨State.init_inv h, State.strictInv_of_empty rfl rfl⟩⟩

end Sys2Proof.Machine
end

