-- ==== Sys2Proof/Proofs/ResetContents.lean ====
section
/-! What a run can see of the rings (R23, U1): two states that agree on the live descriptors and on every position written
since reset do the same, turn by turn. -/

namespace Sys2Proof.Machine

/-! ### Agreement on the live descriptors -/

/-- Two states that differ at most in the contents of the rings, with the same live descriptors. -/
structure SameIndex (s s' : State) : Prop where
  same : ∃ buf desc, s' = { s with buf := buf, desc := desc }
  slots : s.slotsOk
  slots' : s'.slotsOk
  live : s'.live = s.live

section sameIndex

variable {s s' t t' : State}

theorem SameIndex.cfg (h : SameIndex s s') : s'.cfg = s.cfg := by obtain ⟨_, _, rfl⟩ := h.same; rfl
theorem SameIndex.head (h : SameIndex s s') : s'.head = s.head := by obtain ⟨_, _, rfl⟩ := h.same; rfl
theorem SameIndex.procTail (h : SameIndex s s') : s'.procTail = s.procTail := by obtain ⟨_, _, rfl⟩ := h.same; rfl
theorem SameIndex.parseStart (h : SameIndex s s') : s'.parseStart = s.parseStart := by
  obtain ⟨_, _, rfl⟩ := h.same; rfl
theorem SameIndex.frameCount (h : SameIndex s s') : s'.frameCount = s.frameCount := by
  obtain ⟨_, _, rfl⟩ := h.same; rfl

theorem SameIndex.refl (h : s.slotsOk) : SameIndex s s := ⟨⟨s.buf, s.desc, rfl⟩, h, h, rfl⟩

/-- An update that does not read or write the Frame Index. -/
theorem SameIndex.update (h : SameIndex s s')
    (ht : t = { t with
      cfg := s.cfg, desc := s.desc, frameHead := s.frameHead, frameTail := s.frameTail, frameCount := s.frameCount })
    (ht' : t' = { t with buf := t'.buf, desc := s'.desc }) : SameIndex t t' := by
  obtain ⟨⟨buf, desc, rfl⟩, hslots, hslots', hlive⟩ := h
  refine ⟨⟨t'.buf, desc, ht'⟩, ?_, ?_, ?_⟩
  · rw [ht]; exact hslots
  · rw [ht', ht]; exact hslots'
  · rw [ht', ht]; exact hlive

theorem SameIndex.oldest (h : SameIndex s s') (hc : 0 < s.frameCount) : s'.oldest = s.oldest := by
  have hfirst := State.live_head? h.slots'.1 (h.frameCount ▸ hc)
  rw [h.live, State.live_head? h.slots.1 hc] at hfirst
  exact (Option.some.inj hfirst).symm

theorem SameIndex.latest (h : SameIndex s s') (hc : 0 < s.frameCount) : s'.latest = s.latest := by
  have hlast := State.live_getLast? h.slots' (h.frameCount ▸ hc)
  rw [h.live, State.live_getLast? h.slots hc] at hlast
  exact (Option.some.inj hlast).symm

theorem SameIndex.evictOldest (h : SameIndex s s') (hc : 0 < s.frameCount) :
    SameIndex s.evictOldest s'.evictOldest where
  same := by obtain ⟨buf, desc, rfl⟩ := h.same; exact ⟨buf, desc, rfl⟩
  slots := State.evictOldest_slotsOk h.slots hc
  slots' := State.evictOldest_slotsOk h.slots' (h.frameCount ▸ hc)
  live := by rw [State.live_evictOldest h.slots.1, State.live_evictOldest h.slots'.1, h.live]

theorem SameIndex.evictLatest (h : SameIndex s s') (hc : 0 < s.frameCount) :
    SameIndex s.evictLatest s'.evictLatest where
  same := by obtain ⟨buf, desc, rfl⟩ := h.same; exact ⟨buf, desc, rfl⟩
  slots := State.evictLatest_slotsOk h.slots hc
  slots' := State.evictLatest_slotsOk h.slots' (h.frameCount ▸ hc)
  live := by
    rw [State.live_evictLatest h.slots hc, State.live_evictLatest h.slots' (h.frameCount ▸ hc), h.live]

theorem SameIndex.appendDescriptor (h : SameIndex s s') (hc : s.frameCount < s.cfg.k) (d : Descriptor) :
    SameIndex (s.appendDescriptor d) (s'.appendDescriptor d) where
  same := by obtain ⟨buf, desc, rfl⟩ := h.same; exact ⟨buf, _, rfl⟩
  slots := State.appendDescriptor_slotsOk h.slots hc d
  slots' := State.appendDescriptor_slotsOk h.slots' (h.frameCount ▸ h.cfg ▸ hc) d
  live := by
    have hc' : s'.frameCount < s'.cfg.k := by rw [h.frameCount, h.cfg]; exact hc
    rw [State.live_appendDescriptor h.slots hc, State.live_appendDescriptor h.slots' hc', h.live]

theorem SameIndex.indexInsert (h : SameIndex s s') (d : Descriptor) :
    SameIndex (s.indexInsert d) (s'.indexInsert d) := by
  obtain ⟨htail, hle, -⟩ := h.slots
  unfold State.indexInsert
  rw [h.frameCount, h.cfg]
  split
  · refine (h.evictOldest (by omega)).appendDescriptor ?_ d
    simp only [State.evictOldest_frameCount, State.evictOldest_cfg]
    omega
  · exact h.appendDescriptor (by omega) d

theorem SameIndex.evictIfOverwritten (h : SameIndex s s') (pos : Nat) :
    SameIndex (s.evictIfOverwritten pos) (s'.evictIfOverwritten pos) := by
  rcases Nat.eq_zero_or_pos s.frameCount with hc | hc
  · have hc' := h.frameCount.trans hc
    rw [State.evictIfOverwritten, State.evictIfOverwritten, if_neg (by omega), if_neg (by omega)]
    exact h
  · unfold State.evictIfOverwritten
    rw [h.oldest hc, h.frameCount]
    split
    · exact h.evictOldest hc
    · exact h

theorem SameIndex.guardOverwrite (h : SameIndex s s') : SameIndex s.guardOverwrite s'.guardOverwrite := by
  unfold State.guardOverwrite
  rw [h.cfg]
  split
  · exact h
  · rw [h.head]
    refine SameIndex.evictIfOverwritten (h.update rfl ?_) _
    obtain ⟨buf, desc, rfl⟩ := h.same
    rfl

theorem SameIndex.setBuf (h : SameIndex s s') (i : Nat) (b : Byte) : SameIndex (s.setBuf i b) (s'.setBuf i b) := by
  refine h.update rfl ?_
  obtain ⟨buf, desc, rfl⟩ := h.same
  rfl

theorem SameIndex.evictUnparsed (h : SameIndex s s') : SameIndex s.evictUnparsed s'.evictUnparsed := by
  unfold State.evictUnparsed
  rw [h.cfg, h.head, h.procTail]
  split
  · refine h.update rfl ?_
    obtain ⟨buf, desc, rfl⟩ := h.same
    rfl
  · exact h

theorem SameIndex.advanceHead (h : SameIndex s s') : SameIndex s.advanceHead s'.advanceHead := by
  have hcheck := h.evictIfOverwritten (succMod s.cfg.n s.head)
  unfold State.advanceHead
  rw [h.cfg, h.head]
  refine hcheck.update rfl ?_
  obtain ⟨buf, desc, heq⟩ := hcheck.same
  rw [heq]

/-- A push reads no content of the ring and no slot but the oldest (R140). -/
theorem SameIndex.pushRaw (h : SameIndex s s') (b : Byte) : SameIndex (s.pushRaw b) (s'.pushRaw b) := by
  unfold State.pushRaw
  rw [h.head]
  exact ((h.guardOverwrite.setBuf s.head b).evictUnparsed).advanceHead

theorem SameIndex.closeCandidate (h : SameIndex s s') {p t : Nat}
    (hspan : s'.ringSpan (succMod s.cfg.n p) t = s.ringSpan (succMod s.cfg.n p) t) :
    SameIndex (s.closeCandidate p t) (s'.closeCandidate p t) := by
  unfold State.closeCandidate
  rw [h.cfg, hspan]
  split
  · exact h
  · split
    · exact h.indexInsert _
    · exact h

theorem SameIndex.examine (h : SameIndex s s') (hbyte : s'.bufAt s.procTail = s.bufAt s.procTail)
    (hspan : ∀ p, s.parseStart = some p →
      s'.ringSpan (succMod s.cfg.n p) s.procTail = s.ringSpan (succMod s.cfg.n p) s.procTail) :
    SameIndex s.examine s'.examine := by
  have hsame : s' = { s with buf := s'.buf, desc := s'.desc } := by obtain ⟨_, _, rfl⟩ := h.same; rfl
  unfold State.examine
  rw [h.cfg, h.procTail, h.parseStart, hbyte]
  split
  · exact h.update rfl (by rw [hsame])
  · split
    · split
      · rename_i p hp
        have hclose := h.closeCandidate (hspan p hp)
        refine hclose.update rfl ?_
        obtain ⟨buf, desc, heq⟩ := hclose.same
        rw [heq]
      · exact h
    · exact h

theorem SameIndex.poolStep (h : SameIndex s s') (hbyte : s'.bufAt s.procTail = s.bufAt s.procTail)
    (hspan : ∀ p, s.parseStart = some p →
      s'.ringSpan (succMod s.cfg.n p) s.procTail = s.ringSpan (succMod s.cfg.n p) s.procTail) :
    SameIndex s.poolStep s'.poolStep := by
  have hexamine := h.examine hbyte hspan
  unfold State.poolStep
  rw [h.cfg, h.procTail]
  refine hexamine.update rfl ?_
  obtain ⟨buf, desc, heq⟩ := hexamine.same
  rw [heq]

end sameIndex

/-! ### Agreement on what has been written -/

/-- Since reset `head` has not come round: what the block may still read stands below `procTail`, and what it has yet to
examine below `head`. -/
def State.unwrapped (s : State) : Prop :=
  s.procTail ≤ s.head ∧ (∀ p, s.parseStart = some p → p < s.procTail) ∧ ∀ d ∈ s.live, d.startPos < s.procTail

/-- Two states that a run cannot tell apart: they agree on the live descriptors, and on the whole ring or, while `head` has
not come round since reset, on the positions below it. -/
structure SameObserved (s s' : State) : Prop where
  index : SameIndex s s'
  rings : s.ringsOk
  written' : cellsWf unlistedByte 0 s.cfg.n s'.buf = true
  bytes : (∀ x < s.cfg.n, s'.bufAt x = s.bufAt x) ∨ (s.unwrapped ∧ ∀ x < s.head, s'.bufAt x = s.bufAt x)

section sameObserved

variable {s s' t t' : State}

theorem SameObserved.refl (h : s.ringsOk) : SameObserved s s :=
  ⟨SameIndex.refl h.2.slots, h, h.1.2.2.2, .inl fun _ _ => rfl⟩

theorem SameObserved.pos (h : SameObserved s s') : 0 < s.cfg.n := by have := h.rings.1.1; omega

/-- A position that was written, if `head` has not come round, reads the same. -/
theorem SameObserved.bufAt (h : SameObserved s s') {x : Nat} (hx : x < s.cfg.n) (hread : s.unwrapped → x < s.head) :
    s'.bufAt x = s.bufAt x := by
  rcases h.bytes with hall | ⟨hunwrapped, hbelow⟩
  · exact hall x hx
  · exact hbelow x (hread hunwrapped)

theorem SameObserved.ringSpan (h : SameObserved s s') {i j : Nat} (hi : i < s.cfg.n) (hj : j < s.cfg.n)
    (hread : s.unwrapped → i ≤ j ∧ j ≤ s.head) : s'.ringSpan i j = s.ringSpan i j := by
  unfold State.ringSpan
  rw [h.index.cfg, ringBytes_eq_map _ _ hi, ringBytes_eq_map _ _ hi]
  refine List.map_congr_left fun k hk => h.bufAt (Nat.mod_lt _ h.pos) fun hunwrapped => ?_
  obtain ⟨hij, hjh⟩ := hread hunwrapped
  have hk := List.mem_range.1 hk
  rw [distMod_eq hi hj, if_pos hij] at hk
  rw [Nat.mod_eq_of_lt (by omega)]
  omega

/-- Behind a position below `procTail` the walk stays on what was written. -/
theorem State.succMod_le_procTail (hring : s.ringOk) {p : Nat} (hp : p < s.procTail) :
    succMod s.cfg.n p ≤ s.procTail := by
  have hlt := hring.2.1
  rw [succMod, Nat.mod_eq_of_lt (by omega)]
  exact hp

/-- R201: extraction of a live frame reads only what was written. -/
theorem SameObserved.extract (h : SameObserved s s') {d : Descriptor} (hd : d ∈ s.live) :
    s'.extract d.startPos = s.extract d.startPos := by
  have hlt := State.live_startPos_lt h.rings.2 h.pos hd
  have hspan := h.ringSpan (i := succMod s.cfg.n d.startPos) (succMod_lt _ h.pos) h.rings.1.1 fun hun =>
    ⟨(State.succMod_le_procTail h.rings.1 (hun.2.2 d hd)).trans hun.1, Nat.le_refl _⟩
  have hheader := h.bufAt hlt fun hun => Nat.lt_of_lt_of_le (hun.2.2 d hd) hun.1
  simp only [State.extract, h.index.cfg, h.index.head, hspan, hheader]

theorem SameObserved.selected (h : SameObserved s s') (hc : 0 < s.frameCount) (op : Getter) :
    s'.selected op = s.selected op := by
  cases op with
  | getOldest | removeOldest | getDataByte => exact h.index.oldest hc
  | getLatest | removeLatest => exact h.index.latest hc

theorem State.selected_mem_live (hslots : s.slotsOk) (hc : 0 < s.frameCount) (op : Getter) :
    s.selected op ∈ s.live := by
  cases op with
  | getOldest | removeOldest | getDataByte => exact List.mem_of_mem_head? (State.live_head? hslots.1 hc)
  | getLatest | removeLatest => exact List.mem_of_mem_getLast? (State.live_getLast? hslots hc)

theorem SameRings.unwrapped (h : SameRings s t) (hs : s.unwrapped) : t.unwrapped := by
  rw [h]; exact hs

/-- An update that does not read or write the rings. -/
theorem SameObserved.update (h : SameObserved s s') (hrings : SameRings s t)
    (ht' : t' = { t with buf := s'.buf, desc := s'.desc }) : SameObserved t t' where
  index := h.index.update (by rw [hrings]) (by rw [ht'])
  rings := hrings.ringsOk h.rings
  written' := by rw [ht', hrings]; exact h.written'
  bytes := by
    rw [ht']
    rcases h.bytes with hall | ⟨hun, hbelow⟩
    · left; rw [hrings]; exact hall
    · right
      refine ⟨hrings.unwrapped hun, ?_⟩
      rw [hrings]; exact hbelow

theorem SameObserved.evictOldest (h : SameObserved s s') (hc : 0 < s.frameCount) :
    SameObserved s.evictOldest s'.evictOldest where
  index := h.index.evictOldest hc
  rings := ⟨h.rings.1, State.evictOldest_indexOk h.rings.2 hc⟩
  written' := h.written'
  bytes := h.bytes.imp id fun ⟨⟨hle, hopen, hstarts⟩, hbelow⟩ =>
    ⟨⟨hle, hopen, fun d hd => hstarts d (List.mem_of_mem_tail (State.live_evictOldest h.rings.2.1 ▸ hd))⟩, hbelow⟩

theorem SameObserved.evictLatest (h : SameObserved s s') (hc : 0 < s.frameCount) :
    SameObserved s.evictLatest s'.evictLatest where
  index := h.index.evictLatest hc
  rings := ⟨h.rings.1, State.evictLatest_indexOk h.rings.2 hc⟩
  written' := h.written'
  bytes := h.bytes.imp id fun ⟨⟨hle, hopen, hstarts⟩, hbelow⟩ =>
    ⟨⟨hle, hopen, fun d hd => hstarts d (List.mem_of_mem_dropLast (State.live_evictLatest h.rings.2.slots hc ▸ hd))⟩,
      hbelow⟩

/-! ### Pool steps and pushes -/

/-- R165: what is live after a pool step was live, or starts at the open header. -/
theorem State.mem_live_poolStep (h : s.indexOk) {d : Descriptor} (hd : d ∈ s.poolStep.live) :
    d ∈ s.live ∨ s.parseStart = some d.startPos := by
  rw [State.live_poolStep] at hd
  rcases s.examine_cases with ⟨-, heq⟩ | ⟨p, -, -, hp, heq⟩ | ⟨-, -, heq⟩ <;> rw [heq] at hd
  · exact .inl hd
  · have hd : d ∈ (s.closeCandidate p s.procTail).live := hd
    rcases State.live_closeCandidate h p s.procTail with ⟨u, -, -, hsub⟩ | hsame
    · rcases List.mem_append.1 (hsub.subset hd) with hold | hlast
      · exact .inl hold
      · rw [List.mem_singleton.1 hlast]; exact .inr hp
    · exact .inl (hsame ▸ hd)
  · exact .inl hd

theorem State.unwrapped_poolStep (hrings : s.ringsOk) (hne : s.procTail ≠ s.head) (hs : s.unwrapped) :
    s.poolStep.unwrapped := by
  obtain ⟨hle, hopen, hstarts⟩ := hs
  have hhead := hrings.1.1
  have hnext : s.poolStep.procTail = s.procTail + 1 := by
    rw [State.poolStep_procTail, succMod, Nat.mod_eq_of_lt (by omega)]
  unfold State.unwrapped
  rw [hnext, State.poolStep_head]
  refine ⟨by omega, fun p hp => ?_, fun d hd => ?_⟩
  · rw [State.poolStep_parseStart] at hp
    rcases s.examine_parseStart with heq | heq | heq <;> rw [heq] at hp
    · injection hp with hp; omega
    · cases hp
    · exact Nat.lt_succ_of_lt (hopen p hp)
  · rcases State.mem_live_poolStep hrings.2 hd with hold | hnew
    · exact Nat.lt_succ_of_lt (hstarts d hold)
    · exact Nat.lt_succ_of_lt (hopen _ hnew)

/-- R160: a pool step reads the byte at `procTail` and the span of the open candidate, both written. -/
theorem SameObserved.poolStep (h : SameObserved s s') (hne : s.procTail ≠ s.head) :
    SameObserved s.poolStep s'.poolStep where
  index := by
    have htail := h.rings.1.2.1
    refine h.index.poolStep (h.bufAt htail fun hun => by have := hun.1; omega) fun p hp => ?_
    exact h.ringSpan (succMod_lt _ h.pos) htail fun hun =>
      ⟨State.succMod_le_procTail h.rings.1 (hun.2.1 p hp), hun.1⟩
  rings := State.poolStep_ringsOk h.rings
  written' := by rw [State.poolStep_cfg, State.poolStep_buf]; exact h.written'
  bytes := by
    simp only [State.poolStep_bufAt, State.poolStep_cfg, State.poolStep_head]
    exact h.bytes.imp id fun ⟨hun, hbelow⟩ => ⟨State.unwrapped_poolStep h.rings hne hun, hbelow⟩

theorem SameObserved.drainLoop (h : SameObserved s s') (fuel : Nat) :
    SameObserved (s.drainLoop fuel) (s'.drainLoop fuel) := by
  induction fuel generalizing s s' with
  | zero => exact h
  | succ k ih =>
    unfold State.drainLoop
    rw [h.index.procTail, h.index.head]
    split
    · exact h
    · rename_i hne
      exact ih (h.poolStep hne)

theorem State.live_pushRaw_sublist (hindex : s.indexOk) (b : Byte) : (s.pushRaw b).live.Sublist s.live := by
  rw [State.live_pushRaw hindex]
  refine (dropIfStartsAt_sublist _ _).trans ?_
  cases hmode : s.cfg.guardMode with
  | literal => simp only [State.guardOverwrite, hmode]; exact List.Sublist.refl _
  | strict => rw [State.live_guardOverwrite_strict hmode hindex.1]; exact dropIfStartsAt_sublist _ _

/-- A push that does not bring `head` round evicts no unparsed byte. -/
theorem State.unwrapped_pushRaw (hrings : s.ringsOk) (hroom : s.head + 1 < s.cfg.n) (hs : s.unwrapped) (b : Byte) :
    (s.pushRaw b).unwrapped := by
  obtain ⟨hle, hopen, hstarts⟩ := hs
  have hnext : succMod s.cfg.n s.head = s.head + 1 := by rw [succMod, Nat.mod_eq_of_lt hroom]
  unfold State.unwrapped
  rw [State.pushRaw_procTail, State.pushRaw_head, hnext, if_neg (by omega)]
  refine ⟨by omega, fun p hp => ?_, fun d hd => hstarts d ((State.live_pushRaw_sublist hrings.2 b).subset hd)⟩
  rcases s.pushRaw_parseStart b with heq | heq <;> rw [heq] at hp
  · exact hopen p hp
  · cases hp

/-- The push that brings `head` round has written the last position; from then on the whole ring agrees. -/
theorem SameObserved.pushRaw (h : SameObserved s s') (b : Byte) : SameObserved (s.pushRaw b) (s'.pushRaw b) where
  index := h.index.pushRaw b
  rings := State.pushRaw_ringsOk h.rings b
  written' := by
    rw [State.pushRaw_cfg, State.pushRaw_buf, h.index.head]
    exact cellsWrite_wf _ h.written' (Nat.zero_le _) h.rings.1.1
  bytes := by
    have hkeep {x : Nat} (hx : x ≠ s.head → s'.bufAt x = s.bufAt x) :
        (s'.pushRaw b).bufAt x = (s.pushRaw b).bufAt x := by
      rw [State.bufAt_pushRaw h.written', State.bufAt_pushRaw h.rings.1.2.2.2, h.index.head]
      split
      · rfl
      · exact hx (by assumption)
    have hhead := h.rings.1.1
    rw [State.pushRaw_cfg, State.pushRaw_head]
    rcases h.bytes with hall | ⟨hun, hbelow⟩
    · exact .inl fun x hx => hkeep fun _ => hall x hx
    · by_cases hroom : s.head + 1 < s.cfg.n
      · refine .inr ⟨State.unwrapped_pushRaw h.rings hroom hun b, fun x hx => hkeep fun hne => hbelow x ?_⟩
        rw [succMod, Nat.mod_eq_of_lt hroom] at hx
        omega
      · exact .inl fun x hx => hkeep fun hne => hbelow x (by omega)

theorem SameObserved.push (h : SameObserved s s') (b : Byte) : SameObserved (s.push b) (s'.push b) := by
  have hraw := h.pushRaw b
  unfold State.push State.drain
  rw [h.index.cfg]
  split
  · rw [hraw.index.cfg]
    exact hraw.drainLoop _
  · exact hraw

/-! ### Instructions -/

/-- Both answer a next state, and a run cannot tell the two apart. -/
def SameOutcome (o o' : Host.Outcome State Fault Refusal) : Prop :=
  ∃ t t', o = .next t ∧ o' = .next t' ∧ SameObserved t t'

theorem SameObserved.contents (h : SameObserved s s') : s' = { s with buf := s'.buf, desc := s'.desc } := by
  obtain ⟨_, _, rfl⟩ := h.index.same; rfl

theorem SameObserved.complete (h : SameObserved s s') (c : StatusCode) :
    SameObserved (s.complete c) (s'.complete c) :=
  h.update rfl (by rw [h.contents]; rfl)

theorem SameObserved.evictSelected (h : SameObserved s s') (hc : 0 < s.frameCount) (op : Getter) :
    SameObserved (s.evictSelected op) (s'.evictSelected op) := by
  cases op with
  | removeOldest => exact h.evictOldest hc
  | removeLatest => exact h.evictLatest hc
  | getOldest | getLatest | getDataByte => exact h

theorem SameObserved.handOver (h : SameObserved s s') (op : Getter) (dst : Nat) (f : Extracted) :
    SameObserved (s.handOver op dst f) (s'.handOver op dst f) :=
  h.update rfl (by rw [h.contents]; rfl)

theorem SameObserved.deliver (h : SameObserved s s') (hc : 0 < s.frameCount) (op : Getter) (dst cap : Word) :
    SameObserved (deliver op dst cap s) (deliver op dst cap s') := by
  unfold Machine.deliver
  rw [h.selected hc, h.extract (State.selected_mem_live h.index.slots hc op), h.index.cfg]
  split
  · exact h.complete _
  · split
    · exact h.complete _
    · split
      · exact ((h.handOver op dst.toNat _).evictSelected hc op).complete _
      · exact h.complete _

theorem SameObserved.getterFirst (h : SameObserved s s') (op : Getter) (dst cap tmo : Word) :
    SameObserved (getterFirst op dst cap tmo s) (getterFirst op dst cap tmo s') := by
  unfold Machine.getterFirst
  rw [h.index.frameCount]
  split_ifs with hdst hcap hc htmo
  · exact h.complete _
  · exact h.complete _
  · exact h.deliver hc op dst cap
  · exact h.complete _
  · exact h.update rfl (by rw [h.contents])

theorem SameObserved.phase (h : SameObserved s s') : s'.phase = s.phase := by rw [h.contents]
theorem SameObserved.mem (h : SameObserved s s') : s'.mem = s.mem := by rw [h.contents]
theorem SameObserved.operands (h : SameObserved s s') : s'.operands = s.operands := by rw [h.contents]; rfl

theorem SameObserved.waitStep (h : SameObserved s s') (op : Getter) (dst cap : Word) (t : Nat) :
    SameObserved (waitStep op dst cap t s) (waitStep op dst cap t s') := by
  obtain ⟨buf, desc, rfl⟩ := h.index.same
  have hdrawn : SameObserved { s with draws := s.draws + 1 }
      { s with buf := buf, desc := desc, draws := s.draws + 1 } := h.update rfl rfl
  unfold Machine.waitStep
  dsimp only
  split_ifs with hc hexpired
  · exact hdrawn.deliver hc op dst cap
  · exact hdrawn.complete _
  · exact hdrawn

theorem SameObserved.getterStep (h : SameObserved s s') (op : Getter) :
    SameObserved (getterStep op s) (getterStep op s') := by
  unfold Machine.getterStep
  rw [h.phase, h.operands]
  split
  · split
    · exact h.waitStep _ _ _ _
    · exact h.getterFirst _ _ _ _
  · exact h.getterFirst _ _ _ _

theorem SameObserved.encodeChecked (h : SameObserved s s') (src n dst cap : Word) :
    SameObserved (encodeChecked src n dst cap s) (encodeChecked src n dst cap s') := by
  unfold Machine.encodeChecked Machine.encodeAdmitted
  rw [h.index.cfg, h.mem]
  dsimp only
  split_ifs
  · exact h.complete _
  · exact h.complete _
  · exact h.complete _
  · exact h.update rfl (by rw [h.contents]; rfl)
  · exact h.complete _
  · exact h.complete _

theorem SameObserved.pushBytesFirst (h : SameObserved s s') (src n : Word) :
    SameObserved (pushBytesFirst src n s) (pushBytesFirst src n s') := by
  unfold Machine.pushBytesFirst
  rw [h.index.cfg]
  split_ifs
  · exact h.complete _
  · exact h.update rfl (by rw [h.contents])
  · exact h.complete _

theorem SameObserved.pushBytesNext (h : SameObserved s s') (addr : Word) (i n : Nat) :
    SameObserved (pushBytesNext addr i n s) (pushBytesNext addr i n s') := by
  have hpush := h.push (memRead s.mem (addr.toNat + i))
  unfold Machine.pushBytesNext
  rw [h.mem]
  split_ifs
  · exact h.complete _
  · exact hpush.update rfl (by rw [hpush.contents])

theorem SameObserved.execPushBytes (h : SameObserved s s') : SameOutcome (execPushBytes s) (execPushBytes s') := by
  unfold Machine.execPushBytes
  rw [h.phase, h.operands]
  split
  · exact ⟨_, _, rfl, rfl, h.pushBytesNext _ _ _⟩
  · exact ⟨_, _, rfl, rfl, h.pushBytesFirst _ _⟩

theorem SameObserved.execPool (h : SameObserved s s') : SameOutcome (execPool s) (execPool s') := by
  unfold Machine.execPool
  rw [h.index.procTail, h.index.head]
  split_ifs with hne
  · exact ⟨_, _, rfl, rfl, h.complete _⟩
  · have hpool := h.poolStep hne
    exact ⟨_, _, rfl, rfl, hpool.update rfl (by rw [hpool.contents])⟩

/-- No instruction tells the two apart. -/
theorem SameObserved.exec (h : SameObserved s s') (i : Instr) : SameOutcome (exec i s) (exec i s') := by
  cases i with
  | pushByte data ignored => exact ⟨_, _, rfl, rfl, h.push data⟩
  | pushBytes => exact h.execPushBytes
  | pool => exact h.execPool
  | encode =>
    refine ⟨_, _, rfl, rfl, ?_⟩
    rw [h.operands]
    exact h.encodeChecked _ _ _ _
  | getOldest => exact ⟨_, _, rfl, rfl, h.getterStep .getOldest⟩
  | getLatest => exact ⟨_, _, rfl, rfl, h.getterStep .getLatest⟩
  | removeOldest => exact ⟨_, _, rfl, rfl, h.getterStep .removeOldest⟩
  | removeLatest => exact ⟨_, _, rfl, rfl, h.getterStep .removeLatest⟩
  | getDataByte => exact ⟨_, _, rfl, rfl, h.getterStep .getDataByte⟩
  | crcUpdate byte seed => exact ⟨_, _, rfl, rfl, h.update rfl (by rw [h.contents]; rfl)⟩
  | hasNewFrame => exact ⟨_, _, rfl, rfl, h.update rfl (by rw [h.contents]; rfl)⟩
  | countFrame => exact ⟨_, _, rfl, rfl, h.update rfl (by rw [h.contents]; rfl)⟩

/-! ### Turns, steps and runs -/

theorem SameObserved.consumerStep (h : SameObserved s s') : SameOutcome (consumerStep s) (consumerStep s') := by
  unfold Machine.consumerStep
  rw [h.phase]
  split
  · exact ⟨_, _, rfl, rfl, h⟩
  · exact ⟨_, _, rfl, rfl, h.complete _⟩
  · exact h.exec _

theorem SameObserved.poolAgentStep (h : SameObserved s s') : SameObserved (poolAgentStep s) (poolAgentStep s') := by
  have hready : s'.poolAgentReady = s.poolAgentReady := by rw [h.contents]; rfl
  unfold Machine.poolAgentStep
  rw [hready]
  split
  · rename_i hwork
    exact h.poolStep (s.poolAgentReady_iff.1 hwork).2
  · exact h

theorem SameObserved.issue (h : SameObserved s s') (w : Word) : SameObserved (s.issue w) (s'.issue w) := by
  unfold State.issue
  rw [h.phase]
  split
  · exact h.update rfl (by rw [h.contents])
  all_goals exact h

theorem SameObserved.writeReg (h : SameObserved s s') (r : Reg) (w : Word) :
    SameOutcome (writeReg r w s) (writeReg r w s') := by
  cases r with
  | push => exact h.exec (decodePush w)
  | cmd => exact ⟨_, _, rfl, rfl, h.issue w⟩
  | status | result0 | result1 => exact ⟨_, _, rfl, rfl, h⟩
  | arg0 | arg1 | arg2 | arg3 => exact ⟨_, _, rfl, rfl, h.update rfl (by rw [h.contents])⟩

/-- A reset gives both the same contents again (R49, R270). -/
theorem SameObserved.resetAgain (h : SameObserved s s') (hwf : s.cfg.wf = true) :
    SameObserved s.resetAgain s'.resetAgain := by
  have hsame : s'.resetAgain = s.resetAgain := by rw [h.contents]; rfl
  rw [hsame]
  exact SameObserved.refl (SameRings.ringsOk (s := State.init s.cfg) rfl (State.init_ringsOk hwf))

theorem SameObserved.runTurn (h : SameObserved s s') (hwf : s.cfg.wf = true) (turn : Turn) :
    SameOutcome (runTurn turn s) (runTurn turn s') := by
  cases turn with
  | consumer => exact h.consumerStep
  | poolAgent => exact ⟨_, _, rfl, rfl, h.poolAgentStep⟩
  | hostRead offset width => exact ⟨_, _, rfl, rfl, h.update rfl (by rw [h.contents]; rfl)⟩
  | hostStore addr v => exact ⟨_, _, rfl, rfl, h.update rfl (by rw [h.contents])⟩
  | reset => exact ⟨_, _, rfl, rfl, h.resetAgain hwf⟩
  | hostWrite offset width v =>
    unfold Machine.runTurn windowWrite
    dsimp only
    split
    · exact h.writeReg _ v
    · exact ⟨_, _, rfl, rfl, h⟩

theorem SameObserved.step (h : SameObserved s s') (hwf : s.cfg.wf = true) : SameOutcome (step s) (step s') := by
  have hwf' : s'.cfg.wf = true := by rw [h.index.cfg]; exact hwf
  have hchoice : s'.choice = s.choice := by rw [h.contents]; rfl
  have hchosen : SameObserved { s with schedule := s.choice.rest, draws := s.choice.drawn }
      { s' with schedule := s.choice.rest, draws := s.choice.drawn } := h.update rfl (by rw [h.contents])
  rw [step_eq_runTurn hwf, step_eq_runTurn hwf', hchoice]
  exact hchosen.runTurn hwf _

theorem run_succ_of_step {u : State} (k : Nat) (h : Machine.step s = .next u) :
    Host.Core.run core (k + 1) s = Host.Core.run core k u := by
  have hstep : core.step s = .next u := h
  simp only [Host.Core.run, hstep]

theorem SameObserved.run (h : SameObserved s s') (hwf : s.cfg.wf = true) (k : Nat)
    (hrun : Host.Core.run core k s = .next t) : ∃ t', Host.Core.run core k s' = .next t' ∧ SameObserved t t' := by
  induction k generalizing s s' with
  | zero =>
    injection hrun with hrun
    exact ⟨s', rfl, hrun ▸ h⟩
  | succ k ih =>
    obtain ⟨u, u', hu, hu', hsame⟩ := h.step hwf
    have hcfg : u.cfg = s.cfg := (step_effect hu).ringMove.cfg_eq
    rw [run_succ_of_step k hu] at hrun
    rw [run_succ_of_step k hu']
    exact ih hsame (hcfg ▸ hwf) hrun

end sameObserved

/-- Right after reset nothing has been written: the block may hold any contents. -/
theorem SameObserved.init {c : Config} (hwf : c.wf = true) {buf : List Host.Cell} {desc : List (Nat × Descriptor)}
    (hbuf : cellsWf unlistedByte 0 c.n buf = true) (hdesc : cellsWf unlistedDescriptor 0 c.k desc = true) :
    SameObserved (State.init c) { State.init c with buf := buf, desc := desc } where
  index := by
    obtain ⟨htail, hle, hhead, -⟩ := (State.init_ringsOk hwf).2
    exact ⟨⟨buf, desc, rfl⟩, (State.init_ringsOk hwf).2.slots, ⟨htail, hle, hhead, hdesc⟩, rfl⟩
  rings := State.init_ringsOk hwf
  written' := hbuf
  bytes := .inr ⟨⟨Nat.le_refl _, nofun, nofun⟩, nofun⟩

/-- Settles O59: the two runs start with nothing written, and stay alike step by step. -/
theorem resetContentsAreNeverObserved : Obligations.ResetContentsAreNeverObserved := by
  intro c turns e mem buf desc k t hwf hbuf hdesc hrun
  have hstart : SameObserved { State.init c with mem := mem, schedule := turns, environment := e }
      { State.init c with mem := mem, schedule := turns, environment := e, buf := buf, desc := desc } :=
    (SameObserved.init hwf hbuf hdesc).update rfl rfl
  obtain ⟨t', hrun', hsame⟩ := hstart.run hwf k hrun
  refine ⟨t', hrun', ?_⟩
  rw [hsame.contents]

end Sys2Proof.Machine
end

