-- ==== Sys2Proof/Proofs/TurnsAndWindow.lean ====
section
/-! Reset, whose turn a step takes, and the register window: the statements about single steps. -/

namespace Sys2Proof.Machine

/-- R40: STATUS holds CODE in its low byte, BUSY as 256 and WAITING as 512. -/
theorem State.statusWord_toNat (s : State) : s.statusWord.toNat =
    s.code.toByte.toNat + 256 * s.phase.busy.toNat + 512 * s.phase.isWaiting.toNat := by
  unfold State.statusWord
  cases s.phase.busy <;> cases s.phase.isWaiting <;> cases s.code <;> rfl

/-- Settles O1: each field is the one R49 gives, and STATUS, read from CODE and the phase, is 0. -/
theorem resetGivesEachElementItsValue : Obligations.ResetGivesEachElementItsValue := fun _ =>
  ⟨rfl, rfl, rfl, rfl, rfl, rfl, rfl, rfl, rfl, rfl, rfl, rfl, rfl, rfl, rfl,
    BitVec.eq_of_toNat_eq (State.statusWord_toNat _)⟩

/-- Settles O2. -/
theorem resetTakesTheDefaultParameters : Obligations.ResetTakesTheDefaultParameters :=
  ⟨rfl, rfl, rfl, rfl, rfl, rfl, rfl, rfl, rfl, rfl⟩

/-! ### Whose turn it is -/

theorem step_of_turn {s : State} {t : Turn} {rest : List Turn} (hwf : s.cfg.wf = true) (h : s.schedule = t :: rest) :
    step s = runTurn t { s with schedule := rest } := by
  simp only [step, hwf, if_true, h]

theorem step_of_no_turn {s : State} (hwf : s.cfg.wf = true) (h : s.schedule = []) : step s = freeRun s := by
  simp only [step, hwf, if_true, h]

theorem consumerStep_of_command {s : State} {i : Instr} (h : s.phase.command = some (.ok i)) :
    consumerStep s = exec i s := by
  simp only [consumerStep, h]

theorem Phase.busy_of_ne_idle {p : Phase} (h : p ≠ .idle) : p.busy = true := by
  cases p with
  | idle => exact absurd rfl h
  | ready | pooling | pushing | waiting => rfl

theorem Phase.ne_idle_of_command {p : Phase} {c : Except DecodeError Instr} (h : p.command = some c) : p ≠ .idle := by
  rintro rfl
  cases h

/-- R172: the block on its own runs the consumer sequencer when the Pool agent has no step. -/
theorem ownTurn_of_consumer {s : State} (hbusy : s.phase ≠ .idle) (hready : s.poolAgentReady = false) :
    ownTurn s = consumerStep s := by
  simp [ownTurn, Phase.busy_of_ne_idle hbusy, hready]

/-- Settles O11: in each of the four phases the command is the instruction. -/
theorem stepRunsTheDecodedCommand : Obligations.StepRunsTheDecodedCommand := by
  intro s i hwf hphase
  have hcommand : s.phase.command = some (.ok i) := by
    rcases hphase with ⟨w, a0, a1, a2, a3, hp, hdec⟩ | ⟨hp, rfl⟩ | ⟨a, j, n, hp, rfl⟩ | ⟨op, dst, cap, t, hp, rfl⟩
    · rw [hp, ← hdec]; rfl
    · rw [hp]; rfl
    · rw [hp]; rfl
    · rw [hp]; rfl
  constructor
  · intro rest hsched
    rw [step_of_turn hwf hsched]
    exact consumerStep_of_command (s := { s with schedule := rest }) hcommand
  · intro hsched henv hready
    rw [step_of_no_turn hwf hsched, freeRun_silent henv,
      ownTurn_of_consumer (Phase.ne_idle_of_command hcommand) hready, consumerStep_of_command hcommand]

/-- Settles O12: the write stands on the PUSH register, whose word is a PUSH_BYTE. -/
theorem stepRunsPushWrites : Obligations.StepRunsPushWrites := fun _ _ _ hwf hsched => step_of_turn hwf hsched

/-! ### A placed table word -/

theorem tableWord_toNat (w : Word) : tableWord 32 w.toNat = w := by
  simp [tableWord, Nat.mod_eq_of_lt w.isLt]

/-- Log 15: the two ways a bare word is read, by the port it belongs to. -/
theorem decodeTableWord_cases {w : Word} {i : Instr} (h : decodeTableWord 32 w.toNat = some i) :
    (tablePort w = .cmd ∧ decode .cmd w = .ok i) ∨ (tablePort w = .push ∧ i = decodePush w) := by
  rw [decodeTableWord, if_pos (Nat.le_refl _), tableWord_toNat] at h
  cases hport : tablePort w with
  | cmd =>
    rw [hport] at h
    split at h
    · rename_i j hj
      exact .inl ⟨rfl, Option.some.inj h ▸ hj⟩
    · cases h
  | push =>
    rw [hport] at h
    exact .inr ⟨rfl, (Option.some.inj h).symm⟩

/-- Settles O13: a CMD word is latched for the consumer's turn, a PUSH word is written at the next host turn. -/
theorem placedWordRunsNext : Obligations.PlacedWordRunsNext := by
  intro s w i hwf hdec
  rw [State.withFetchWord, tableWord_toNat]
  rcases decodeTableWord_cases hdec with ⟨hport, hcmd⟩ | ⟨hport, rfl⟩
  · rw [hport]
    refine ⟨{ s with phase := .ready w s.arg0 s.arg1 s.arg2 s.arg3 }, ?_, rfl, .inl rfl⟩
    rw [step_of_turn (s := s.placeWord .cmd w) hwf rfl]
    exact consumerStep_of_command (s := { s with phase := .ready w s.arg0 s.arg1 s.arg2 s.arg3 }) (congrArg some hcmd)
  · rw [hport]
    exact ⟨s, step_of_turn (s := s.placeWord .push w) hwf rfl, rfl, .inr rfl⟩

/-! ### The agents of the block -/

/-- Settles O14: the agent's step is guarded by its readiness (R46). -/
theorem poolAgentStepsWhenItHasWork : Obligations.PoolAgentStepsWhenItHasWork := by
  intro s rest hwf hsched
  have hready := State.poolAgentReady_iff { s with schedule := rest }
  rw [step_of_turn hwf hsched]
  refine ⟨fun hmode hne => ?_, fun hidle => ?_⟩
  · exact congrArg _ (if_pos (hready.2 ⟨hmode, hne⟩))
  · refine congrArg _ (if_neg fun hwork => ?_)
    obtain ⟨hmode, hne⟩ := hready.1 hwork
    rcases hidle with hafter | hempty
    · rw [hafter] at hmode; cases hmode
    · exact hne hempty

/-- R22, U4: with both agents of the block enabled the free value names the one that moves. -/
theorem ownTurn_of_both {s : State} (hbusy : s.phase ≠ .idle) (hready : s.poolAgentReady = true) :
    (Config.freeTurn s.draws = true → ownTurn s = consumerStep { s with draws := s.draws + 1 }) ∧
    (Config.freeTurn s.draws = false → ownTurn s = .next ({ s with draws := s.draws + 1 }).poolStep) := by
  rw [ownTurn, if_pos (Phase.busy_of_ne_idle hbusy), if_pos hready]
  refine ⟨fun hturn => if_pos hturn, fun hturn => ?_⟩
  rw [if_neg (by rw [hturn]; nofun)]
  exact congrArg _ (if_pos hready)

/-- Settles O15, environment by environment. -/
theorem eitherEnabledAgentMayMove : Obligations.EitherEnabledAgentMayMove := by
  intro s hwf hsched
  rw [step_of_no_turn hwf hsched]
  refine ⟨fun henv hbusy hmode hne => ?_, fun henv => ⟨fun t hturn => ?_, freeRun_own henv⟩, freeRun_silent⟩
  · rw [freeRun_silent henv]
    exact ownTurn_of_both hbusy (s.poolAgentReady_iff.2 ⟨hmode, hne⟩)
  · rw [freeRun_outside henv hturn,
      step_of_turn (s := { s with schedule := [t], draws := s.draws + 1 }) hwf rfl, ← hsched]

/-! ### The register window -/

/-- R38: an access that reaches a register is 32 bits wide, at one of the nine offsets of R37. -/
theorem accessedReg_eq_none {offset : Nat} {width : AccessWidth}
    (h : width ≠ .w32 ∨ offset % 4 ≠ 0 ∨ 0x24 ≤ offset) : accessedReg offset width = none := by
  cases width with
  | w8 | w16 | w64 => rfl
  | w32 =>
    have hout := h.resolve_left (not_not_intro rfl)
    show regAt offset = none
    unfold regAt
    split
    case h_10 => rfl
    all_goals omega

theorem Phase.isWaiting_eq_false {p : Phase} (h : ∀ op dst cap t, p ≠ .waiting op dst cap t) : p.isWaiting = false := by
  cases p with
  | waiting op dst cap t => exact absurd rfl (h op dst cap t)
  | idle | ready | pooling | pushing => rfl

/-- Settles O18: offset by offset, STATUS by the three kinds of phase. -/
theorem registerReadsFollowTheMap : Obligations.RegisterReadsFollowTheMap := by
  intro s offset width rest hwf hsched
  refine ⟨s.windowRead offset width, step_of_turn hwf hsched, fun hout => ?_, ?_⟩
  · rw [State.windowRead, accessedReg_eq_none hout]
  · rintro rfl
    refine ⟨?_, fun h => ?_, ?_, ?_, ?_, ?_, ?_, ?_, ?_⟩
    case refine_2 =>
      have hread : s.windowRead offset .w32 = s.statusWord := by rw [h]; rfl
      rw [hread, State.statusWord_toNat]
      refine ⟨fun hidle => ?_, fun ⟨op, dst, cap, t, hwait⟩ => ?_, fun hbusy hnot => ?_⟩
      · rw [hidle]; rfl
      · rw [hwait]; rfl
      · rw [Phase.busy_of_ne_idle hbusy, Phase.isWaiting_eq_false hnot]; rfl
    all_goals rintro rfl; rfl

/-- Settles O19, offset by offset. -/
theorem registerWritesFollowTheMap : Obligations.RegisterWritesFollowTheMap := by
  intro s offset width v rest hwf hsched
  rw [step_of_turn hwf hsched]
  refine ⟨fun hout => ?_, ?_⟩
  · simp only [runTurn, windowWrite, accessedReg_eq_none hout]
  · rintro rfl
    refine ⟨?_, ?_, ?_, ?_, ?_⟩
    case refine_5 => rintro (rfl | rfl | rfl) <;> rfl
    all_goals rintro rfl; rfl

/-- Settles O20: an issue, in IDLE and elsewhere. -/
theorem commandWriteIssuesOnlyWhenIdle : Obligations.CommandWriteIssuesOnlyWhenIdle := by
  intro s w rest hwf hsched
  have hissue : step s = .next (State.issue { s with schedule := rest } w) := step_of_turn hwf hsched
  rw [hissue]
  refine ⟨fun hidle => ?_, fun hbusy => ?_⟩
  · simp only [State.issue, hidle]
  · rw [State.issue_of_busy (s := { s with schedule := rest }) w hbusy]

end Sys2Proof.Machine
end

