-- ==== Sys2Proof/Proofs/Crc.lean ====
section
/-! The CRC of R100 and R102: turns in which nothing leaves the register, and a message followed by its own CRC. -/

namespace Sys2Proof.Machine

theorem crcShift_of_getLsbD_eq_false (poly : Half) {crc : Half} (h : crc.getLsbD 15 = false) :
    crcShift poly crc = crc <<< 1 :=
  if_neg (by rw [h]; exact Bool.false_ne_true)

/-- While the top `k` bits are 0, no turn of R100's loop XORs POLY. -/
theorem crcShifts_eq_shiftLeft (poly : Half) {k : Nat} {crc : Half}
    (h : ∀ i, 16 ≤ i + k → crc.getLsbD i = false) : crcShifts poly k crc = crc <<< k := by
  induction k generalizing crc with
  | zero => simp [crcShifts]
  | succ k ih =>
    have hshift : ∀ i, 16 ≤ i + k → (crc <<< 1).getLsbD i = false := fun i hi => by
      rw [BitVec.getLsbD_shiftLeft]
      cases i with
      | zero => simp
      | succ j => simp [h j (by omega)]
    calc crcShifts poly (k + 1) crc
      _ = crcShifts poly k (crc <<< 1) := by
        rw [crcShifts, crcShift_of_getLsbD_eq_false poly (h 15 (by omega))]
      _ = crc <<< 1 <<< k := ih hshift
      _ = crc <<< (k + 1) := by rw [← BitVec.shiftLeft_add, Nat.add_comm]

/-- R64: the high byte, moved to its place, cancels and leaves the low byte. -/
theorem xor_crcHigh (crc : Half) : crc ^^^ ((crcHigh crc).setWidth 16 <<< 8) = (crcLow crc).setWidth 16 := by
  refine BitVec.eq_of_getLsbD_eq fun i hi => ?_
  by_cases hlow : i < 8
  · simp [crcHigh, crcLow, hi, hlow]
  · have hsame : crc.getLsbD (8 + (i - 8)) = crc.getLsbD i := by rw [Nat.add_sub_cancel' (by omega)]
    have hbyte : i - 8 < 8 := by omega
    simp [crcHigh, crcLow, hi, hlow, hbyte, hsame]

/-- The first CRC byte shifts the low byte into the high half: the eight bits that leave the register are 0. -/
theorem crcUpdate_crcHigh (poly crc : Half) :
    crcUpdate poly crc (crcHigh crc) = (crcLow crc).setWidth 16 <<< 8 := by
  rw [crcUpdate, xor_crcHigh]
  refine crcShifts_eq_shiftLeft poly fun i hi => ?_
  rw [BitVec.getLsbD_setWidth, BitVec.getLsbD_of_ge _ _ (by omega), Bool.and_false]

/-- The second CRC byte cancels what the first left. -/
theorem crcUpdate_shiftLeft_self (poly : Half) (byte : Byte) :
    crcUpdate poly (byte.setWidth 16 <<< 8) byte = 0#16 := by
  rw [crcUpdate, BitVec.xor_self, crcShifts_eq_shiftLeft poly (by simp), BitVec.zero_shiftLeft]

theorem crc16_append (poly : Half) (p q : List Byte) :
    crc16 poly (p ++ q) = q.foldl (crcUpdate poly) (crc16 poly p) := List.foldl_append

/-- Settles O24: the two CRC bytes cancel the CRC one byte at a time, so no turn XORs POLY. -/
theorem crcOverMessageAndItsCrcIsZero : Obligations.CrcOverMessageAndItsCrcIsZero := fun poly p =>
  calc crc16 poly (p ++ [crcHigh (crc16 poly p), crcLow (crc16 poly p)])
    _ = crcUpdate poly (crcUpdate poly (crc16 poly p) (crcHigh (crc16 poly p))) (crcLow (crc16 poly p)) :=
      crc16_append poly p _
    _ = crcUpdate poly ((crcLow (crc16 poly p)).setWidth 16 <<< 8) (crcLow (crc16 poly p)) := by rw [crcUpdate_crcHigh]
    _ = 0#16 := crcUpdate_shiftLeft_self poly _

end Sys2Proof.Machine
end

