-- ==== Sys2Proof/Proofs/Encoding.lean ====
section
/-! The command encoding (R80 to R86): the fields of a CMD word as numbers, what the decoder answers, and that encoder and
decoder undo each other. -/

namespace Sys2Proof.Machine

/-! ### The fields of a word (R80) -/

theorem cmdOp_toNat (w : Word) : (cmdOp w).toNat = w.toNat % 256 := by
  simp [cmdOp]

theorem cmdByte_toNat (w : Word) : (cmdByte w).toNat = w.toNat / 256 % 256 := by
  simp [cmdByte, Nat.shiftRight_eq_div_pow]

theorem cmdSeed_toNat (w : Word) : (cmdSeed w).toNat = w.toNat / 65536 % 2 := by
  rw [cmdSeed, BitVec.getLsbD, Nat.toNat_testBit]

theorem cmdReservedHigh_eq_zero_iff (w : Word) : cmdReservedHigh w = 0#15 ↔ w.toNat / 2 ^ 17 = 0 := by
  rw [cmdReservedHigh, ← BitVec.toNat_inj, BitVec.extractLsb'_toNat, Nat.shiftRight_eq_div_pow]
  exact Eq.congr_left (Nat.mod_eq_of_lt (by omega))

theorem cmdReservedAll_eq_zero_iff (w : Word) : cmdReservedAll w = 0#24 ↔ w.toNat / 2 ^ 8 = 0 := by
  rw [cmdReservedAll, ← BitVec.toNat_inj, BitVec.extractLsb'_toNat, Nat.shiftRight_eq_div_pow]
  exact Eq.congr_left (Nat.mod_eq_of_lt (by omega))

theorem cmdWord_toNat (op byte : Byte) (seed : Bool) :
    (cmdWord op byte seed).toNat = seed.toNat * 65536 + byte.toNat * 256 + op.toNat := by
  rw [cmdWord, BitVec.toNat_append, BitVec.toNat_append, BitVec.toNat_append, BitVec.toNat_ofBool,
    ← Nat.shiftLeft_add_eq_or_of_lt op.isLt, ← Nat.shiftLeft_add_eq_or_of_lt byte.isLt, BitVec.toNat_zero,
    Nat.zero_shiftLeft, Nat.zero_or, Nat.shiftLeft_eq, Nat.shiftLeft_eq]
  omega

@[simp] theorem cmdOp_cmdWord (op byte : Byte) (seed : Bool) : cmdOp (cmdWord op byte seed) = op := by
  refine BitVec.eq_of_toNat_eq ?_
  rw [cmdOp_toNat, cmdWord_toNat]
  omega

@[simp] theorem cmdByte_cmdWord (op byte : Byte) (seed : Bool) : cmdByte (cmdWord op byte seed) = byte := by
  refine BitVec.eq_of_toNat_eq ?_
  rw [cmdByte_toNat, cmdWord_toNat]
  omega

@[simp] theorem cmdSeed_cmdWord (op byte : Byte) (seed : Bool) : cmdSeed (cmdWord op byte seed) = seed := by
  have hseed := seed.toNat_lt
  rw [Bool.eq_iff_iff, ← Bool.toNat_eq_one, ← Bool.toNat_eq_one, cmdSeed_toNat, cmdWord_toNat]
  omega

@[simp] theorem cmdReservedHigh_cmdWord (op byte : Byte) (seed : Bool) :
    cmdReservedHigh (cmdWord op byte seed) = 0#15 := by
  have hseed := seed.toNat_lt
  rw [cmdReservedHigh_eq_zero_iff, cmdWord_toNat]
  omega

@[simp] theorem cmdReservedAll_cmdWord (op : Byte) : cmdReservedAll (cmdWord op 0#8 false) = 0#24 := by
  rw [cmdReservedAll_eq_zero_iff, cmdWord_toNat, BitVec.toNat_zero, Bool.toNat_false]
  omega

/-- A word whose bits 31:17 are 0 is made of OP, BYTE and SEED. -/
theorem cmdWord_fields {w : Word} (h : cmdReservedHigh w = 0#15) : cmdWord (cmdOp w) (cmdByte w) (cmdSeed w) = w := by
  rw [cmdReservedHigh_eq_zero_iff] at h
  refine BitVec.eq_of_toNat_eq ?_
  rw [cmdWord_toNat, cmdOp_toNat, cmdByte_toNat, cmdSeed_toNat]
  omega

/-- A word whose bits 31:8 are 0 is made of OP alone. -/
theorem cmdWord_op {w : Word} (h : cmdReservedAll w = 0#24) : cmdWord (cmdOp w) 0#8 false = w := by
  rw [cmdReservedAll_eq_zero_iff] at h
  refine BitVec.eq_of_toNat_eq ?_
  rw [cmdWord_toNat, cmdOp_toNat, BitVec.toNat_zero, Bool.toNat_false]
  omega

/-- R81: a PUSH word is bits 31:8 above DATA. -/
theorem pushWord_fields (w : Word) : w.extractLsb' 8 24 ++ w.extractLsb' 0 8 = w :=
  (BitVec.extractLsb'_append_extractLsb'_eq_extractLsb' rfl).trans BitVec.extractLsb'_eq_self

/-! ### The decoder -/

/-- R82: the commands without a field but OP are encoded by their opcode alone. -/
theorem encode_of_plainCommand {op : Byte} {i : Instr} (h : plainCommand op = some i) :
    encode i = (.cmd, cmdWord op 0#8 false) := by
  unfold plainCommand at h
  split at h
  case h_11 => cases h
  all_goals
    rename_i hop
    obtain rfl := Option.some.inj h
    obtain ⟨-, rfl⟩ := BitVec.toNat_eq_nat.1 hop
    rfl

/-- R82: 0x02 to 0x0B are the opcodes of the commands without a field but OP. -/
theorem exists_plainCommand_iff (op : Byte) : (∃ i, plainCommand op = some i) ↔ 0x02 ≤ op.toNat ∧ op.toNat ≤ 0x0B := by
  rw [← Option.isSome_iff_exists]
  revert op
  decide

theorem decodeCmd_crcUpdate {w : Word} (hop : cmdOp w = 0x01#8) (hres : cmdReservedHigh w = 0#15) :
    decodeCmd w = .ok (.crcUpdate (cmdByte w) (cmdSeed w)) := by
  rw [decodeCmd, if_pos hop, if_pos hres]

theorem decodeCmd_plain {w : Word} {i : Instr} (hop : plainCommand (cmdOp w) = some i) (hres : cmdReservedAll w = 0#24) :
    decodeCmd w = .ok i := by
  have hne : cmdOp w ≠ 0x01#8 := fun h => by rw [h] at hop; cases hop
  rw [decodeCmd, if_neg hne, hop]
  exact if_pos hres

/-- R80, R82, R84: a legal CMD word is a CRC_UPDATE, or one of the commands 0x02 to 0x0B, with its reserved bits 0. -/
theorem decodeCmd_eq_ok_iff {w : Word} {i : Instr} : decodeCmd w = .ok i ↔
    (cmdOp w = 0x01#8 ∧ cmdReservedHigh w = 0#15 ∧ i = .crcUpdate (cmdByte w) (cmdSeed w)) ∨
      (plainCommand (cmdOp w) = some i ∧ cmdReservedAll w = 0#24) := by
  constructor
  · intro h
    unfold decodeCmd at h
    split at h
    · rename_i hop
      split at h
      · rename_i hres
        exact .inl ⟨hop, hres, (Except.ok.inj h).symm⟩
      · cases h
    · split at h
      · rename_i j hj
        split at h
        · rename_i hres
          exact .inr ⟨Except.ok.inj h ▸ hj, hres⟩
        · cases h
      · cases h
  · rintro (⟨hop, hres, rfl⟩ | ⟨hop, hres⟩)
    · exact decodeCmd_crcUpdate hop hres
    · exact decodeCmd_plain hop hres

/-- The legal CMD words as numbers. -/
theorem exists_decodeCmd_ok_iff (w : Word) : (∃ i, decodeCmd w = .ok i) ↔
    (w.toNat % 256 = 1 ∧ w.toNat / 2 ^ 17 = 0) ∨
      (2 ≤ w.toNat % 256 ∧ w.toNat % 256 ≤ 0x0B) ∧ w.toNat / 2 ^ 8 = 0 := by
  have hone : cmdOp w = 0x01#8 ↔ w.toNat % 256 = 1 := by rw [← BitVec.toNat_inj, cmdOp_toNat]; rfl
  simp only [decodeCmd_eq_ok_iff, exists_or, exists_and_left, exists_and_right, exists_eq, and_true,
    exists_plainCommand_iff, hone, cmdOp_toNat, cmdReservedHigh_eq_zero_iff, cmdReservedAll_eq_zero_iff]

theorem exists_decodeCmd_error_iff (w : Word) : (∃ e, decodeCmd w = .error e) ↔ ¬ ∃ i, decodeCmd w = .ok i := by
  cases decodeCmd w <;> simp

/-! ### Encoding and decoding undo each other -/

theorem decodeCmd_plainWord {op : Byte} {i : Instr} (h : plainCommand op = some i) :
    decodeCmd (cmdWord op 0#8 false) = .ok i :=
  decodeCmd_plain (by rwa [cmdOp_cmdWord]) (cmdReservedAll_cmdWord op)

theorem decodePush_append (data : Byte) (ignored : BitVec 24) : decodePush (ignored ++ data) = .pushByte data ignored := by
  rw [decodePush, BitVec.extractLsb'_append_eq_right, BitVec.extractLsb'_append_eq_left]

/-- Settles O6: CRC_UPDATE gets its fields back from the CMD word, PUSH_BYTE from the PUSH word, and every other
instruction is known by its opcode. -/
theorem decodeOfEncodeIsTheInstruction : Obligations.DecodeOfEncodeIsTheInstruction := by
  intro i _
  cases i with
  | crcUpdate byte seed =>
    have h := decodeCmd_crcUpdate (cmdOp_cmdWord 0x01#8 byte seed) (cmdReservedHigh_cmdWord _ _ _)
    rwa [cmdByte_cmdWord, cmdSeed_cmdWord] at h
  | pushByte data ignored => exact congrArg Except.ok (decodePush_append data ignored)
  | encode | pushBytes | pool | hasNewFrame | countFrame | getOldest | getLatest | removeOldest | removeLatest
  | getDataByte => exact decodeCmd_plainWord rfl

/-- Settles O7: the reserved bits of a legal CMD word are 0, so its fields are the whole word; a PUSH word is kept whole. -/
theorem encodeOfDecodeIsTheWord : Obligations.EncodeOfDecodeIsTheWord := by
  intro p w i h
  cases p with
  | push =>
    obtain rfl := Except.ok.inj h
    exact congrArg (Prod.mk Port.push) (pushWord_fields w)
  | cmd =>
    rcases decodeCmd_eq_ok_iff.1 h with ⟨hop, hres, rfl⟩ | ⟨hop, hres⟩
    · have hword := cmdWord_fields hres
      rw [hop] at hword
      exact congrArg (Prod.mk Port.cmd) hword
    · rw [encode_of_plainCommand hop, cmdWord_op hres]

/-- Every instruction stands for exactly one word of one port. -/
theorem decode_eq_ok_iff {p : Port} {w : Word} {i : Instr} : decode p w = .ok i ↔ encode i = (p, w) := by
  refine ⟨encodeOfDecodeIsTheWord p w i, fun h => ?_⟩
  have hdec := decodeOfEncodeIsTheInstruction i (by cases i <;> rfl)
  rwa [h] at hdec

/-- Settles O9: each word is its instruction's encoding. -/
theorem sampleWordsDecode : Obligations.SampleWordsDecode :=
  ⟨decode_eq_ok_iff.2 rfl, decode_eq_ok_iff.2 rfl, decode_eq_ok_iff.2 rfl, decode_eq_ok_iff.2 rfl,
    decode_eq_ok_iff.2 rfl, decode_eq_ok_iff.2 rfl, decode_eq_ok_iff.2 rfl, decode_eq_ok_iff.2 rfl⟩

/-! ### Illegal words and ignored bits -/

/-- R84: the first step of an illegal word. -/
theorem consumerStep_of_illegal {s : State} {e : DecodeError} (h : s.phase.command = some (.error e)) :
    consumerStep s = .next (s.complete .generic) := by
  simp only [consumerStep, h, illegalWord]

/-- Settles O8: the illegal words are the complement of the legal ones, and the consumer's turn completes them. -/
theorem illegalWordsCompleteWithGeneric : Obligations.IllegalWordsCompleteWithGeneric := by
  refine fun w => ⟨?_, ?_⟩
  · refine (exists_decodeCmd_error_iff w).trans ?_
    rw [exists_decodeCmd_ok_iff]
    omega
  · rintro s rest a0 a1 a2 a3 hwf hphase hsched ⟨e, hdec⟩
    have hcommand : s.phase.command = some (.error e) := by rw [hphase, ← hdec]; rfl
    rw [step_of_turn hwf hsched]
    exact consumerStep_of_illegal (s := { s with schedule := rest }) hcommand

/-- R81, R145: PUSH_BYTE reads its byte alone. -/
theorem exec_pushByte (data : Byte) (ignored : BitVec 24) (s : State) :
    exec (.pushByte data ignored) s = .next (s.push data) := rfl

/-- Settles O10: a PUSH word decodes to its two fields, and bits 31:8 do not enter the step. -/
theorem pushPortTakesEveryWord : Obligations.PushPortTakesEveryWord := by
  refine ⟨fun w => ⟨w.extractLsb' 8 24, ?_⟩, fun data x y s => ?_⟩
  · have hbyte : w.extractLsb' 0 8 = BitVec.ofNat 8 w.toNat := BitVec.eq_of_toNat_eq (by simp)
    rw [← hbyte]
    rfl
  · rw [exec_pushByte, exec_pushByte]

end Sys2Proof.Machine
end

/-! CRC_UPDATE (R100, R104, R105): the loop's turns iterate a XOR-linear map, and the command's exact next state. -/

namespace Sys2Proof.Machine

theorem crcShift_eq_ite_msb (poly crc : Half) :
    crcShift poly crc = if crc.msb = true then (crc <<< 1) ^^^ poly else crc <<< 1 := by
  rw [crcShift, BitVec.msb_eq_getLsbD_last]

theorem crcShifts_eq_iterate (poly : Half) (k : Nat) (crc : Half) :
    crcShifts poly k crc = (crcShift poly)^[k] crc := by
  induction k generalizing crc with
  | zero => rfl
  | succ k ih => rw [crcShifts, ih, Function.iterate_succ_apply]

/-- Settles O22: eight turns are the eighth iterate of one turn, and so is the fold over eight indices. -/
theorem crcUpdateIsTheLoop : Obligations.CrcUpdateIsTheLoop := by
  intro poly prev byte
  simp only [← crcShift_eq_ite_msb]
  rw [crcUpdate, crcShifts_eq_iterate, List.foldl_const, List.length_range]

/-- The turn of a XOR takes POLY once when just one of the two bits 15 is 1; with both 1, POLY cancels. -/
theorem crcShift_xor (poly x y : Half) : crcShift poly (x ^^^ y) = crcShift poly x ^^^ crcShift poly y := by
  simp only [crcShift, BitVec.getLsbD_xor, BitVec.shiftLeft_xor_distrib]
  cases x.getLsbD 15 <;> cases y.getLsbD 15
  case false.false => rfl
  case false.true => exact BitVec.xor_assoc ..
  case true.false =>
    calc x <<< 1 ^^^ y <<< 1 ^^^ poly
      _ = x <<< 1 ^^^ poly ^^^ y <<< 1 := by ac_rfl
  case true.true =>
    calc x <<< 1 ^^^ y <<< 1
      _ = x <<< 1 ^^^ y <<< 1 ^^^ (poly ^^^ poly) := by rw [BitVec.xor_self, BitVec.xor_zero]
      _ = x <<< 1 ^^^ poly ^^^ (y <<< 1 ^^^ poly) := by ac_rfl

theorem crcShifts_xor (poly : Half) (k : Nat) (x y : Half) :
    crcShifts poly k (x ^^^ y) = crcShifts poly k x ^^^ crcShifts poly k y := by
  simp only [crcShifts_eq_iterate]
  exact Function.Semiconj₂.iterate (crcShift_xor poly) k x y

/-- What enters the eight turns is XOR-linear in the previous value and the byte. -/
theorem crcInput_xor (p q : Half) (a b : Byte) :
    p ^^^ q ^^^ ((a ^^^ b).setWidth 16 <<< 8) = (p ^^^ (a.setWidth 16 <<< 8)) ^^^ (q ^^^ (b.setWidth 16 <<< 8)) := by
  rw [BitVec.setWidth_xor, BitVec.shiftLeft_xor_distrib]
  ac_rfl

/-- R104, corner cases: the byte can be moved into the previous value. -/
theorem crcUpdate_eq_crcUpdate_zero (poly p : Half) (a : Byte) :
    crcUpdate poly p a = crcUpdate poly (p ^^^ (a.setWidth 16 <<< 8)) 0#8 := by
  rw [crcUpdate, crcUpdate, BitVec.setWidth_zero, BitVec.zero_shiftLeft, BitVec.xor_zero]

/-- Settles O23: what enters the eight turns is linear, and so is each turn. -/
theorem crcUpdateIsLinear : Obligations.CrcUpdateIsLinear := fun poly p q a b =>
  ⟨by rw [crcUpdate, crcInput_xor, crcShifts_xor]; rfl, crcUpdate_eq_crcUpdate_zero poly p a⟩

/-! ### The command -/

theorem State.operands_of_ready {s : State} {w a0 a1 a2 a3 : Word} (h : s.phase = .ready w a0 a1 a2 a3) :
    s.operands = ⟨a0, a1, a2, a3⟩ := by
  simp only [State.operands, h]

theorem exec_crcUpdate (byte : Byte) (seed : Bool) (s : State) :
    exec (.crcUpdate byte seed) s = .next (State.complete { s with
      result0 := zextHalf (crcUpdate s.cfg.poly (if seed then crcSeed else s.operands.prevCrc) byte) } .ok) := rfl

/-- Settles O25: ARG0 is the one latched at issue. -/
theorem crcUpdateCompletes : Obligations.CrcUpdateCompletes := by
  intro byte seed s w a0 a1 a2 a3 hphase
  rw [exec_crcUpdate, State.operands_of_ready hphase]
  rfl

theorem crc16_concat (poly : Half) (bytes : List Byte) (byte : Byte) :
    crc16 poly (bytes ++ [byte]) = crcUpdate poly (crc16 poly bytes) byte := crc16_append poly bytes [byte]

/-- R64, R65: ARG0[15:0] gives back the CRC that RESULT0 holds zero-extended. -/
theorem extractLsb'_setWidth_half (crc : Half) : (crc.setWidth 32).extractLsb' 0 16 = crc := by
  rw [BitVec.extractLsb'_setWidth_of_le (by decide), BitVec.extractLsb'_eq_self]

/-- Settles O26: a seeded command starts the fold of R102, and one fed the CRC so far adds its byte. -/
theorem crcCommandsChain : Obligations.CrcCommandsChain := by
  intro bytes byte s w a0 a1 a2 a3 hphase
  refine ⟨⟨_, crcUpdateCompletes byte true s w a0 a1 a2 a3 hphase, rfl⟩, fun harg0 => ?_⟩
  refine ⟨_, crcUpdateCompletes byte false s w a0 a1 a2 a3 hphase, ?_⟩
  rw [harg0, extractLsb'_setWidth_half, crc16_concat]
  rfl

end Sys2Proof.Machine

/-! The Frame Encoder (R120 to R125): the wire layout and length of an encoded frame, unstuffing as the inverse of
stuffing, and the outcomes of ENCODE. -/

namespace Sys2Proof.Machine

/-! ### The wire format -/

/-- R121 from any running CRC: the CRC bytes are stuffed as two more bytes of the string. -/
theorem encodeBody_eq_flatMap (c : Config) (crc : Half) (p : List Byte) :
    encodeBody c crc p =
      (p ++ [crcHigh (p.foldl (crcUpdate c.poly) crc), crcLow (p.foldl (crcUpdate c.poly) crc)]).flatMap (stuff c) := by
  induction p generalizing crc with
  | nil => simp [encodeBody]
  | cons b rest ih => rw [encodeBody, ih]; rfl

/-- Settles O27: the body's running CRC starts at the seed, so it ends as the payload's `crc16`. -/
theorem encodedFrameLayout : Obligations.EncodedFrameLayout := by
  intro c p
  rw [encodeFrame, encodeBody_eq_flatMap]
  rfl

theorem stuff_length (c : Config) (b : Byte) :
    (stuff c b).length = 1 + if b = c.header ∨ b = c.trailer ∨ b = c.escape then 1 else 0 := by
  unfold stuff
  split <;> rfl

/-- R120, R122: stuffing adds one byte for each delimiter. -/
theorem stuffed_length (c : Config) (l : List Byte) :
    (l.flatMap (stuff c)).length = l.length + l.countP fun b => b = c.header ∨ b = c.trailer ∨ b = c.escape := by
  induction l with
  | nil => rfl
  | cons b rest ih =>
    simp only [List.flatMap_cons, List.length_append, stuff_length, ih, List.length_cons, List.countP_cons,
      decide_eq_true_eq]
    omega

/-- Settles O28: the count of delimiters is between 0 and the number of stuffed bytes. -/
theorem encodedFrameLength : Obligations.EncodedFrameLength := by
  intro c p
  have hlayout := congrArg List.length (encodedFrameLayout c p)
  have hcount := List.countP_le_length
    (p := fun b => b = c.header ∨ b = c.trailer ∨ b = c.escape)
    (l := p ++ [(crc16 c.poly p).extractLsb' 8 8, (crc16 c.poly p).extractLsb' 0 8])
  rw [List.length_append, List.length_append, stuffed_length] at hlayout
  simp only [List.length_append, List.length_cons, List.length_nil] at hlayout hcount
  refine ⟨by omega, by omega, fun hp => ?_⟩
  have hpos := List.length_pos_of_ne_nil hp
  omega

theorem encodeFrame_length_pos (c : Config) (p : List Byte) : 0 < (encodeFrame c p).length :=
  List.length_pos_of_ne_nil (List.cons_ne_nil _ _)

/-! ### Unstuffing -/

theorem unstuff_escape_cons (c : Config) (x : Byte) (rest : List Byte) :
    unstuff c (c.escape :: x :: rest) = (unstuff c rest).map fun u => (x ^^^ c.xorMask) :: u := by
  rw [unstuff, if_pos rfl]

theorem unstuff_cons_of_ne {c : Config} {b : Byte} (h : b ≠ c.escape) (rest : List Byte) :
    unstuff c (b :: rest) = (unstuff c rest).map fun u => b :: u := by
  cases rest with
  | nil => simp [unstuff, h]
  | cons x rest => rw [unstuff, if_neg h]

/-- R125 for one byte: a delimiter comes back by the second XOR with XOR_MASK, any other byte is no ESCAPE. -/
theorem unstuff_stuff_append (c : Config) (b : Byte) (rest : List Byte) :
    unstuff c (stuff c b ++ rest) = (unstuff c rest).map fun u => b :: u := by
  by_cases hb : b ∈ c.delimiters
  · have hback : b ^^^ c.xorMask ^^^ c.xorMask = b := by rw [BitVec.xor_assoc, BitVec.xor_self, BitVec.xor_zero]
    rw [stuff_of_mem hb, List.cons_append, List.cons_append, List.nil_append, unstuff_escape_cons, hback]
  · have hne : b ≠ c.escape := fun h => hb (Config.mem_delimiters.mpr (.inr (.inr h)))
    rw [stuff_of_not_mem hb, List.cons_append, List.nil_append, unstuff_cons_of_ne hne]

/-- R125 for a string; it holds for every configuration. -/
theorem unstuff_stuffed (c : Config) (p : List Byte) : unstuff c (p.flatMap (stuff c)) = some p := by
  induction p with
  | nil => rfl
  | cons b rest ih => rw [List.flatMap_cons, unstuff_stuff_append, ih, Option.map_some]

/-- Settles O30: R7 is not needed for this direction. -/
theorem unstuffingInvertsStuffing : Obligations.UnstuffingInvertsStuffing := fun c p _ => unstuff_stuffed c p

/-! ### The command -/

theorem exec_encode_of_ready {s : State} {w src n dst cap : Word} (h : s.phase = .ready w src n dst cap) :
    exec .encode s = .next (encodeChecked src n dst cap s) := by
  have hexec : exec .encode s =
    .next (encodeChecked s.operands.a0 s.operands.a1 s.operands.a2 s.operands.a3 s) := rfl
  rw [hexec, State.operands_of_ready h]

/-! The checks of R123, in its order. -/

theorem encodeChecked_of_null {src dst : Word} (n cap : Word) (s : State) (h : src = 0#32 ∨ dst = 0#32) :
    encodeChecked src n dst cap s = s.complete .nullArgument :=
  if_pos h

section operandsGiven

variable {src n dst cap : Word} (s : State) (hsrc : src ≠ 0#32) (hdst : dst ≠ 0#32)
include hsrc hdst

theorem encodeChecked_of_invalid (hn : s32 n ≤ 0) :
    encodeChecked src n dst cap s = s.complete .invalidArgument := by
  rw [encodeChecked, if_neg (not_or.mpr ⟨hsrc, hdst⟩), if_pos hn]

theorem encodeChecked_of_full (hn : 0 < s32 n) (hcap : s32 cap < worstCase (s32 n)) :
    encodeChecked src n dst cap s = s.complete .full := by
  rw [encodeChecked, if_neg (not_or.mpr ⟨hsrc, hdst⟩), if_neg (Int.not_le.mpr hn), if_pos hcap]

theorem encodeChecked_of_room (hn : 0 < s32 n) (hcap : worstCase (s32 n) ≤ s32 cap) :
    encodeChecked src n dst cap s =
      if memAdmit s.cfg src.toNat (s32 n).toNat then encodeAdmitted src.toNat (s32 n).toNat dst.toNat s
      else s.complete .generic := by
  rw [encodeChecked, if_neg (not_or.mpr ⟨hsrc, hdst⟩), if_neg (Int.not_le.mpr hn), if_neg (Int.not_lt.mpr hcap)]

theorem encodeChecked_of_refused (hn : 0 < s32 n) (hcap : worstCase (s32 n) ≤ s32 cap)
    (h : memAdmit s.cfg src.toNat (s32 n).toNat = false ∨
      memAdmit s.cfg dst.toNat (encodeFrame s.cfg (memReadBytes s.mem src.toNat (s32 n).toNat)).length = false) :
    encodeChecked src n dst cap s = s.complete .generic := by
  rw [encodeChecked_of_room s hsrc hdst hn hcap]
  rcases h with hread | hwrite
  · rw [hread]; rfl
  · simp [encodeAdmitted, hwrite]

theorem encodeChecked_of_admitted (hn : 0 < s32 n) (hcap : worstCase (s32 n) ≤ s32 cap)
    (hread : memAdmit s.cfg src.toNat (s32 n).toNat = true) {out : List Byte}
    (hout : encodeFrame s.cfg (memReadBytes s.mem src.toNat (s32 n).toNat) = out)
    (hwrite : memAdmit s.cfg dst.toNat out.length = true) :
    encodeChecked src n dst cap s =
      State.complete { s with mem := memWriteBytes s.mem dst.toNat out, result0 := wordOfNat out.length } .ok := by
  rw [encodeChecked_of_room s hsrc hdst hn hcap, if_pos hread, encodeAdmitted, hout]
  exact if_pos hwrite

end operandsGiven

/-- Settles O31: each clause is one check of R123. -/
theorem encodeErrorsInOrder : Obligations.EncodeErrorsInOrder := by
  intro s w src n dst cap hphase
  rw [exec_encode_of_ready hphase]
  refine ⟨fun hnull => ?_, fun hsrc hdst => ⟨fun hn => ?_, fun hn hcap => ?_, fun hn hcap hrefused => ?_⟩⟩
  · exact congrArg _ (encodeChecked_of_null n cap s hnull)
  · exact congrArg _ (encodeChecked_of_invalid s hsrc hdst hn)
  · exact congrArg _ (encodeChecked_of_full s hsrc hdst hn hcap)
  · exact congrArg _ (encodeChecked_of_refused s hsrc hdst hn hcap hrefused)

theorem memReadBytes_getElem? (m : List Host.Cell) (a : Nat) {n j : Nat} (h : j < n) :
    (memReadBytes m a n)[j]? = some (memRead m (a + j)) := by
  induction n generalizing a j with
  | zero => omega
  | succ n ih =>
    cases j with
    | zero => rfl
    | succ j => rw [memReadBytes, List.getElem?_cons_succ, ih _ (by omega), Nat.add_right_comm, Nat.add_assoc]

/-- A list is the region it agrees with byte by byte. -/
theorem eq_memReadBytes {m : List Host.Cell} {a : Nat} {p : List Byte}
    (h : ∀ j < p.length, p[j]? = some (memRead m (a + j))) : p = memReadBytes m a p.length := by
  refine List.ext_getElem? fun j => ?_
  by_cases hj : j < p.length
  · rw [h j hj, memReadBytes_getElem? m a hj]
  · rw [List.getElem?_eq_none (by omega), List.getElem?_eq_none (by rw [memReadBytes_length]; omega)]

/-- R62: the length of an admitted region not at address 0 fits a register. -/
theorem wordOfNat_toNat_of_admit {c : Config} {dst : Word} {n : Nat} (hdst : dst ≠ 0#32) (hn : 0 < n)
    (h : memAdmit c dst.toNat n = true) : (wordOfNat n).toNat = n := by
  have hle : dst.toNat + n ≤ 2 ^ 32 := memAdmit_le h hn
  have hpos : dst.toNat ≠ 0 := fun h0 => hdst (BitVec.eq_of_toNat_eq h0)
  exact Nat.mod_eq_of_lt (by omega)

/-- Settles O32: the payload is read before the first byte is written, so the regions may overlap. -/
theorem encodeWritesItsFrame : Obligations.EncodeWritesItsFrame := by
  intro s w src n dst cap p hphase hmem hsrc hdst hn hcap hread hlen hpayload hwrite
  have hpos := encodeFrame_length_pos s.cfg p
  have hp : memReadBytes s.mem src.toNat (s32 n).toNat = p := by
    rw [s32, ← hlen, ← eq_memReadBytes hpayload]
  have hencode := encodeChecked_of_admitted s hsrc hdst hn hcap hread (congrArg _ hp) hwrite
  rw [exec_encode_of_ready hphase, hencode]
  exact ⟨_, rfl, wordOfNat_toNat_of_admit hdst hpos hwrite, rfl,
    fun a => memRead_writeBytes _ a hmem (memAdmit_le hwrite hpos)⟩

end Sys2Proof.Machine

/-! Ingest (R140 to R146): the overwrite checks of a push, the drain of one byte after it, and PUSH_BYTES step by step. -/

namespace Sys2Proof.Machine

/-! ### The overwrite checks -/

/-- R140 step 5: an open parse is cancelled with the evicted byte right after its header. -/
theorem State.evictUnparsed_parseStart_eq (s : State) : s.evictUnparsed.parseStart =
    if succMod s.cfg.n s.head = s.procTail ∧ s.parseStart.map (succMod s.cfg.n) = some s.procTail then none
    else s.parseStart := by
  unfold State.evictUnparsed
  by_cases hcatch : succMod s.cfg.n s.head = s.procTail
  · cases hopen : s.parseStart with
    | none => simp [hcatch]
    | some p => simp [hcatch]
  · simp [hcatch]

/-- R140: the second cancel of a push acts on what its first leaves. -/
theorem State.pushRaw_parseStart_eq (s : State) (b : Byte) : (s.pushRaw b).parseStart =
    if succMod s.cfg.n s.head = s.procTail ∧ s.guardOverwrite.parseStart.map (succMod s.cfg.n) = some s.procTail
    then none else s.guardOverwrite.parseStart := by
  simp [State.pushRaw, State.advanceHead, State.evictUnparsed_parseStart_eq]

theorem State.guardOverwrite_literal {s : State} (hmode : s.cfg.guardMode = .literal) : s.guardOverwrite = s := by
  simp only [State.guardOverwrite, hmode]

theorem State.guardOverwrite_parseStart_of_strict {s : State} (hmode : s.cfg.guardMode = .strict) :
    s.guardOverwrite.parseStart = if s.parseStart = some s.head then none else s.parseStart := by
  rw [State.guardOverwrite_strict hmode, State.evictIfOverwritten_parseStart]

/-- R142: under STRICT step 1 includes the cancel of step 5, because the header right before the evicted byte stands at
`head`. -/
theorem State.pushRaw_parseStart_of_strict {s : State} (hmode : s.cfg.guardMode = .strict) (hring : s.ringOk) (b : Byte) :
    (s.pushRaw b).parseStart = if s.parseStart = some s.head then none else s.parseStart := by
  rw [State.pushRaw_parseStart_eq, State.guardOverwrite_parseStart_of_strict hmode]
  refine if_neg ?_
  rintro ⟨hcatch, hcancel⟩
  split_ifs at hcancel with hopen
  · cases hcancel
  · obtain ⟨p, hp, hnext⟩ := Option.map_eq_some_iff.1 hcancel
    have hhead : p = s.head := succMod_injective (hring.parseStart_lt hp) hring.1 (hnext.trans hcatch.symm)
    exact hopen (hhead ▸ hp)

theorem State.push_background {s : State} (hmode : s.cfg.poolMode = .background) (b : Byte) : s.push b = s.pushRaw b := by
  simp only [State.push, hmode]

/-- Settles O34: in BACKGROUND mode the push is the seven steps of R140, whose fields each have their lemma. -/
theorem pushAppliesTheOverwriteChecks : Obligations.PushAppliesTheOverwriteChecks := by
  intro s data ignored hpool hring hindex
  refine ⟨s.pushRaw data, ?_, s.pushRaw_procTail data, fun hstrict => ?_, fun hliteral =>
    ⟨fun p hp => ?_, fun hnone => ?_, ?_⟩⟩
  · rw [exec_pushByte, State.push_background hpool]
  · exact ⟨State.pushRaw_parseStart_of_strict hstrict hring data, State.live_pushRaw_strict hstrict hindex data⟩
  · rw [State.pushRaw_parseStart_eq, State.guardOverwrite_literal hliteral, hp]
    simp
  · rw [State.pushRaw_parseStart_eq, State.guardOverwrite_literal hliteral, hnone, ite_self]
  · rw [State.live_pushRaw hindex, State.guardOverwrite_literal hliteral]

/-! ### The drain after a push -/

theorem State.push_afterPush {s : State} (hmode : s.cfg.poolMode = .afterPush) (b : Byte) :
    s.push b = (s.pushRaw b).drain := by
  simp only [State.push, hmode]

theorem State.drainLoop_of_drained {s : State} (h : s.procTail = s.head) (fuel : Nat) : s.drainLoop fuel = s := by
  cases fuel with
  | zero => rfl
  | succ k => rw [State.drainLoop, if_pos h]

/-- R141: a drain of one unparsed byte is one pool step. -/
theorem State.drain_of_one_byte {s : State} (hn : 0 < s.cfg.n) (hne : s.procTail ≠ s.head)
    (hlast : succMod s.cfg.n s.procTail = s.head) : s.drain = s.poolStep := by
  obtain ⟨k, hk⟩ := Nat.exists_eq_succ_of_ne_zero hn.ne'
  rw [State.drain, hk, State.drainLoop, if_neg hne]
  exact State.drainLoop_of_drained (s := s.poolStep) (by rw [State.poolStep_procTail, hlast, State.poolStep_head]) k

/-- R145: only in a ring of one position is `nextHead` the old `head`. -/
theorem succMod_eq_self_iff {m i : Nat} (h : i < m) : succMod m i = i ↔ m = 1 := by
  rw [succMod_eq h]
  split_ifs <;> omega

/-- Settles O35: with N = 1 the push itself evicts the byte; else it leaves that byte alone unparsed. -/
theorem afterPushDrainsOneByte : Obligations.AfterPushDrainsOneByte := by
  intro s data ignored hmode hring hdrained
  have htail := s.pushRaw_procTail data
  have hhead := s.pushRaw_head data
  have hexec : exec (.pushByte data ignored) s = .next (s.pushRaw data).drain := by
    rw [exec_pushByte, State.push_afterPush hmode]
  rw [hdrained] at htail
  by_cases hone : s.cfg.n = 1
  · rw [if_pos ((succMod_eq_self_iff hring.1).2 hone), ← hhead] at htail
    have hdrain : (s.pushRaw data).drain = s.pushRaw data := State.drainLoop_of_drained htail _
    rw [hdrain] at hexec
    exact ⟨_, hexec, htail, (if_pos hone).symm⟩
  · have hmoved : succMod s.cfg.n s.head ≠ s.head := fun heq => hone ((succMod_eq_self_iff hring.1).1 heq)
    rw [if_neg hmoved] at htail
    have hlast : succMod s.cfg.n (s.pushRaw data).procTail = (s.pushRaw data).head := by rw [htail, hhead]
    have hdrain : (s.pushRaw data).drain = (s.pushRaw data).poolStep := by
      refine State.drain_of_one_byte ?_ ?_ ?_
      · rw [State.pushRaw_cfg]; exact Nat.zero_lt_of_lt hring.1
      · rw [htail, hhead]; exact hmoved.symm
      · rw [State.pushRaw_cfg]; exact hlast
    rw [hdrain] at hexec
    refine ⟨_, hexec, ?_, (if_neg hone).symm⟩
    rw [State.poolStep_procTail, State.poolStep_head, State.pushRaw_cfg, hlast]

/-! ### PUSH_BYTES, one step -/

theorem exec_pushBytes_of_ready {s : State} {w src n a2 a3 : Word} (h : s.phase = .ready w src n a2 a3) :
    exec .pushBytes s = .next (pushBytesFirst src n s) := by
  have hexec : exec .pushBytes s = execPushBytes s := rfl
  rw [hexec, execPushBytes, State.operands_of_ready h, h]

theorem exec_pushBytes_of_pushing {s : State} {a : Word} {i n : Nat} (h : s.phase = .pushing a i n) :
    exec .pushBytes s = .next (pushBytesNext a i n s) := by
  have hexec : exec .pushBytes s = execPushBytes s := rfl
  rw [hexec, execPushBytes, h]

/-! The checks of R146, in its order. -/

theorem pushBytesFirst_of_nothing {src n : Word} (s : State) (h : src = 0#32 ∨ s32 n ≤ 0) :
    pushBytesFirst src n s = s.complete .ok :=
  if_pos h

theorem pushBytesFirst_of_some {src n : Word} (s : State) (hsrc : src ≠ 0#32) (hn : 0 < s32 n) :
    pushBytesFirst src n s =
      if memAdmit s.cfg src.toNat (s32 n).toNat then { s with phase := .pushing src 0 (s32 n).toNat }
      else s.complete .generic :=
  if_neg (not_or.mpr ⟨hsrc, Int.not_le.mpr hn⟩)

theorem pushBytesNext_of_done (a : Word) (n : Nat) (s : State) : pushBytesNext a n n s = s.complete .ok :=
  if_pos rfl

theorem pushBytesNext_of_more (a : Word) {i n : Nat} (s : State) (h : i ≠ n) :
    pushBytesNext a i n s = { s.push (memRead s.mem (a.toNat + i)) with phase := .pushing a (i + 1) n } :=
  if_neg h

/-- Settles O36: each clause is one branch of R146. -/
theorem pushBytesStepByStep : Obligations.PushBytesStepByStep := by
  refine fun s => ⟨fun w src n a2 a3 hphase => ?_, fun a i n hphase => ?_⟩
  · rw [exec_pushBytes_of_ready hphase]
    refine ⟨fun hnothing => ?_, fun hsrc hn hrefused => ?_, fun hsrc hn hadmit => ?_⟩
    · exact congrArg _ (pushBytesFirst_of_nothing s hnothing)
    · exact congrArg _ ((pushBytesFirst_of_some s hsrc hn).trans (if_neg (Bool.eq_false_iff.1 hrefused)))
    · exact congrArg _ ((pushBytesFirst_of_some s hsrc hn).trans (if_pos hadmit))
  · rw [exec_pushBytes_of_pushing hphase]
    refine ⟨?_, fun hmore => ⟨_, rfl, congrArg _ (pushBytesNext_of_more a s hmore)⟩⟩
    rintro rfl
    exact congrArg _ (pushBytesNext_of_done a i s)

/-! ### A push does not look at who moves next

The operations of a push read the rings and the configuration alone, so they commute with giving the state other turns to
come and another phase. -/

/-- `s` at another point of a command's run: with the turns `turns` to come and in phase `p`. -/
def State.runAt (turns : List Turn) (p : Phase) (s : State) : State := { s with schedule := turns, phase := p }

section runAt

variable (turns : List Turn) (p : Phase) (s : State)

@[simp] theorem State.runAt_cfg : (s.runAt turns p).cfg = s.cfg := rfl
@[simp] theorem State.runAt_head : (s.runAt turns p).head = s.head := rfl
@[simp] theorem State.runAt_procTail : (s.runAt turns p).procTail = s.procTail := rfl
@[simp] theorem State.runAt_parseStart : (s.runAt turns p).parseStart = s.parseStart := rfl
@[simp] theorem State.runAt_mem : (s.runAt turns p).mem = s.mem := rfl

theorem State.runAt_evictIfOverwritten (pos : Nat) :
    (s.runAt turns p).evictIfOverwritten pos = (s.evictIfOverwritten pos).runAt turns p := by
  unfold State.evictIfOverwritten
  rw [apply_ite (State.runAt turns p)]
  rfl

theorem State.runAt_indexInsert (d : Descriptor) : (s.runAt turns p).indexInsert d = (s.indexInsert d).runAt turns p := by
  unfold State.indexInsert
  rw [apply_ite (State.runAt turns p)]
  rfl

theorem State.runAt_closeCandidate (q t : Nat) :
    (s.runAt turns p).closeCandidate q t = (s.closeCandidate q t).runAt turns p := by
  have hspan : (s.runAt turns p).ringSpan (succMod s.cfg.n q) t = s.ringSpan (succMod s.cfg.n q) t := rfl
  simp only [State.closeCandidate, State.runAt_cfg, hspan]
  cases unstuff s.cfg (s.ringSpan (succMod s.cfg.n q) t) with
  | none => rfl
  | some u =>
    by_cases hvalid : spanValid s.cfg u = true
    · simp only [hvalid, if_true, State.runAt_indexInsert]
    · simp only [hvalid]
      rfl

theorem State.runAt_examine : (s.runAt turns p).examine = s.examine.runAt turns p := by
  have hbyte : (s.runAt turns p).bufAt s.procTail = s.bufAt s.procTail := rfl
  simp only [State.examine, State.runAt_cfg, State.runAt_procTail, State.runAt_parseStart, hbyte]
  split_ifs
  · rfl
  · cases s.parseStart with
    | none => rfl
    | some q => dsimp only; rw [State.runAt_closeCandidate]; rfl
  · rfl

theorem State.runAt_poolStep : (s.runAt turns p).poolStep = s.poolStep.runAt turns p := by
  simp only [State.poolStep, State.runAt_examine]
  rfl

theorem State.runAt_drainLoop (fuel : Nat) : (s.runAt turns p).drainLoop fuel = (s.drainLoop fuel).runAt turns p := by
  induction fuel generalizing s with
  | zero => rfl
  | succ k ih => simp only [State.drainLoop, State.runAt_poolStep, ih, apply_ite (State.runAt turns p)]; rfl

theorem State.runAt_guardOverwrite : (s.runAt turns p).guardOverwrite = s.guardOverwrite.runAt turns p := by
  cases hmode : s.cfg.guardMode with
  | literal => rw [State.guardOverwrite_literal hmode, State.guardOverwrite_literal (s := s.runAt turns p) hmode]
  | strict =>
    rw [State.guardOverwrite_strict hmode, State.guardOverwrite_strict (s := s.runAt turns p) hmode,
      ← State.runAt_evictIfOverwritten]
    rfl

theorem State.runAt_evictUnparsed : (s.runAt turns p).evictUnparsed = s.evictUnparsed.runAt turns p := by
  unfold State.evictUnparsed
  rw [apply_ite (State.runAt turns p)]
  rfl

theorem State.runAt_setBuf (i : Nat) (b : Byte) : (s.runAt turns p).setBuf i b = (s.setBuf i b).runAt turns p := rfl

theorem State.runAt_advanceHead : (s.runAt turns p).advanceHead = s.advanceHead.runAt turns p := by
  simp only [State.advanceHead, State.runAt_evictIfOverwritten, State.runAt_cfg, State.runAt_head]
  rfl

theorem State.runAt_pushRaw (b : Byte) : (s.runAt turns p).pushRaw b = (s.pushRaw b).runAt turns p := by
  simp only [State.pushRaw, State.runAt_guardOverwrite, State.runAt_head, State.runAt_setBuf, State.runAt_evictUnparsed,
    State.runAt_advanceHead]

theorem State.runAt_push (b : Byte) : (s.runAt turns p).push b = (s.push b).runAt turns p := by
  cases hmode : s.cfg.poolMode with
  | background =>
    rw [State.push_background hmode, State.push_background (s := s.runAt turns p) hmode, State.runAt_pushRaw]
  | afterPush =>
    rw [State.push_afterPush hmode, State.push_afterPush (s := s.runAt turns p) hmode, State.runAt_pushRaw]
    exact State.runAt_drainLoop _ _ _ _

theorem State.pushAll_cons (b : Byte) (rest : List Byte) : s.pushAll (b :: rest) = (s.push b).pushAll rest := rfl

theorem State.runAt_pushAll (bytes : List Byte) :
    (s.runAt turns p).pushAll bytes = (s.pushAll bytes).runAt turns p := by
  induction bytes generalizing s with
  | nil => rfl
  | cons b rest ih => rw [State.pushAll_cons, State.pushAll_cons, State.runAt_push, ih]

end runAt

/-! ### PUSH_BYTES, the whole command -/

/-- R44, R146: the consumer's turn on a PUSH_BYTES under way. -/
theorem step_of_pushing {s : State} (a : Word) (i n : Nat) (rest : List Turn) (hwf : s.cfg.wf = true) :
    step (s.runAt (.consumer :: rest) (.pushing a i n)) = .next (pushBytesNext a i n (s.runAt rest (.pushing a i n))) :=
  (stepRunsTheDecodedCommand (s.runAt (.consumer :: rest) (.pushing a i n)) .pushBytes hwf
    (.inr (.inr (.inl ⟨a, i, n, rfl, rfl⟩)))).1 rest rfl

theorem step_pushing {s : State} (a : Word) {i n : Nat} (rest : List Turn) (hwf : s.cfg.wf = true) (hmore : i ≠ n) :
    step (s.runAt (.consumer :: rest) (.pushing a i n)) =
      .next ((s.push (memRead s.mem (a.toNat + i))).runAt rest (.pushing a (i + 1) n)) := by
  rw [step_of_pushing a i n rest hwf, pushBytesNext_of_more a _ hmore, State.runAt_mem, State.runAt_push]
  rfl

theorem step_pushing_done {s : State} (a : Word) (n : Nat) (rest : List Turn) (hwf : s.cfg.wf = true) :
    step (s.runAt (.consumer :: rest) (.pushing a n n)) = .next ((s.runAt rest (.pushing a n n)).complete .ok) := by
  rw [step_of_pushing a n n rest hwf, pushBytesNext_of_done]

/-- R146, R279: `k` consumer steps of a PUSH_BYTES under way push its next `k` bytes, however long the run goes on. -/
theorem run_pushing {s : State} (a : Word) {i n k : Nat} (rest : List Turn) (j : Nat) (hwf : s.cfg.wf = true)
    (hk : i + k ≤ n) :
    Host.Core.run core (k + j) (s.runAt (List.replicate k .consumer ++ rest) (.pushing a i n)) =
      Host.Core.run core j ((s.pushAll (memReadBytes s.mem (a.toNat + i) k)).runAt rest (.pushing a (i + k) n)) := by
  induction k generalizing s i with
  | zero => rw [Nat.zero_add]; rfl
  | succ k ih =>
    have hstep := step_pushing a (List.replicate k .consumer ++ rest) hwf (by omega : i ≠ n)
    have hrest := ih (s := s.push (memRead s.mem (a.toNat + i))) (i := i + 1) (by rwa [State.push_cfg]) (by omega)
    rw [State.push_mem, Nat.add_right_comm i 1 k, ← Nat.add_assoc a.toNat] at hrest
    rw [Nat.add_right_comm k 1 j]
    exact (run_succ_of_step (k + j) hstep).trans hrest

/-- R146: the first consumer step of an admitted PUSH_BYTES enters PUSHING. -/
theorem step_pushBytes_admitted {s : State} {w src n a2 a3 : Word} {rest : List Turn} (hwf : s.cfg.wf = true)
    (hphase : s.phase = .ready w src n a2 a3) (hdec : decode .cmd w = .ok .pushBytes) (hsrc : src ≠ 0#32)
    (hn : 0 < s32 n) (hadmit : memAdmit s.cfg src.toNat (s32 n).toNat = true) (hsched : s.schedule = .consumer :: rest) :
    step s = .next (s.runAt rest (.pushing src 0 (s32 n).toNat)) := by
  have hcommand := (stepRunsTheDecodedCommand s .pushBytes hwf (.inl ⟨w, src, n, a2, a3, hphase, hdec⟩)).1 rest hsched
  rw [hcommand, exec_pushBytes_of_ready (s := { s with schedule := rest }) hphase, pushBytesFirst_of_some _ hsrc hn]
  exact congrArg _ (if_pos hadmit)

/-- Settles O37: the first step enters PUSHING, each of the next n pushes a byte, and the last one completes. -/
theorem pushBytesTakesNPlusTwoSteps : Obligations.PushBytesTakesNPlusTwoSteps := by
  intro s w src n a2 a3 rest hwf hphase hdec hsrc hn hadmit hsched
  have hfirst := step_pushBytes_admitted hwf hphase hdec hsrc hn hadmit hsched
  have hrun : ∀ k ≤ n.toInt.toNat, ∀ j, Host.Core.run core (k + j + 1) s = Host.Core.run core j
      ((s.pushAll (memReadBytes s.mem src.toNat k)).runAt
        (List.replicate (n.toInt.toNat + 1 - k) .consumer ++ rest) (.pushing src k n.toInt.toNat)) := by
    intro k hk j
    have hpushing := run_pushing (i := 0) src (List.replicate (n.toInt.toNat + 1 - k) .consumer ++ rest) j hwf
      ((Nat.zero_add k).trans_le hk)
    rw [← List.append_assoc, List.replicate_append_replicate, Nat.add_sub_cancel' (Nat.le_succ_of_le hk),
      Nat.zero_add] at hpushing
    exact (run_succ_of_step _ hfirst).trans hpushing
  refine ⟨fun k hk => hrun k hk 0, ?_⟩
  have hpushed := (State.pushAll_frame s (memReadBytes s.mem src.toNat n.toInt.toNat)).cfg
  have hlast := step_pushing_done src n.toInt.toNat rest (by rw [hpushed]; exact hwf)
  rw [hrun _ (Nat.le_refl _) 1, Nat.add_sub_cancel_left]
  exact run_succ_of_step 0 hlast

end Sys2Proof.Machine

/-! The Frame Parser (R160 to R171): unstuffing as the ring walk of R163, a pool step branch by branch, and POOL. -/

namespace Sys2Proof.Machine

/-! ### Unstuffing -/

/-- R163: what the walk adds to the bytes it has is the unstuffing of the span before it, and a turn for every byte of
the span and one more ends it. -/
theorem State.unstuffWalk_eq {s : State} {t : Nat} (ht : t < s.cfg.n) {fuel i : Nat} (hi : i < s.cfg.n)
    (hfuel : distMod s.cfg.n i t < fuel) (u : List Byte) :
    ∃ ok v, s.unstuffWalk t fuel i u = some (ok, u ++ v) ∧
      unstuff s.cfg (s.ringSpan i t) = if ok then some v else none := by
  induction fuel generalizing i u with
  | zero => exact absurd hfuel (Nat.not_lt_zero _)
  | succ k ih =>
  have hnext := succMod_lt i (Nat.zero_lt_of_lt hi)
  by_cases hend : i = t
  · refine ⟨true, [], by simp [State.unstuffWalk, hend], ?_⟩
    rw [State.ringSpan, (distMod_eq_zero hi ht).2 hend]
    rfl
  have hshorter := distMod_succ_left hi ht hend
  rw [State.ringSpan_cons hi ht hend]
  by_cases hesc : s.bufAt i = s.cfg.escape
  · by_cases hlast : succMod s.cfg.n i = t
    · refine ⟨false, [], by simp [State.unstuffWalk, hend, hesc, hlast], ?_⟩
      rw [hlast, State.ringSpan, (distMod_eq_zero ht ht).2 rfl, hesc]
      simp [ringBytes, unstuff]
    · have hshorter' := distMod_succ_left hnext ht hlast
      obtain ⟨ok, v, hwalk, hspan⟩ := ih (succMod_lt (succMod s.cfg.n i) (Nat.zero_lt_of_lt hi)) (by omega)
        (u ++ [s.bufAt (succMod s.cfg.n i) ^^^ s.cfg.xorMask])
      refine ⟨ok, (s.bufAt (succMod s.cfg.n i) ^^^ s.cfg.xorMask) :: v, ?_, ?_⟩
      · rw [State.unstuffWalk, if_neg hend, if_pos hesc, if_neg hlast, hwalk, List.append_assoc, List.singleton_append]
      · rw [State.ringSpan_cons hnext ht hlast, hesc, unstuff_escape_cons, hspan]
        cases ok <;> rfl
  · obtain ⟨ok, v, hwalk, hspan⟩ := ih hnext (by omega) (u ++ [s.bufAt i])
    refine ⟨ok, s.bufAt i :: v, ?_, ?_⟩
    · rw [State.unstuffWalk, if_neg hend, if_neg hesc, hwalk, List.append_assoc, List.singleton_append]
    · rw [unstuff_cons_of_ne hesc, hspan]
      cases ok <;> rfl

/-- Settles O38: a span is shorter than the ring, so N turns are enough. -/
theorem unstuffingIsTheRingWalk : Obligations.UnstuffingIsTheRingWalk := by
  intro s p t hp ht
  have hn : 0 < s.cfg.n := Nat.zero_lt_of_lt hp
  exact State.unstuffWalk_eq ht (succMod_lt p hn) (distMod_lt _ _ hn) []

/-! ### A pool step, branch by branch -/

/-- R164, written out. -/
theorem spanValid_iff (c : Config) (u : List Byte) :
    spanValid c u = true ↔ 3 ≤ u.length ∧
      crc16 c.poly (u.take (u.length - 2)) = u.getD (u.length - 2) 0#8 ++ u.getD (u.length - 1) 0#8 := by
  rw [spanValid, Bool.and_eq_true, decide_eq_true_eq, decide_eq_true_eq]
  rfl

/-- R163, R165: a candidate that ends in an unpaired ESCAPE changes nothing. -/
theorem State.closeCandidate_of_unpaired {s : State} {p t : Nat}
    (h : unstuff s.cfg (s.ringSpan (succMod s.cfg.n p) t) = none) : s.closeCandidate p t = s := by
  simp only [State.closeCandidate, h]

/-- R164, R165: an unstuffed candidate inserts its descriptor exactly when it is valid. -/
theorem State.closeCandidate_of_unstuffed {s : State} {p t : Nat} {u : List Byte}
    (h : unstuff s.cfg (s.ringSpan (succMod s.cfg.n p) t) = some u) :
    s.closeCandidate p t = if spanValid s.cfg u then s.indexInsert ⟨u.headD 0#8, p⟩ else s := by
  simp only [State.closeCandidate, h]

/-- R161. -/
theorem State.poolStep_of_header {s : State} (h : s.bufAt s.procTail = s.cfg.header) :
    s.poolStep.parseStart = some s.procTail ∧ s.poolStep.live = s.live := by
  rw [State.poolStep_parseStart, State.live_poolStep, State.examine, if_pos h]
  exact ⟨rfl, rfl⟩

section trailer

variable {s : State} (hne : s.cfg.trailer ≠ s.cfg.header) (h : s.bufAt s.procTail = s.cfg.trailer)
include hne h

/-- R162: a TRAILER with no open header changes nothing. -/
theorem State.poolStep_of_stray_trailer (hclosed : s.parseStart = none) :
    s.poolStep.parseStart = none ∧ s.poolStep.live = s.live := by
  have hexamine : s.examine = s := by simp [State.examine, h, hne, hclosed]
  rw [State.poolStep_parseStart, State.live_poolStep, hexamine]
  exact ⟨hclosed, rfl⟩

/-- R162: a TRAILER closes the open candidate. -/
theorem State.poolStep_of_closing_trailer {p : Nat} (hopen : s.parseStart = some p) :
    s.poolStep.parseStart = none ∧ s.poolStep.live = (s.closeCandidate p s.procTail).live := by
  have hexamine : s.examine = { s.closeCandidate p s.procTail with parseStart := none } := by
    simp [State.examine, h, hne, hopen]
  rw [State.poolStep_parseStart, State.live_poolStep, hexamine]
  exact ⟨rfl, rfl⟩

end trailer

/-- R166: any other byte changes nothing but `procTail`. -/
theorem State.poolStep_of_plain {s : State} (hheader : s.bufAt s.procTail ≠ s.cfg.header)
    (htrailer : s.bufAt s.procTail ≠ s.cfg.trailer) :
    s.poolStep.parseStart = s.parseStart ∧ s.poolStep.live = s.live := by
  rw [State.poolStep_parseStart, State.live_poolStep, State.examine, if_neg hheader, if_neg htrailer]
  exact ⟨rfl, rfl⟩

/-- R7: the two delimiters a pool step tells apart. -/
theorem trailer_ne_header {c : Config} (hwf : c.wf = true) : c.trailer ≠ c.header := by
  obtain ⟨-, hdistinct, -⟩ := c.wf_iff.1 hwf
  obtain ⟨hne, -⟩ := c.delimitersDistinct_iff.1 hdistinct
  exact hne.symm

/-- Settles O41: one lemma for each branch, and under a closing TRAILER one for each verdict on the candidate. -/
theorem poolStepBranches : Obligations.PoolStepBranches := by
  intro s hwf hring hindex
  have hne := trailer_ne_header hwf
  refine ⟨rfl, s.poolStep_head, s.poolStep_buf, State.poolStep_of_header, fun htrailer => ?_, State.poolStep_of_plain⟩
  refine ⟨?_, fun hclosed => (State.poolStep_of_stray_trailer hne htrailer hclosed).2, fun p hopen => ?_⟩
  · cases hopen : s.parseStart with
    | none => exact (State.poolStep_of_stray_trailer hne htrailer hopen).1
    | some p => exact (State.poolStep_of_closing_trailer hne htrailer hopen).1
  · rw [(State.poolStep_of_closing_trailer hne htrailer hopen).2]
    cases hspan : unstuff s.cfg (s.ringSpan (succMod s.cfg.n p) s.procTail) with
    | none => rw [State.closeCandidate_of_unpaired hspan]
    | some u =>
      rw [State.closeCandidate_of_unstuffed hspan, apply_ite State.live, State.live_indexInsert hindex.slots]
      simp only [spanValid_iff, List.headD_eq_head?_getD, List.head?_eq_getElem?, List.getD_eq_getElem?_getD]

/-! ### POOL -/

/-- R171, on the two cases of the unparsed region. -/
theorem exec_pool (s : State) : exec .pool s =
    .next (if s.procTail = s.head then s.complete .ok else { s.poolStep with phase := .pooling }) := by
  have hexec : exec .pool s = execPool s := rfl
  rw [hexec, execPool, apply_ite Host.Outcome.next]

/-- Settles O42: the two branches of POOL, whose phase does not matter. -/
theorem poolStepsOrCompletes : Obligations.PoolStepsOrCompletes := by
  intro s _
  rw [exec_pool]
  exact ⟨fun hempty => by rw [if_pos hempty]; rfl, fun hmore => ⟨by rw [if_neg hmore], s.poolStep_frame⟩⟩

/-- R160: `k` pool steps. -/
def State.poolSteps (s : State) (k : Nat) : State := State.poolStep^[k] s

theorem State.poolSteps_succ (s : State) (k : Nat) : s.poolSteps (k + 1) = s.poolStep.poolSteps k := rfl

theorem State.poolSteps_frame (s : State) (k : Nat) : SameOutsideRings s (s.poolSteps k) := by
  induction k generalizing s with
  | zero => rfl
  | succ k ih => exact s.poolStep_frame.trans (ih _)

@[simp] theorem State.poolSteps_head (s : State) (k : Nat) : (s.poolSteps k).head = s.head := by
  induction k generalizing s with
  | zero => rfl
  | succ k ih => rw [State.poolSteps_succ, ih, State.poolStep_head]

@[simp] theorem State.poolSteps_buf (s : State) (k : Nat) : (s.poolSteps k).buf = s.buf := by
  induction k generalizing s with
  | zero => rfl
  | succ k ih => rw [State.poolSteps_succ, ih, State.poolStep_buf]

theorem State.poolSteps_procTail {s : State} (h : s.procTail < s.cfg.n) (k : Nat) :
    (s.poolSteps k).procTail = (s.procTail + k) % s.cfg.n := by
  induction k generalizing s with
  | zero => exact (Nat.mod_eq_of_lt h).symm
  | succ k ih =>
    have hnext : s.poolStep.procTail < s.poolStep.cfg.n := by
      rw [State.poolStep_cfg]
      exact succMod_lt _ (Nat.zero_lt_of_lt h)
    rw [State.poolSteps_succ, ih hnext, State.poolStep_cfg, State.poolStep_procTail, succMod, Nat.mod_add_mod,
      Nat.add_assoc, Nat.add_comm 1 k]

/-- R26: the region is not empty before its last byte has been examined. -/
theorem State.poolSteps_procTail_ne_head {s : State} (h : s.ringOk) {k : Nat} (hk : k < s.unparsed) :
    (s.poolSteps k).procTail ≠ s.head := by
  obtain ⟨hhead, htail, -⟩ := h
  have hapart := add_mod_ne (t := s.procTail) hk (distMod_lt _ _ (Nat.zero_lt_of_lt hhead))
  rwa [State.unparsed, add_distMod htail hhead, ← State.poolSteps_procTail htail] at hapart

theorem State.poolSteps_unparsed_procTail {s : State} (h : s.ringOk) : (s.poolSteps s.unparsed).procTail = s.head := by
  obtain ⟨hhead, htail, -⟩ := h
  rw [State.poolSteps_procTail htail, State.unparsed, add_distMod htail hhead]

/-- R44, R171: the consumer's turn on a POOL, issued or under way. -/
theorem step_of_pool {s : State} {p : Phase} (rest : List Turn) (hwf : s.cfg.wf = true)
    (hp : p.command = some (.ok .pool)) :
    step (s.runAt (.consumer :: rest) p) =
      .next (if s.procTail = s.head then (s.runAt rest p).complete .ok else s.poolStep.runAt rest .pooling) := by
  have hturn := step_of_turn (s := s.runAt (.consumer :: rest) p) hwf rfl
  have hexec : exec .pool (s.runAt rest p) = _ := exec_pool _
  rw [State.runAt_poolStep] at hexec
  exact hturn.trans ((consumerStep_of_command (s := s.runAt rest p) hp).trans hexec)

theorem step_pool_of_more {s : State} {p : Phase} (rest : List Turn) (hwf : s.cfg.wf = true)
    (hp : p.command = some (.ok .pool)) (hmore : s.procTail ≠ s.head) :
    step (s.runAt (.consumer :: rest) p) = .next (s.poolStep.runAt rest .pooling) := by
  rw [step_of_pool rest hwf hp, if_neg hmore]

theorem step_pool_of_empty {s : State} {p : Phase} (rest : List Turn) (hwf : s.cfg.wf = true)
    (hp : p.command = some (.ok .pool)) (hempty : s.procTail = s.head) :
    step (s.runAt (.consumer :: rest) p) = .next ((s.runAt rest p).complete .ok) := by
  rw [step_of_pool rest hwf hp, if_pos hempty]

/-- R171, R279: `k` consumer steps of a POOL, none of which finds the region empty, are `k` pool steps, however long the
run goes on. -/
theorem run_pool {s : State} {p : Phase} (rest : List Turn) (hwf : s.cfg.wf = true)
    (hp : p.command = some (.ok .pool)) {k : Nat} (hk : ∀ i < k, (s.poolSteps i).procTail ≠ s.head) (j : Nat) :
    Host.Core.run core (k + j) (s.runAt (List.replicate k .consumer ++ rest) p) =
      Host.Core.run core j ((s.poolSteps k).runAt rest (if k = 0 then p else .pooling)) := by
  induction k generalizing s p with
  | zero => rw [Nat.zero_add]; rfl
  | succ k ih =>
    have hmore : s.procTail ≠ s.head := hk 0 (Nat.succ_pos k)
    have hfirst := step_pool_of_more (List.replicate k .consumer ++ rest) hwf hp hmore
    have hrest := ih (s := s.poolStep) (p := .pooling) (by rwa [State.poolStep_cfg]) rfl
      fun i hi => by rw [State.poolStep_head]; exact hk (i + 1) (Nat.succ_lt_succ hi)
    rw [ite_self] at hrest
    rw [Nat.add_right_comm k 1 j]
    exact (run_succ_of_step (k + j) hfirst).trans hrest

/-- Settles O43: one pool step for each unparsed byte, and the step that finds the region empty. -/
theorem poolDrainsTheRegion : Obligations.PoolDrainsTheRegion := by
  intro s rest hwf hring hphase hsched
  obtain ⟨-, htail, -⟩ := id hring
  have hp : s.phase.command = some (.ok .pool) := by
    rcases hphase with hp | ⟨w, a0, a1, a2, a3, hp, hdec⟩
    · rw [hp]; rfl
    · rw [hp, ← hdec]; rfl
  have hrun : ∀ k ≤ s.unparsed, ∀ j, Host.Core.run core (k + j) s = Host.Core.run core j
      ((s.poolSteps k).runAt (List.replicate (s.unparsed + 1 - k) .consumer ++ rest)
        (if k = 0 then s.phase else .pooling)) := by
    intro k hk j
    have hpools := run_pool (List.replicate (s.unparsed + 1 - k) .consumer ++ rest) hwf hp
      (fun i hi => State.poolSteps_procTail_ne_head hring (Nat.lt_of_lt_of_le hi hk)) j
    rwa [← List.append_assoc, List.replicate_append_replicate, Nat.add_sub_cancel' (Nat.le_succ_of_le hk), ← hsched]
      at hpools
  refine ⟨fun k hpos hk => ⟨_, hrun k hk 0, if_neg (Nat.ne_zero_of_lt hpos), State.poolSteps_procTail htail k,
    s.poolSteps_head k, (s.poolSteps_frame k).code⟩, ?_⟩
  have hdone := State.poolSteps_unparsed_procTail hring
  have hlast := step_pool_of_empty (s := s.poolSteps s.unparsed) (p := if s.unparsed = 0 then s.phase else .pooling) rest
    (by rw [(s.poolSteps_frame _).cfg]; exact hwf) (by split; exacts [hp, rfl]) (by rw [hdone, State.poolSteps_head])
  have hend := hrun s.unparsed (Nat.le_refl _) 1
  rw [Nat.add_sub_cancel_left] at hend
  exact ⟨_, hend.trans (run_succ_of_step 0 hlast), rfl, rfl, hdone, s.poolSteps_head _, s.poolSteps_buf _, rfl⟩

end Sys2Proof.Machine

/-! A frame pushed in AFTER_PUSH mode under STRICT (R168, R170): each push examines its own byte, so a frame is open from
its HEADER to its TRAILER, unless it is so long that it overwrites its own HEADER. -/

namespace Sys2Proof.Machine

/-! ### The wire format of a frame -/

/-- R120, R121: between its delimiters a frame holds neither of them. -/
theorem delimiter_not_mem_encodeBody {c : Config} (hwf : c.wf = true) (p : List Byte) :
    c.header ∉ encodeBody c crcSeed p ∧ c.trailer ∉ encodeBody c crcSeed p := by
  rw [encodeBody_eq_flatMap]
  exact stuffedBytesHoldNoDelimiter c _ hwf

/-- R125: what a receiver unstuffs from a frame. -/
theorem unstuff_encodeBody (c : Config) (p : List Byte) :
    unstuff c (encodeBody c crcSeed p) = some (p ++ [crcHigh (crc16 c.poly p), crcLow (crc16 c.poly p)]) := by
  rw [encodeBody_eq_flatMap]
  exact unstuff_stuffed c _

theorem spanBody_append_pair (p : List Byte) (x y : Byte) : spanBody (p ++ [x, y]) = p := by
  simp [spanBody]

/-- R64, R164: a non-empty payload with its own CRC behind it is valid. -/
theorem spanValid_append_crc {c : Config} {p : List Byte} (hp : p ≠ []) :
    spanValid c (p ++ [crcHigh (crc16 c.poly p), crcLow (crc16 c.poly p)]) = true := by
  have hlen : 3 ≤ (p ++ [crcHigh (crc16 c.poly p), crcLow (crc16 c.poly p)]).length := by
    have hpos := List.length_pos_of_ne_nil hp
    simp only [List.length_append, List.length_cons, List.length_nil]
    omega
  have hcrc : spanCrc (p ++ [crcHigh (crc16 c.poly p), crcLow (crc16 c.poly p)]) = crc16 c.poly p := by
    have hback : crcHigh (crc16 c.poly p) ++ crcLow (crc16 c.poly p) = crc16 c.poly p :=
      (BitVec.extractLsb'_append_extractLsb'_eq_extractLsb' rfl).trans BitVec.extractLsb'_eq_self
    simpa [spanCrc] using hback
  rw [spanValid, spanBody_append_pair, hcrc, decide_eq_true hlen, decide_eq_true rfl]
  rfl

/-! ### What is left of the live descriptors -/

theorem dropIfStartsAt_suffix (pos : Nat) (l : List Descriptor) : dropIfStartsAt pos l <:+ l := by
  cases l with
  | nil => exact List.suffix_refl _
  | cons d rest =>
    rw [dropIfStartsAt]
    split_ifs
    · exact List.suffix_cons d rest
    · exact List.suffix_refl _

/-- R32: an insertion puts the new descriptor behind what is left of the old ones. -/
theorem State.live_indexInsert_suffix {s : State} (h : s.slotsOk) (d : Descriptor) :
    ∃ l, l <:+ s.live ∧ (s.indexInsert d).live = l ++ [d] := by
  refine ⟨_, ?_, State.live_indexInsert h d⟩
  split
  · exact List.drop_suffix _ _
  · exact List.suffix_refl _

/-- R31: the latest descriptor is the last of the live ones. -/
theorem State.latest_of_live_concat {s : State} (h : s.slotsOk) {l : List Descriptor} {d : Descriptor}
    (hlive : s.live = l ++ [d]) : s.latest = d := by
  have hc : 0 < s.frameCount := Nat.pos_of_ne_zero fun hzero => by
    rw [State.live_eq_nil hzero] at hlive
    exact List.append_ne_nil_of_right_ne_nil l (List.cons_ne_nil d []) hlive.symm
  have hlast := State.live_getLast? h hc
  rw [hlive, List.getLast?_concat] at hlast
  exact (Option.some.inj hlast).symm

/-! ### A push that examines its own byte -/

/-- A block in AFTER_PUSH mode under STRICT between two steps: rings in range and no byte unparsed. -/
structure State.PushReady (s : State) : Prop where
  wf : s.cfg.wf = true
  pool : s.cfg.poolMode = .afterPush
  strict : s.cfg.guardMode = .strict
  rings : s.ringsOk
  drained : s.procTail = s.head

theorem State.Inv.pushReady {s : State} (h : s.Inv) (hpool : s.cfg.poolMode = .afterPush)
    (hstrict : s.cfg.guardMode = .strict) : s.PushReady := by
  obtain ⟨hwf, hring, hindex, -, hdrained, -⟩ := h
  exact ⟨hwf, hpool, hstrict, ⟨hring, hindex⟩, hdrained hpool⟩

section pushReady

variable {s : State} (h : s.PushReady)
include h

theorem State.PushReady.head_lt : s.head < s.cfg.n := h.rings.1.1

theorem State.PushReady.buf_wf : cellsWf unlistedByte 0 s.cfg.n s.buf = true := by
  obtain ⟨-, -, -, hbuf⟩ := h.rings.1
  exact hbuf

theorem State.PushReady.push (b : Byte) : (s.push b).PushReady where
  wf := by rw [State.push_cfg]; exact h.wf
  pool := by rw [State.push_cfg]; exact h.pool
  strict := by rw [State.push_cfg]; exact h.strict
  rings := State.push_ringsOk h.rings b
  drained := State.push_drainedOk h.rings b (by rw [State.push_cfg]; exact h.pool)

/-- R141, R145: one pool step after the seven steps of a push, and none in a ring of one position. -/
theorem State.PushReady.push_eq (b : Byte) :
    s.push b = if s.cfg.n = 1 then s.pushRaw b else (s.pushRaw b).poolStep := by
  obtain ⟨t, hexec, -, ht⟩ := afterPushDrainsOneByte s b 0#24 h.pool h.rings.1 h.drained
  rw [exec_pushByte] at hexec
  rw [← ht]
  exact Host.Outcome.next.inj hexec

theorem State.PushReady.push_bufAt (b : Byte) (x : Nat) :
    (s.push b).bufAt x = if x = s.head then b else s.bufAt x := by
  rw [State.bufAt, State.push_buf]
  exact cellsRead_write _ _ b h.buf_wf

/-- R142, R143: what a push lets go is at the old end of the live descriptors. -/
theorem State.PushReady.live_pushRaw_suffix (b : Byte) : (s.pushRaw b).live <:+ s.live := by
  rw [State.live_pushRaw_strict h.strict h.rings.2]
  exact (dropIfStartsAt_suffix _ _).trans (dropIfStartsAt_suffix _ _)

theorem State.PushReady.pushRaw_parseStart (b : Byte) :
    (s.pushRaw b).parseStart = if s.parseStart = some s.head then none else s.parseStart :=
  State.pushRaw_parseStart_of_strict h.strict h.rings.1 b

/-- R141: in a ring of two positions or more the drain of a push is one pool step, and that step examines the byte just
pushed. -/
theorem State.PushReady.push_examines (hn : s.cfg.n ≠ 1) (b : Byte) :
    s.push b = (s.pushRaw b).poolStep ∧ (s.pushRaw b).procTail = s.head ∧
      (s.pushRaw b).bufAt (s.pushRaw b).procTail = b := by
  have htail : (s.pushRaw b).procTail = s.head := by
    rw [State.pushRaw_procTail, h.drained, if_neg fun heq => hn ((succMod_eq_self_iff h.head_lt).1 heq)]
  exact ⟨by rw [h.push_eq, if_neg hn], htail, by rw [htail, State.bufAt_pushRaw h.buf_wf, if_pos rfl]⟩

end pushReady

/-! ### A frame on its way -/

/-- The block in the middle of a frame whose HEADER stands at `start` and whose bytes since then are `sent`, with what is
left of the live descriptors `old`. -/
structure State.InFrame (s : State) (start : Nat) (sent : List Byte) (old : List Descriptor) : Prop where
  ready : s.PushReady
  start_lt : start < s.cfg.n
  opened : s.parseStart = some start
  header : s.bufAt start = s.cfg.header
  bytes : s.ringSpan (succMod s.cfg.n start) s.head = sent
  live : s.live <:+ old

/-- No frame is open, or the next push overwrites the HEADER of the open one (R142); `old` as for a frame on its way. -/
structure State.NoFrame (s : State) (old : List Descriptor) : Prop where
  ready : s.PushReady
  closing : s.parseStart = none ∨ s.parseStart = some s.head
  live : s.live <:+ old

theorem State.pushAll_append (s : State) (a b : List Byte) : s.pushAll (a ++ b) = (s.pushAll a).pushAll b :=
  List.foldl_append

section inFrame

variable {s : State} {start : Nat} {sent : List Byte} {old : List Descriptor}

/-- R161: pushing a HEADER opens a frame at the old `head`. -/
theorem State.PushReady.push_header (h : s.PushReady) (hn : s.cfg.n ≠ 1) :
    (s.push s.cfg.header).InFrame s.head [] s.live := by
  obtain ⟨hpush, htail, hbyte⟩ := h.push_examines hn s.cfg.header
  obtain ⟨hopen, hlive⟩ := State.poolStep_of_header (s := s.pushRaw s.cfg.header) (by rw [hbyte, State.pushRaw_cfg])
  have hnext := succMod_lt s.head (Nat.zero_lt_of_lt h.head_lt)
  refine ⟨h.push _, by rw [State.push_cfg]; exact h.head_lt, ?_, ?_, ?_, ?_⟩
  · rw [hpush, hopen, htail]
  · rw [h.push_bufAt, if_pos rfl, State.push_cfg]
  · rw [State.ringSpan, State.push_cfg, State.push_head, (distMod_eq_zero hnext hnext).2 rfl]
    rfl
  · rw [hpush, hlive]
    exact h.live_pushRaw_suffix _

/-- The HEADER is as old as the frame is long. -/
theorem State.InFrame.age_start (h : s.InFrame start sent old) : s.age start = sent.length + 1 := by
  rw [State.age, ← h.bytes, State.ringSpan, ringBytes_length]

/-- `head` comes back to the HEADER exactly when the frame fills the ring. -/
theorem State.InFrame.head_eq_start_iff (h : s.InFrame start sent old) :
    start = s.head ↔ sent.length + 1 = s.cfg.n := by
  rw [← h.age_start, State.age_eq_n h.start_lt h.ready.head_lt]

section room

variable (h : s.InFrame start sent old) (hroom : sent.length + 1 < s.cfg.n)
include h hroom

theorem State.InFrame.start_ne_head : start ≠ s.head := fun heq => by
  have := h.head_eq_start_iff.1 heq
  omega

theorem State.InFrame.pushRaw_parseStart (b : Byte) : (s.pushRaw b).parseStart = some start := by
  rw [h.ready.pushRaw_parseStart, h.opened, if_neg]
  exact fun heq => h.start_ne_head hroom (Option.some.inj heq)

theorem State.InFrame.push_header (b : Byte) : (s.push b).bufAt start = s.cfg.header := by
  rw [h.ready.push_bufAt, if_neg (h.start_ne_head hroom), h.header]

theorem State.InFrame.push_bytes (b : Byte) :
    (s.push b).ringSpan (succMod s.cfg.n start) (s.push b).head = sent ++ [b] := by
  have hgrow := State.pushRaw_ringSpan_head h.ready.rings.1 b h.start_lt (h.start_ne_head hroom)
  rw [h.bytes] at hgrow
  rw [← hgrow]
  simp only [State.ringSpan, State.push_buf, State.push_head, State.push_cfg, State.pushRaw_buf, State.pushRaw_cfg]

/-- R166: a byte that is no delimiter keeps the frame open while there is room. -/
theorem State.InFrame.push_plain {b : Byte} (hheader : b ≠ s.cfg.header) (htrailer : b ≠ s.cfg.trailer) :
    (s.push b).InFrame start (sent ++ [b]) old := by
  have hn : s.cfg.n ≠ 1 := by omega
  obtain ⟨hpush, htail, hbyte⟩ := h.ready.push_examines hn b
  obtain ⟨hopen, hlive⟩ := State.poolStep_of_plain (s := s.pushRaw b) (by rwa [hbyte, State.pushRaw_cfg])
    (by rwa [hbyte, State.pushRaw_cfg])
  refine ⟨h.ready.push b, by rw [State.push_cfg]; exact h.start_lt, ?_, ?_, ?_, ?_⟩
  · rw [hpush, hopen, h.pushRaw_parseStart hroom]
  · rw [h.push_header hroom, State.push_cfg]
  · rw [State.push_cfg, h.push_bytes hroom]
  · rw [hpush, hlive]
    exact (h.ready.live_pushRaw_suffix b).trans h.live

/-- R162, R165: the TRAILER inserts the descriptor of a valid frame. -/
theorem State.InFrame.push_trailer {u : List Byte} (hu : unstuff s.cfg sent = some u)
    (hvalid : spanValid s.cfg u = true) :
    (s.push s.cfg.trailer).parseStart = none ∧
      ∃ l, l <:+ old ∧ (s.push s.cfg.trailer).live = l ++ [⟨u.headD 0#8, start⟩] := by
  have hn : s.cfg.n ≠ 1 := by omega
  obtain ⟨hpush, htail, hbyte⟩ := h.ready.push_examines hn s.cfg.trailer
  obtain ⟨hclosed, hlive⟩ := State.poolStep_of_closing_trailer (s := s.pushRaw s.cfg.trailer)
    (by rw [State.pushRaw_cfg]; exact trailer_ne_header h.ready.wf) (by rw [hbyte, State.pushRaw_cfg])
    (h.pushRaw_parseStart hroom _)
  have hspan : (s.pushRaw s.cfg.trailer).ringSpan (succMod s.cfg.n start) s.head = sent := by
    rw [State.ringSpan_of_write_outside (State.pushRaw_cfg _ _) s.head
      (fun i hi => State.pushRaw_bufAt h.ready.rings.1 _ hi) (succMod_lt start (by omega)) h.ready.head_lt
      (Nat.le_refl _), h.bytes]
  have hclose := State.closeCandidate_of_unstuffed (s := s.pushRaw s.cfg.trailer) (p := start) (t := s.head) (u := u)
    (by rw [State.pushRaw_cfg, hspan, hu])
  rw [State.pushRaw_cfg, if_pos hvalid] at hclose
  obtain ⟨l, hl, hinsert⟩ := State.live_indexInsert_suffix (State.pushRaw_ringsOk h.ready.rings s.cfg.trailer).2.slots
    ⟨u.headD 0#8, start⟩
  rw [hpush, hlive, htail, hclose]
  exact ⟨hclosed, l, hl.trans ((h.ready.live_pushRaw_suffix _).trans h.live), hinsert⟩

end room

/-- R166: the bytes of a frame that fits, up to its TRAILER. -/
theorem State.InFrame.pushAll {body : List Byte} (h : s.InFrame start sent old)
    (hroom : sent.length + body.length < s.cfg.n) (hheader : s.cfg.header ∉ body) (htrailer : s.cfg.trailer ∉ body) :
    (s.pushAll body).InFrame start (sent ++ body) old := by
  induction body generalizing s sent with
  | nil => rw [List.append_nil]; exact h
  | cons b rest ih =>
    rw [List.length_cons] at hroom
    obtain ⟨hb, hrest⟩ := List.ne_and_not_mem_of_not_mem_cons hheader
    obtain ⟨hb', hrest'⟩ := List.ne_and_not_mem_of_not_mem_cons htrailer
    have hnext := h.push_plain (by omega) hb.symm hb'.symm
    rw [State.pushAll_cons, List.append_cons]
    refine ih hnext ?_ ?_ ?_
    all_goals rw [State.push_cfg]
    · simp only [List.length_append, List.length_singleton]; omega
    · exact hrest
    · exact hrest'

/-- R168, R170: a frame that fits is found at its HEADER, and extraction gives its payload. -/
theorem State.InFrame.finish {p : List Byte} (h : s.InFrame start (encodeBody s.cfg crcSeed p) old) (hp : p ≠ [])
    (hroom : (encodeBody s.cfg crcSeed p).length + 1 < s.cfg.n) :
    (∃ l, l <:+ old ∧ (s.push s.cfg.trailer).live = l ++ [⟨p.headD 0#8, start⟩]) ∧
      (s.push s.cfg.trailer).latest = ⟨p.headD 0#8, start⟩ ∧
      (s.push s.cfg.trailer).extract start = some ⟨p, s.cfg.header, s.cfg.trailer⟩ ∧
      (s.push s.cfg.trailer).parseStart = none := by
  have hvalid := spanValid_append_crc (c := s.cfg) hp
  have hu := unstuff_encodeBody s.cfg p
  obtain ⟨hclosed, l, hl, hlive⟩ := h.push_trailer hroom hu hvalid
  have hid : (p ++ [crcHigh (crc16 s.cfg.poly p), crcLow (crc16 s.cfg.poly p)]).headD 0#8 = p.headD 0#8 := by
    cases p with
    | nil => exact absurd rfl hp
    | cons b rest => rfl
  rw [hid] at hlive
  refine ⟨⟨l, hl, hlive⟩, State.latest_of_live_concat (h.ready.push _).rings.2.slots hlive, ?_, hclosed⟩
  refine State.extract_eq_some_iff.2 ⟨encodeBody s.cfg crcSeed p, [], _, ?_, ?_, ?_, three_le_of_spanValid hvalid, ?_⟩
  · rw [State.push_cfg, h.push_bytes hroom]
  · rw [State.push_cfg]; exact (delimiter_not_mem_encodeBody h.ready.wf p).2
  · rw [State.push_cfg]; exact hu
  · rw [spanBody_append_pair, h.push_header hroom, State.push_cfg]

end inFrame

/-- R121: the pushes of a frame, part by part. -/
theorem State.pushAll_encodeFrame (s : State) (c : Config) (p : List Byte) :
    s.pushAll (encodeFrame c p) = ((s.push c.header).pushAll (encodeBody c crcSeed p)).push c.trailer := by
  rw [encodeFrame, State.pushAll_cons, State.pushAll_append]
  rfl

theorem encodeFrame_length (c : Config) (p : List Byte) :
    (encodeFrame c p).length = (encodeBody c crcSeed p).length + 2 := by
  simp [encodeFrame]

/-- Settles O57: the HEADER opens the frame, its bytes keep it open, and the TRAILER finds it. -/
theorem pushedFrameIsFoundAndReturned : Obligations.PushedFrameIsFoundAndReturned := by
  intro s p hinv hpool hstrict _ hp hfit
  have hready := State.Inv.pushReady hinv hpool hstrict
  obtain ⟨hheader, htrailer⟩ := delimiter_not_mem_encodeBody hready.wf p
  rw [encodeFrame_length] at hfit
  have hbody := (hready.push_header (by omega)).pushAll (body := encodeBody s.cfg crcSeed p)
    (by rw [List.length_nil, State.push_cfg]; omega) (by rwa [State.push_cfg]) (by rwa [State.push_cfg])
  have hcfg : ((s.push s.cfg.header).pushAll (encodeBody s.cfg crcSeed p)).cfg = s.cfg := by
    rw [(State.pushAll_frame _ _).cfg, State.push_cfg]
  rw [State.pushAll_encodeFrame]
  generalize (s.push s.cfg.header).pushAll (encodeBody s.cfg crcSeed p) = t at hbody hcfg
  rw [List.nil_append, ← hcfg] at hbody
  obtain ⟨⟨l, hl, hlive⟩, hrest⟩ := hbody.finish hp (by rw [hcfg]; omega)
  rw [List.suffix_iff_eq_drop.1 hl] at hlive
  rw [hcfg] at hlive hrest
  exact ⟨_, hlive, hrest⟩

/-! ### A frame longer than the ring -/

section noFrame

variable {s : State} {old : List Descriptor}

/-- R142, R166: with no frame left open, nothing but a HEADER opens one, and a ring of one position not even then. -/
theorem State.NoFrame.push (h : s.NoFrame old) {b : Byte} (hb : b ≠ s.cfg.header ∨ s.cfg.n = 1) :
    (s.push b).parseStart = none ∧ (s.push b).live <:+ old := by
  have hraw : (s.pushRaw b).parseStart = none := by
    rw [h.ready.pushRaw_parseStart]
    rcases h.closing with hclosed | hclosing
    · rw [hclosed]; rfl
    · rw [if_pos hclosing]
  have hlive := (h.ready.live_pushRaw_suffix b).trans h.live
  by_cases hn : s.cfg.n = 1
  · rw [h.ready.push_eq, if_pos hn]
    exact ⟨hraw, hlive⟩
  · obtain ⟨hpush, -, hbyte⟩ := h.ready.push_examines hn b
    have hheader := hb.resolve_right hn
    have hstep : (s.pushRaw b).poolStep.parseStart = none ∧ (s.pushRaw b).poolStep.live = (s.pushRaw b).live := by
      by_cases htrailer : b = s.cfg.trailer
      · exact State.poolStep_of_stray_trailer (by rw [State.pushRaw_cfg]; exact trailer_ne_header h.ready.wf)
          (by rw [hbyte, State.pushRaw_cfg, htrailer]) hraw
      · obtain ⟨hparse, hkept⟩ := State.poolStep_of_plain (s := s.pushRaw b) (by rwa [hbyte, State.pushRaw_cfg])
          (by rwa [hbyte, State.pushRaw_cfg])
        exact ⟨hparse.trans hraw, hkept⟩
    rw [hpush, hstep.2]
    exact ⟨hstep.1, hlive⟩

theorem State.NoFrame.pushAll {bytes : List Byte} (h : s.NoFrame old) (hne : bytes ≠ [])
    (hbytes : s.cfg.header ∉ bytes ∨ s.cfg.n = 1) :
    (s.pushAll bytes).parseStart = none ∧ (s.pushAll bytes).live <:+ old := by
  induction bytes generalizing s with
  | nil => exact absurd rfl hne
  | cons b rest ih =>
    have hpush := h.push (b := b) (hbytes.imp_left fun hheader => (List.ne_of_not_mem_cons hheader).symm)
    rw [State.pushAll_cons]
    by_cases hrest : rest = []
    · rw [hrest]; exact hpush
    · refine ih ⟨h.ready.push b, .inl hpush.1, hpush.2⟩ hrest ?_
      rw [State.push_cfg]
      exact hbytes.imp_left List.not_mem_of_not_mem_cons

/-- R142: a frame that fills the ring is given up at the next push, which overwrites its HEADER. -/
theorem State.InFrame.noFrame {start : Nat} {sent : List Byte} (h : s.InFrame start sent old)
    (hfull : sent.length + 1 = s.cfg.n) : s.NoFrame old :=
  ⟨h.ready, .inr (by rw [h.opened, ← h.head_eq_start_iff.2 hfull]), h.live⟩

end noFrame

/-- R168: the bytes of a frame after its HEADER, when they come round to the HEADER before they end. -/
theorem State.PushReady.push_overlong {s : State} (h : s.PushReady) (hn : s.cfg.n ≠ 1) {body rest : List Byte}
    (hfull : body.length + 1 = s.cfg.n) (hheader : s.cfg.header ∉ body ++ rest) (htrailer : s.cfg.trailer ∉ body)
    (hrest : rest ≠ []) :
    ((s.push s.cfg.header).pushAll (body ++ rest)).parseStart = none ∧
      ((s.push s.cfg.header).pushAll (body ++ rest)).live <:+ s.live := by
  rw [List.mem_append, not_or] at hheader
  have hbody := (h.push_header hn).pushAll (body := body) (by rw [List.length_nil, State.push_cfg]; omega)
    (by rw [State.push_cfg]; exact hheader.1) (by rwa [State.push_cfg])
  have hcfg : ((s.push s.cfg.header).pushAll body).cfg = s.cfg := by
    rw [(State.pushAll_frame _ _).cfg, State.push_cfg]
  rw [State.pushAll_append]
  exact (hbody.noFrame (by rwa [hcfg])).pushAll hrest (.inl (by rw [hcfg]; exact hheader.2))

/-- Settles O58: the frame is given up when its HEADER is overwritten, and what follows opens none. -/
theorem frameLongerThanTheRingIsNotFound : Obligations.FrameLongerThanTheRingIsNotFound := by
  intro s p hinv hpool hstrict hclosed hlong
  have hready := State.Inv.pushReady hinv hpool hstrict
  suffices hlost : (s.pushAll (encodeFrame s.cfg p)).parseStart = none ∧
      (s.pushAll (encodeFrame s.cfg p)).live <:+ s.live from
    ⟨_, List.suffix_iff_eq_drop.1 hlost.2, hlost.1⟩
  by_cases hn : s.cfg.n = 1
  · exact State.NoFrame.pushAll ⟨hready, .inl hclosed, List.suffix_refl _⟩ (List.cons_ne_nil _ _) (.inr hn)
  · obtain ⟨hheader, htrailer⟩ := delimiter_not_mem_encodeBody hready.wf p
    rw [encodeFrame_length] at hlong
    have hpos := hready.head_lt
    have hsplit : encodeBody s.cfg crcSeed p ++ [s.cfg.trailer] =
        (encodeBody s.cfg crcSeed p).take (s.cfg.n - 1) ++
          ((encodeBody s.cfg crcSeed p).drop (s.cfg.n - 1) ++ [s.cfg.trailer]) := by
      rw [← List.append_assoc, List.take_append_drop]
    have hover := hready.push_overlong hn (body := (encodeBody s.cfg crcSeed p).take (s.cfg.n - 1))
      (rest := (encodeBody s.cfg crcSeed p).drop (s.cfg.n - 1) ++ [s.cfg.trailer])
      (by rw [List.length_take]; omega)
      (by
        rw [← hsplit, List.mem_append, List.mem_singleton, not_or]
        exact ⟨hheader, (trailer_ne_header hready.wf).symm⟩)
      (fun hmem => htrailer (List.mem_of_mem_take hmem)) (by simp)
    rw [← hsplit] at hover
    exact hover

end Sys2Proof.Machine

/-! The Frame Store API (R200 to R216): the extraction walk of R201, the two queries, and the checks and the delivery of
the five getters at a first step and at a wait step. -/

namespace Sys2Proof.Machine

/-! ### The extraction walk -/

/-- The byte `i` positions after the one that follows `p`. -/
def State.byteAfter (s : State) (p i : Nat) : Byte := s.bufAt ((p + 1 + i) % s.cfg.n)

/-- R10, R201: the region behind a frame start, position by position. -/
theorem State.ringSpan_succ_eq_map {s : State} (p j : Nat) (h : 0 < s.cfg.n) :
    s.ringSpan (succMod s.cfg.n p) j =
      (List.range (distMod s.cfg.n (succMod s.cfg.n p) j)).map (s.byteAfter p) := by
  rw [State.ringSpan, ringBytes_eq_map _ _ (succMod_lt p h)]
  simp only [succMod, Nat.mod_add_mod]
  rfl

theorem map_range_eq_append_cons {α : Type} (f : Nat → α) {j m : Nat} (h : j < m) :
    ∃ rest, (List.range m).map f = (List.range j).map f ++ f j :: rest := by
  obtain ⟨k, rfl⟩ : ∃ k, m = j + 1 + k := ⟨m - (j + 1), by omega⟩
  refine ⟨(List.range k).map fun i => f (j + 1 + i), ?_⟩
  rw [List.range_add, List.range_succ, List.map_append, List.map_append, List.map_map, List.append_assoc]
  rfl

theorem not_mem_map_range_iff {α : Type} {f : Nat → α} {x : α} {m : Nat} :
    x ∉ (List.range m).map f ↔ ∀ i < m, f i ≠ x := by
  simp

section extraction

variable {s : State} {p : Nat}

section terminated

variable {span rest : List Byte} (h : s.ringSpan (succMod s.cfg.n p) s.head = span ++ s.cfg.trailer :: rest)
  (hspan : s.cfg.trailer ∉ span)
include h hspan

/-- R201: a span that ends in an unpaired ESCAPE is bad. -/
theorem State.extract_of_unpaired (hu : unstuff s.cfg span = none) : s.extract p = none := by
  simp only [State.extract, h, takeWhile_ne_of_split hspan, List.drop_left, hu]

/-- R201: an unstuffed span gives its body, unless it is too short to hold one. -/
theorem State.extract_of_unstuffed {u : List Byte} (hu : unstuff s.cfg span = some u) :
    s.extract p = if u.length < 3 then none else some ⟨spanBody u, s.bufAt p, s.cfg.trailer⟩ := by
  simp only [State.extract, h, takeWhile_ne_of_split hspan, List.drop_left, hu]

end terminated

/-- R201: with no raw TRAILER before `head` there is nothing to extract. -/
theorem State.extract_of_no_trailer (h : s.cfg.trailer ∉ s.ringSpan (succMod s.cfg.n p) s.head) :
    s.extract p = none := by
  refine Option.eq_none_iff_forall_ne_some.2 fun f hf => h ?_
  obtain ⟨span, rest, u, hregion, -⟩ := State.extract_eq_some_iff.1 hf
  simp [hregion]

/-- R201: an extracted payload holds at least one byte. -/
theorem State.extract_payload_pos {f : Extracted} (h : s.extract p = some f) : 0 < f.payload.length := by
  obtain ⟨span, rest, u, -, -, -, hlen, rfl⟩ := State.extract_eq_some_iff.1 h
  simp only [spanBody, List.length_take]
  omega

end extraction

/-- Settles O46: the region before `head`, read position by position, splits at its first TRAILER. -/
theorem extractionStopsAtTheFirstTrailer : Obligations.ExtractionStopsAtTheFirstTrailer := by
  intro s p hp hhead
  have hregion := State.ringSpan_succ_eq_map (s := s) p s.head (Nat.zero_lt_of_lt hp)
  refine ⟨fun j hj (htrailer : s.byteAfter p j = s.cfg.trailer) hfirst => ?_, fun hnone => ?_⟩
  · obtain ⟨rest, hsplit⟩ := map_range_eq_append_cons (s.byteAfter p) hj
    rw [hsplit, htrailer] at hregion
    have hclear : s.cfg.trailer ∉ (List.range j).map (s.byteAfter p) := not_mem_map_range_iff.2 hfirst
    split
    next hu => exact State.extract_of_unpaired hregion hclear hu
    next u hu => exact State.extract_of_unstuffed hregion hclear hu
  · refine State.extract_of_no_trailer ?_
    rw [hregion]
    exact not_mem_map_range_iff.2 hnone

/-! ### The queries -/

theorem exec_hasNewFrame (s : State) : exec .hasNewFrame s =
    .next (State.complete { s with result0 := if 0 < s.frameCount then 1#32 else 0#32 } .ok) := rfl

theorem exec_countFrame (s : State) : exec .countFrame s =
    .next (State.complete { s with result0 := wordOfNat s.frameCount } .ok) := rfl

/-- Settles O44: R6 keeps K, and so the count, far below 2^32. -/
theorem queriesComplete : Obligations.QueriesComplete := by
  intro s w a0 a1 a2 a3 _
  refine ⟨exec_hasNewFrame s, exec_countFrame s, fun hcount hwf => ?_⟩
  obtain ⟨hcapacities, -⟩ := s.cfg.wf_iff.1 hwf
  obtain ⟨-, -, hk⟩ := s.cfg.capacitiesOk_iff.1 hcapacities
  exact Nat.mod_eq_of_lt (by omega)

/-! ### A getter's first step -/

theorem exec_getter_of_ready (op : Getter) {s : State} {w dst cap tmo a3 : Word}
    (h : s.phase = .ready w dst cap tmo a3) : exec op.instr s = .next (getterFirst op dst cap tmo s) := by
  rw [exec_getter, getterStep, State.operands_of_ready h, h]

section firstStep

variable (op : Getter) {dst cap : Word} (tmo : Word) {s : State}

theorem getterFirst_of_null (h : dst = 0#32) : getterFirst op dst cap tmo s = s.complete .nullArgument := if_pos h

variable (hdst : dst ≠ 0#32)
include hdst

theorem getterFirst_of_invalid (hcap : s32 cap ≤ 0) :
    getterFirst op dst cap tmo s = s.complete .invalidArgument := by
  rw [getterFirst, if_neg hdst, if_pos hcap]

variable (hcap : 0 < s32 cap)
include hcap

theorem getterFirst_of_frame (hcount : 0 < s.frameCount) :
    getterFirst op dst cap tmo s = deliver op dst cap s := by
  rw [getterFirst, if_neg hdst, if_neg (Int.not_le.2 hcap), if_pos hcount]

theorem getterFirst_of_no_frame (hcount : s.frameCount = 0) : getterFirst op dst cap tmo s =
    if effectiveTimeout tmo = 0 then s.complete .timeout
    else { s with phase := .waiting op dst cap (effectiveTimeout tmo) } := by
  rw [getterFirst, if_neg hdst, if_neg (Int.not_le.2 hcap), if_neg (Nat.not_lt.2 hcount.le)]

end firstStep

/-- Settles O45: the checks of R202 and R204, each in its place. -/
theorem getterFirstStepWithoutDelivery : Obligations.GetterFirstStepWithoutDelivery := by
  intro op s w dst cap tmo a3 hphase
  rw [exec_getter_of_ready op hphase]
  refine ⟨fun hnull => ?_, fun hdst hcap => ?_, fun hdst hcap hcount => ⟨fun ht => ?_, fun ht => ?_⟩⟩
  · rw [getterFirst_of_null op tmo hnull]; rfl
  · rw [getterFirst_of_invalid op tmo hdst hcap]; rfl
  · rw [getterFirst_of_no_frame op tmo hdst hcap hcount]
    exact congrArg _ (if_pos ht)
  · rw [getterFirst_of_no_frame op tmo hdst hcap hcount]
    exact congrArg _ (if_neg ht)

/-! ### A getter's wait step -/

theorem exec_getter_of_waiting {op : Getter} {s : State} {dst cap : Word} {t : Nat}
    (h : s.phase = .waiting op dst cap t) : exec op.instr s = .next (waitStep op dst cap t s) := by
  simp only [exec_getter, getterStep, h, if_true]

section waitStep

variable (op : Getter) (dst cap : Word) (t : Nat) {s : State}

theorem waitStep_of_frame (hcount : 0 < s.frameCount) :
    waitStep op dst cap t s = deliver op dst cap { s with draws := s.draws + 1 } := if_pos hcount

theorem waitStep_of_no_frame (hcount : s.frameCount = 0) : waitStep op dst cap t s =
    if Config.clockExpired s.draws t then State.complete { s with draws := s.draws + 1 } .timeout
    else { s with draws := s.draws + 1 } := if_neg (Nat.not_lt.2 hcount.le)

end waitStep

/-- Settles O49: the frame is looked for before the Clock is. -/
theorem waitStepChecksOnce : Obligations.WaitStepChecksOnce := by
  intro op s dst cap t hphase
  rw [exec_getter_of_waiting hphase]
  refine ⟨fun hcount => ?_, fun hcount hexpired => ?_, fun hcount hpending => ?_⟩
  · rw [waitStep_of_frame op dst cap t hcount]
  · rw [waitStep_of_no_frame op dst cap t hcount, hexpired]; rfl
  · rw [waitStep_of_no_frame op dst cap t hcount, hpending]; rfl

/-! ### Delivery -/

/-- A getter is at the check for a frame, in its first step past the argument checks (R204) or in a wait step (R212);
`drawn` is the count of draws after the step. -/
def State.AtFrameCheck (s : State) (op : Getter) (dst cap : Word) (drawn : Nat) : Prop :=
  (∃ w tmo a3, s.phase = .ready w dst cap tmo a3 ∧ dst ≠ 0#32 ∧ 0 < s32 cap ∧ drawn = s.draws) ∨
    (∃ t, s.phase = .waiting op dst cap t ∧ drawn = s.draws + 1)

/-- R204, R212: with a frame available the check delivers. -/
theorem State.AtFrameCheck.exec_eq {s : State} {op : Getter} {dst cap : Word} {drawn : Nat}
    (h : s.AtFrameCheck op dst cap drawn) (hcount : 0 < s.frameCount) :
    exec op.instr s = .next (deliver op dst cap { s with draws := drawn }) := by
  rcases h with ⟨w, tmo, a3, hphase, hdst, hcap, rfl⟩ | ⟨t, hphase, rfl⟩
  · rw [exec_getter_of_ready op hphase, getterFirst_of_frame op tmo hdst hcap hcount]
  · rw [exec_getter_of_waiting hphase, waitStep_of_frame op dst cap t hcount]

/-- R200: the remove and the get of an end select the same descriptor, and GET_DATA_BYTE the oldest. -/
theorem State.selected_eq_ite (s : State) (op : Getter) :
    s.selected op = if op = .getLatest ∨ op = .removeLatest then s.latest else s.oldest := by
  cases op <;> rfl

section delivery

variable {op : Getter} {dst : Word} (cap : Word) {s : State}

theorem deliver_of_no_extraction (h : s.extract (s.selected op).startPos = none) :
    deliver op dst cap s = s.complete .generic := by
  simp only [deliver, h]

/-- R205: the checks on an extracted frame. -/
theorem deliver_of_extraction {f : Extracted} (h : s.extract (s.selected op).startPos = some f) :
    deliver op dst cap s =
      if s32 cap < (f.payload.length : Int) then s.complete .full
      else if memAdmit s.cfg dst.toNat f.payload.length then
        ((s.handOver op dst.toNat f).evictSelected op).complete .ok
      else s.complete .generic := by
  simp only [deliver, h]

variable {cap} {f : Extracted} (h : s.extract (s.selected op).startPos = some f)
include h

theorem deliver_of_too_long (hlong : s32 cap < (f.payload.length : Int)) :
    deliver op dst cap s = s.complete .full := by
  rw [deliver_of_extraction cap h, if_pos hlong]

variable (hfits : (f.payload.length : Int) ≤ s32 cap)
include hfits

theorem deliver_of_refused (hrefused : memAdmit s.cfg dst.toNat f.payload.length = false) :
    deliver op dst cap s = s.complete .generic := by
  rw [deliver_of_extraction cap h, if_neg (Int.not_lt.2 hfits), hrefused]
  rfl

theorem deliver_of_admitted (hadmit : memAdmit s.cfg dst.toNat f.payload.length = true) :
    deliver op dst cap s = ((s.handOver op dst.toNat f).evictSelected op).complete .ok := by
  rw [deliver_of_extraction cap h, if_neg (Int.not_lt.2 hfits), if_pos hadmit]

end delivery

/-- R205, R208 to R210, R215, R216: all that a successful delivery writes. -/
theorem State.delivered_eq (s : State) (op : Getter) (dst : Nat) (f : Extracted) :
    ((s.handOver op dst f).evictSelected op).complete .ok =
      { s with
        mem := memWriteBytes s.mem dst f.payload
        result0 := wordOfNat f.payload.length
        result1 := if op = .getDataByte then s.result1 else delimiterWord f.trailer f.header
        frameTail := if op = .removeOldest then succMod s.cfg.k s.frameTail else s.frameTail
        frameHead := if op = .removeLatest then predMod s.cfg.k s.frameHead else s.frameHead
        frameCount := if op = .removeOldest ∨ op = .removeLatest then s.frameCount - 1 else s.frameCount
        code := .ok
        phase := .idle } := by
  cases op <;> rfl

/-- Settles O47: the payload fits a capacity only when that is positive, so a first step passes its argument checks. -/
theorem getterDelivers : Obligations.GetterDelivers := by
  intro op s dst cap drawn f hphase hmem hcount hextract hcap hadmit
  rw [← State.selected_eq_ite] at hextract
  have hpos := State.extract_payload_pos hextract
  have hcheck : s.AtFrameCheck op dst cap drawn := by
    refine hphase.imp_left ?_
    rintro ⟨w, tmo, a3, hready, hdst, hdrawn⟩
    exact ⟨w, tmo, a3, hready, hdst, by rw [s32]; omega, hdrawn⟩
  have hdeliver := deliver_of_admitted (s := { s with draws := drawn }) hextract hcap hadmit
  rw [State.delivered_eq] at hdeliver
  exact ⟨_, (hcheck.exec_eq hcount).trans (congrArg _ hdeliver), rfl,
    fun a => memRead_writeBytes _ a hmem (memAdmit_le hadmit hpos)⟩

/-- Settles O48: each failure of R205 completes the state of the check with its code. -/
theorem failedDeliveryEvictsNothing : Obligations.FailedDeliveryEvictsNothing := by
  intro op s dst cap drawn hphase hcount
  have hcheck : s.AtFrameCheck op dst cap drawn := hphase
  rw [hcheck.exec_eq hcount, ← State.selected_eq_ite]
  exact ⟨fun hnone => congrArg _ (deliver_of_no_extraction cap (s := { s with draws := drawn }) hnone),
    fun f hextract => ⟨fun hlong => congrArg _ (deliver_of_too_long (s := { s with draws := drawn }) hextract hlong),
      fun hfits hrefused => congrArg _ (deliver_of_refused (s := { s with draws := drawn }) hextract hfits hrefused)⟩⟩

/-- R201, R205: under STRICT a live descriptor's extraction gives its frame between the two delimiters. -/
theorem State.StrictInv.extract_live {s : State} (h : s.StrictInv) {d : Descriptor} (hd : d ∈ s.live) :
    ∃ f, s.extract d.startPos = some f ∧ f.header = s.cfg.header ∧ f.trailer = s.cfg.trailer := by
  obtain ⟨-, -, -, -, hframes⟩ := h
  obtain ⟨f, hextract, hf⟩ := Option.map_eq_some_iff.1 (hframes d hd)
  simp only [Prod.mk.injEq] at hf
  obtain ⟨-, hheader, htrailer⟩ := hf
  exact ⟨f, hextract, hheader, htrailer⟩

/-- Settles O55: the selected descriptor is live, so its frame is extracted and the checks of R205 decide. -/
theorem strictExtractionNeverFails : Obligations.StrictExtractionNeverFails := by
  rintro op s w dst cap tmo a3 ⟨-, -, hindex, -⟩ hstrict hcount hphase hdst hcap
  obtain ⟨f, hextract, hheader, htrailer⟩ :=
    State.StrictInv.extract_live hstrict (State.selected_mem_live hindex.slots hcount op)
  rw [← State.selected_eq_ite]
  refine ⟨f, deliver op dst cap s, hextract, hheader, htrailer, ?_, ?_⟩
  · rw [exec_getter_of_ready op hphase, getterFirst_of_frame op tmo hdst hcap hcount]
  · rw [deliver_of_extraction cap hextract]
    simp only [apply_ite State.code, State.complete_code]
    rfl

end Sys2Proof.Machine

/-! Errors (R242 to R245): every step of a well-formed block answers, and an instruction that ends with an error changes
nothing else. -/

namespace Sys2Proof.Machine

/-- Settles O17: the step answers, and whatever it does to the rings keeps the parameters. -/
theorem everyStepAnswersANextState : Obligations.EveryStepAnswersANextState := by
  intro s hwf
  obtain ⟨t, ht⟩ := step_answers_of_wf hwf
  exact ⟨t, ht, (step_effect ht).ringMove.cfg_eq⟩

/-- R146: the two ways a step of PUSH_BYTES ends the command. A step that pushes or is admitted goes on in PUSHING. -/
theorem execPushBytes_ends {s t : State} (h : execPushBytes s = .next t) (hidle : t.phase = .idle) :
    t = s.complete .ok ∨ t = s.complete .generic := by
  unfold execPushBytes at h
  split at h <;> injection h with h <;> subst h
  · rename_i addr i n _
    by_cases hdone : i = n
    · exact hdone ▸ .inl (pushBytesNext_of_done addr i s)
    · rw [pushBytesNext_of_more addr s hdone] at hidle
      cases hidle
  · rcases pushBytesFirst_cases s.operands.a0 s.operands.a1 s with ⟨-, heq⟩ | ⟨-, -, -, heq⟩ | ⟨-, -, -, heq⟩
    · exact .inl heq
    · rw [heq] at hidle
      cases hidle
    · exact .inr heq

/-- R243 over the outcomes of an instruction. PUSH_BYTES is left to `execPushBytes_ends`: its outcome `pushesNext` does not
say that the command goes on. -/
theorem ExecEffect.error_frame {i : Instr} {s t : State} (h : ExecEffect s i t) (hi : i ≠ .pushBytes)
    (hbusy : s.phase ≠ .idle) (hidle : t.phase = .idle) (hcode : t.code ≠ .ok) :
    t = { s with code := t.code, phase := .idle, draws := t.draws } := by
  cases h with
  | fails => rfl
  | waits => exact hidle ▸ rfl
  | ends | answers | encodes | delivers => exact absurd rfl hcode
  | pushes d x => exact absurd ((s.push_phase d).symm.trans hidle) hbusy
  | pushesNext => exact absurd rfl hi
  | pools => cases hidle

/-- Settles O50: PUSH_BYTES by the two ways it ends, every other instruction outcome by outcome. -/
theorem errorsHaveNoPartialEffect : Obligations.ErrorsHaveNoPartialEffect := by
  intro i s t h hbusy hidle hcode
  by_cases hi : i = .pushBytes
  · subst hi
    rcases execPushBytes_ends h hidle with rfl | rfl
    · exact absurd rfl hcode
    · rfl
  · exact (exec_effect h).error_frame hi hbusy hidle hcode

end Sys2Proof.Machine

/-! A later reset (R270), a quiescent block (R281), and the operands latched at issue (R274). -/

namespace Sys2Proof.Machine

/-- Settles O5: the turn is a reset, whose state is that of R49 but for what stays (log 19). -/
theorem laterResetKeepsHostMemory : Obligations.LaterResetKeepsHostMemory := by
  intro s rest hwf hsched
  exact ⟨State.resetAgain { s with schedule := rest }, step_of_turn hwf hsched, rfl⟩

/-- R281: with neither agent of the block enabled, the block on its own stays as it is. -/
theorem ownTurn_of_quiescent {s : State} (h : s.quiescent) : ownTurn s = .next s := by
  obtain ⟨hidle, hready⟩ := h
  have hbusy : s.phase.busy = false := by rw [hidle]; rfl
  simp only [ownTurn, poolAgentStep, hbusy, hready, Bool.false_eq_true, if_false]

/-- Settles O16: the two premises on the phase and the unparsed region are quiescence. -/
theorem quiescentStateStays : Obligations.QuiescentStateStays := by
  intro s hwf hidle hempty hsched henv
  have hready : s.poolAgentReady = false := by
    refine Bool.eq_false_iff.2 fun hwork => ?_
    obtain ⟨hmode, hne⟩ := s.poolAgentReady_iff.1 hwork
    exact hne (hempty hmode)
  rw [step_of_no_turn hwf hsched, freeRun_silent henv, ownTurn_of_quiescent ⟨hidle, hready⟩]

/-! ### Pushes and pool steps see the rings alone

What they do to the rings depends on the parameters and the rings, and on nothing that stands outside: they commute with
putting the rings of one state into another. -/

/-- `o` with the parameters, the Byte Stream Buffer, its positions and the Frame Index of `s`. -/
def State.withRings (o s : State) : State :=
  { o with
    cfg := s.cfg, buf := s.buf, head := s.head, procTail := s.procTail, parseStart := s.parseStart
    desc := s.desc, frameHead := s.frameHead, frameTail := s.frameTail, frameCount := s.frameCount }

section withRings

variable (o s : State)

@[simp] theorem State.withRings_cfg : (o.withRings s).cfg = s.cfg := rfl
@[simp] theorem State.withRings_head : (o.withRings s).head = s.head := rfl
@[simp] theorem State.withRings_procTail : (o.withRings s).procTail = s.procTail := rfl
@[simp] theorem State.withRings_parseStart : (o.withRings s).parseStart = s.parseStart := rfl

theorem State.withRings_indexInsert (d : Descriptor) :
    (o.withRings s).indexInsert d = o.withRings (s.indexInsert d) := by
  unfold State.indexInsert
  rw [apply_ite o.withRings]
  rfl

theorem State.withRings_evictIfOverwritten (pos : Nat) :
    (o.withRings s).evictIfOverwritten pos = o.withRings (s.evictIfOverwritten pos) := by
  unfold State.evictIfOverwritten
  rw [apply_ite o.withRings]
  rfl

theorem State.withRings_closeCandidate (p t : Nat) :
    (o.withRings s).closeCandidate p t = o.withRings (s.closeCandidate p t) := by
  have hspan : (o.withRings s).ringSpan (succMod s.cfg.n p) t = s.ringSpan (succMod s.cfg.n p) t := rfl
  simp only [State.closeCandidate, State.withRings_cfg, hspan]
  cases unstuff s.cfg (s.ringSpan (succMod s.cfg.n p) t) with
  | none => rfl
  | some u => simp only [State.withRings_indexInsert, apply_ite o.withRings]

theorem State.withRings_examine : (o.withRings s).examine = o.withRings s.examine := by
  have hbyte : (o.withRings s).bufAt s.procTail = s.bufAt s.procTail := rfl
  simp only [State.examine, State.withRings_cfg, State.withRings_procTail, State.withRings_parseStart, hbyte]
  split_ifs
  · rfl
  · cases s.parseStart with
    | none => rfl
    | some p => dsimp only; rw [State.withRings_closeCandidate]; rfl
  · rfl

theorem State.withRings_poolStep : (o.withRings s).poolStep = o.withRings s.poolStep := by
  simp only [State.poolStep, State.withRings_examine]
  rfl

theorem State.withRings_drainLoop (fuel : Nat) : (o.withRings s).drainLoop fuel = o.withRings (s.drainLoop fuel) := by
  induction fuel generalizing s with
  | zero => rfl
  | succ k ih => simp only [State.drainLoop, State.withRings_poolStep, ih, apply_ite o.withRings]; rfl

theorem State.withRings_guardOverwrite : (o.withRings s).guardOverwrite = o.withRings s.guardOverwrite := by
  cases hmode : s.cfg.guardMode with
  | literal => rw [State.guardOverwrite_literal hmode, State.guardOverwrite_literal (s := o.withRings s) hmode]
  | strict =>
    rw [State.guardOverwrite_strict hmode, State.guardOverwrite_strict (s := o.withRings s) hmode,
      ← State.withRings_evictIfOverwritten]
    rfl

theorem State.withRings_evictUnparsed : (o.withRings s).evictUnparsed = o.withRings s.evictUnparsed := by
  unfold State.evictUnparsed
  rw [apply_ite o.withRings]
  rfl

theorem State.withRings_setBuf (i : Nat) (b : Byte) : (o.withRings s).setBuf i b = o.withRings (s.setBuf i b) := rfl

theorem State.withRings_advanceHead : (o.withRings s).advanceHead = o.withRings s.advanceHead := by
  simp only [State.advanceHead, State.withRings_evictIfOverwritten, State.withRings_cfg, State.withRings_head]
  rfl

theorem State.withRings_pushRaw (b : Byte) : (o.withRings s).pushRaw b = o.withRings (s.pushRaw b) := by
  simp only [State.pushRaw, State.withRings_guardOverwrite, State.withRings_head, State.withRings_setBuf,
    State.withRings_evictUnparsed, State.withRings_advanceHead]

theorem State.withRings_push (b : Byte) : (o.withRings s).push b = o.withRings (s.push b) := by
  cases hmode : s.cfg.poolMode with
  | background =>
    rw [State.push_background hmode, State.push_background (s := o.withRings s) hmode, State.withRings_pushRaw]
  | afterPush =>
    rw [State.push_afterPush hmode, State.push_afterPush (s := o.withRings s) hmode, State.withRings_pushRaw]
    exact State.withRings_drainLoop _ _ _

end withRings

/-! ### Other values in ARG0 to ARG3 -/

/-- `s` with the words `a` in ARG0 to ARG3. -/
def State.withArgs (a : Operands) (s : State) : State :=
  { s with arg0 := a.a0, arg1 := a.a1, arg2 := a.a2, arg3 := a.a3 }

section withArgs

variable (a : Operands) (s : State)

/-- What changes the rings alone leaves ARG0 to ARG3 as they are, so they can be written before or after. -/
theorem SameOutsideRings.withArgs {s t : State} (h : SameOutsideRings s t) :
    (s.withArgs a).withRings t = t.withArgs a := by
  rw [State.withRings, h.cfg]
  exact (congrArg (State.withArgs a) h).symm

theorem State.withArgs_poolStep : (s.withArgs a).poolStep = s.poolStep.withArgs a :=
  ((s.withArgs a).withRings_poolStep s).trans (s.poolStep_frame.withArgs a)

theorem State.withArgs_push (b : Byte) : (s.withArgs a).push b = (s.push b).withArgs a :=
  ((s.withArgs a).withRings_push s b).trans ((s.push_frame b).withArgs a)

theorem encodeChecked_withArgs (src n dst cap : Word) :
    encodeChecked src n dst cap (s.withArgs a) = (encodeChecked src n dst cap s).withArgs a := by
  simp only [encodeChecked, encodeAdmitted, apply_ite (State.withArgs a)]
  rfl

theorem pushBytesFirst_withArgs (src n : Word) :
    pushBytesFirst src n (s.withArgs a) = (pushBytesFirst src n s).withArgs a := by
  simp only [pushBytesFirst, apply_ite (State.withArgs a)]
  rfl

theorem pushBytesNext_withArgs (addr : Word) (i n : Nat) :
    pushBytesNext addr i n (s.withArgs a) = (pushBytesNext addr i n s).withArgs a := by
  simp only [pushBytesNext, apply_ite (State.withArgs a), State.withArgs_push]
  rfl

theorem deliver_withArgs (op : Getter) (dst cap : Word) :
    deliver op dst cap (s.withArgs a) = (deliver op dst cap s).withArgs a := by
  have hsame : (s.withArgs a).extract ((s.withArgs a).selected op).startPos = s.extract (s.selected op).startPos := rfl
  cases hextract : s.extract (s.selected op).startPos with
  | none =>
    rw [deliver_of_no_extraction cap hextract, deliver_of_no_extraction cap (hsame.trans hextract)]
    rfl
  | some f =>
    rw [deliver_of_extraction cap hextract, deliver_of_extraction cap (hsame.trans hextract), State.delivered_eq,
      State.delivered_eq]
    simp only [apply_ite (State.withArgs a)]
    rfl

theorem getterFirst_withArgs (op : Getter) (dst cap tmo : Word) :
    getterFirst op dst cap tmo (s.withArgs a) = (getterFirst op dst cap tmo s).withArgs a := by
  simp only [getterFirst, apply_ite (State.withArgs a), ← deliver_withArgs]
  rfl

theorem waitStep_withArgs (op : Getter) (dst cap : Word) (t : Nat) :
    waitStep op dst cap t (s.withArgs a) = (waitStep op dst cap t s).withArgs a := by
  simp only [waitStep, apply_ite (State.withArgs a), ← deliver_withArgs]
  rfl

/-- The instruction answers a next state, and does the same to everything else whatever ARG0 to ARG3 hold. -/
def ArgsIrrelevant (i : Instr) : Prop :=
  ∃ t, exec i s = .next t ∧ exec i (s.withArgs a) = .next (t.withArgs a)

theorem exec_pool_argsIrrelevant : ArgsIrrelevant a s .pool := by
  refine ⟨_, exec_pool s, (exec_pool (s.withArgs a)).trans (congrArg _ ?_)⟩
  simp only [apply_ite (State.withArgs a), State.withArgs_poolStep]
  rfl

variable {s}

theorem exec_getter_argsIrrelevant_of_ready {w a0 a1 a2 a3 : Word} (h : s.phase = .ready w a0 a1 a2 a3) (op : Getter) :
    ArgsIrrelevant a s op.instr :=
  ⟨_, exec_getter_of_ready op h,
    (exec_getter_of_ready (s := s.withArgs a) op h).trans (congrArg _ (getterFirst_withArgs a s op a0 a1 a2))⟩

/-- R45, R83: a command's first step takes its operands from the phase. -/
theorem exec_argsIrrelevant_of_ready {w a0 a1 a2 a3 : Word} (h : s.phase = .ready w a0 a1 a2 a3) (i : Instr) :
    ArgsIrrelevant a s i := by
  cases i with
  | crcUpdate byte seed =>
    exact ⟨_, crcUpdateCompletes byte seed s w a0 a1 a2 a3 h,
      crcUpdateCompletes byte seed (s.withArgs a) w a0 a1 a2 a3 h⟩
  | encode =>
    exact ⟨_, exec_encode_of_ready h,
      (exec_encode_of_ready (s := s.withArgs a) h).trans (congrArg _ (encodeChecked_withArgs a s a0 a1 a2 a3))⟩
  | pushBytes =>
    exact ⟨_, exec_pushBytes_of_ready h,
      (exec_pushBytes_of_ready (s := s.withArgs a) h).trans (congrArg _ (pushBytesFirst_withArgs a s a0 a1))⟩
  | pool => exact exec_pool_argsIrrelevant a s
  | hasNewFrame => exact ⟨_, exec_hasNewFrame s, rfl⟩
  | countFrame => exact ⟨_, exec_countFrame s, rfl⟩
  | getOldest => exact exec_getter_argsIrrelevant_of_ready a h .getOldest
  | getLatest => exact exec_getter_argsIrrelevant_of_ready a h .getLatest
  | removeOldest => exact exec_getter_argsIrrelevant_of_ready a h .removeOldest
  | removeLatest => exact exec_getter_argsIrrelevant_of_ready a h .removeLatest
  | getDataByte => exact exec_getter_argsIrrelevant_of_ready a h .getDataByte
  | pushByte data ignored => exact ⟨_, exec_pushByte data ignored s, congrArg _ (State.withArgs_push a s data)⟩

theorem exec_pushBytes_argsIrrelevant_of_pushing {addr : Word} {i n : Nat} (h : s.phase = .pushing addr i n) :
    ArgsIrrelevant a s .pushBytes :=
  ⟨_, exec_pushBytes_of_pushing h,
    (exec_pushBytes_of_pushing (s := s.withArgs a) h).trans (congrArg _ (pushBytesNext_withArgs a s addr i n))⟩

theorem exec_getter_argsIrrelevant_of_waiting {op : Getter} {dst cap : Word} {t : Nat}
    (h : s.phase = .waiting op dst cap t) : ArgsIrrelevant a s op.instr :=
  ⟨_, exec_getter_of_waiting h,
    (exec_getter_of_waiting (s := s.withArgs a) h).trans (congrArg _ (waitStep_withArgs a s op dst cap t))⟩

end withArgs

/-- Settles O21: in READY the operands are the latched ones, and no later step of a command reads ARG0 to ARG3. -/
theorem latchedOperandsDecideTheCommand : Obligations.LatchedOperandsDecideTheCommand := by
  intro i s t x0 x1 x2 x3 hphase ht
  have hsame : ArgsIrrelevant ⟨x0, x1, x2, x3⟩ s i := by
    rcases hphase with ⟨w, a0, a1, a2, a3, hready⟩ | ⟨-, rfl⟩ | ⟨addr, j, n, hpushing, rfl⟩ |
      ⟨op, dst, cap, tmo, hwaiting, rfl⟩
    · exact exec_argsIrrelevant_of_ready _ hready i
    · exact exec_pool_argsIrrelevant _ s
    · exact exec_pushBytes_argsIrrelevant_of_pushing _ hpushing
    · exact exec_getter_argsIrrelevant_of_waiting _ hwaiting
  obtain ⟨u, hu, hargs⟩ := hsame
  obtain rfl : t = u := Host.Outcome.next.inj (ht.symm.trans hu)
  exact hargs

end Sys2Proof.Machine

/-! Fair runs (R213, R280): every command but POOL completes, and POOL can go on for ever (F3). -/

namespace Sys2Proof.Machine

/-! ### What one consumer step does to the phase -/

/-- R82: PUSH_BYTE has no CMD word. -/
theorem decode_cmd_ne_pushByte (w : Word) (d : Byte) (x : BitVec 24) : decode .cmd w ≠ .ok (.pushByte d x) := by
  intro h
  rcases decodeCmd_eq_ok_iff.1 h with ⟨-, -, hcrc⟩ | ⟨hplain, -⟩
  · cases hcrc
  · cases encode_of_plainCommand hplain

theorem encodeChecked_phase (src n dst cap : Word) (s : State) : (encodeChecked src n dst cap s).phase = .idle := by
  rcases encodeChecked_cases src n dst cap s with
    ⟨-, heq⟩ | ⟨-, -, -, heq⟩ | ⟨-, -, -, -, heq⟩ | ⟨-, -, -, -, heq⟩ | ⟨-, -, -, -, -, out, -, -, heq⟩ <;>
    exact heq ▸ rfl

theorem deliver_phase (op : Getter) (dst cap : Word) (s : State) : (deliver op dst cap s).phase = .idle := by
  rcases deliver_cases op dst cap s with ⟨-, heq⟩ | ⟨f, -, -, heq⟩ | ⟨f, -, -, -, heq⟩ | ⟨f, -, -, -, heq⟩ <;>
    exact heq ▸ rfl

theorem waitStep_phase (op : Getter) (dst cap : Word) (t : Nat) (s : State) :
    (waitStep op dst cap t s).phase = .idle ∨
      (waitStep op dst cap t s).phase = s.phase ∧ Config.clockExpired s.draws t = false := by
  rcases waitStep_cases op dst cap t s with ⟨-, heq⟩ | ⟨-, -, heq⟩ | ⟨-, hpending, heq⟩
  · exact .inl (heq ▸ deliver_phase op dst cap _)
  · exact .inl (heq ▸ rfl)
  · exact .inr ⟨heq ▸ rfl, hpending⟩

/-- The phases a command other than POOL can be in after its first step. -/
def Phase.AfterFirstStep (p : Phase) : Prop :=
  p = .idle ∨ (∃ a n, p = .pushing a 0 n) ∨ ∃ op dst cap t, p = .waiting op dst cap t

theorem pushBytesFirst_phase (src n : Word) (s : State) : (pushBytesFirst src n s).phase.AfterFirstStep := by
  rcases pushBytesFirst_cases src n s with ⟨-, heq⟩ | ⟨-, -, -, heq⟩ | ⟨-, -, -, heq⟩
  · exact .inl (heq ▸ rfl)
  · exact .inr (.inl ⟨src, (s32 n).toNat, heq ▸ rfl⟩)
  · exact .inl (heq ▸ rfl)

theorem getterFirst_phase (op : Getter) (dst cap tmo : Word) (s : State) :
    (getterFirst op dst cap tmo s).phase.AfterFirstStep := by
  rcases getterFirst_cases op dst cap tmo s with
    ⟨-, heq⟩ | ⟨-, -, heq⟩ | ⟨-, -, -, heq⟩ | ⟨-, -, -, -, heq⟩ | ⟨-, -, -, -, heq⟩
  · exact .inl (heq ▸ rfl)
  · exact .inl (heq ▸ rfl)
  · exact .inl (heq ▸ deliver_phase op dst cap s)
  · exact .inl (heq ▸ rfl)
  · exact .inr (.inr ⟨op, dst, cap, effectiveTimeout tmo, heq ▸ rfl⟩)

theorem exec_getter_phase_of_ready (op : Getter) {s t : State} {w a0 a1 a2 a3 : Word}
    (hphase : s.phase = .ready w a0 a1 a2 a3) (h : exec op.instr s = .next t) : t.phase.AfterFirstStep := by
  rw [exec_getter_of_ready op hphase] at h
  injection h with h
  exact h ▸ getterFirst_phase op a0 a1 a2 s

/-- R44: where the first step of a command other than POOL leads. -/
theorem exec_phase_of_ready {i : Instr} {s t : State} {w a0 a1 a2 a3 : Word}
    (hphase : s.phase = .ready w a0 a1 a2 a3) (h : exec i s = .next t) (hpool : i ≠ .pool)
    (hpush : ∀ d x, i ≠ .pushByte d x) : t.phase.AfterFirstStep := by
  cases i with
  | pool => exact absurd rfl hpool
  | pushByte d x => exact absurd rfl (hpush d x)
  | crcUpdate | hasNewFrame | countFrame => injection h with h; exact .inl (h ▸ rfl)
  | encode => injection h with h; exact .inl (h ▸ encodeChecked_phase _ _ _ _ s)
  | pushBytes =>
    rw [exec_pushBytes_of_ready hphase] at h
    injection h with h
    exact h ▸ pushBytesFirst_phase a0 a1 s
  | getOldest => exact exec_getter_phase_of_ready .getOldest hphase h
  | getLatest => exact exec_getter_phase_of_ready .getLatest hphase h
  | removeOldest => exact exec_getter_phase_of_ready .removeOldest hphase h
  | removeLatest => exact exec_getter_phase_of_ready .removeLatest hphase h
  | getDataByte => exact exec_getter_phase_of_ready .getDataByte hphase h

/-! ### A run on its way to IDLE -/

/-- At moment `k` or later the phase is IDLE. -/
def Completes (states : Nat → State) (k : Nat) : Prop := ∃ j ≥ k, (states j).phase = .idle

section runs

variable {turns : Nat → Turn} {states : Nat → State} {j k : Nat}

theorem Completes.of_later (hkj : k ≤ j) (h : Completes states j) : Completes states k := by
  obtain ⟨m, hm, hidle⟩ := h
  exact ⟨m, hkj.trans hm, hidle⟩

/-- Between two consumer steps a phase stays, or a reset makes it IDLE. -/
theorem IsRun.phase_of_not_consumer (hrun : IsRun turns states) (hturn : turns k ≠ .consumer)
    (hbusy : (states k).phase ≠ .idle) :
    (states (k + 1)).phase = .idle ∨ (states (k + 1)).phase = (states k).phase := by
  have hnext := hrun.next k
  by_cases hreset : turns k = .reset
  · rw [hreset] at hnext
    injection hnext with hnext
    exact .inl (hnext ▸ rfl)
  · exact .inr (runTurn_phase (s := { states k with schedule := [] }) hturn hreset hbusy hnext)

theorem IsRun.consumer_next (hrun : IsRun turns states) (hturn : turns k = .consumer) :
    consumerStep { states k with schedule := [] } = .next (states (k + 1)) := by
  have hnext := hrun.next k
  rwa [hturn] at hnext

theorem IsRun.exec_next (hrun : IsRun turns states) (hturn : turns k = .consumer) {i : Instr}
    (hcommand : (states k).phase.command = some (.ok i)) :
    exec i { states k with schedule := [] } = .next (states (k + 1)) :=
  (consumerStep_of_command (s := { states k with schedule := [] }) hcommand).symm.trans (hrun.consumer_next hturn)

/-- A command reaches its next consumer step in the phase it is in, or is over. -/
theorem IsRun.completes_or_reaches (hrun : IsRun turns states) (hbusy : (states k).phase ≠ .idle) (d : Nat)
    (hturn : turns (k + d) = .consumer) :
    Completes states k ∨ ∃ j ≥ k, turns j = .consumer ∧ (states j).phase = (states k).phase := by
  induction d generalizing k with
  | zero => exact .inr ⟨k, Nat.le_refl k, hturn, rfl⟩
  | succ d ih =>
    by_cases hnow : turns k = .consumer
    · exact .inr ⟨k, Nat.le_refl k, hnow, rfl⟩
    rcases hrun.phase_of_not_consumer hnow hbusy with hidle | hsame
    · exact .inl ⟨k + 1, Nat.le_succ k, hidle⟩
    rcases ih (k := k + 1) (hsame ▸ hbusy) (by rwa [Nat.add_right_comm, Nat.add_assoc]) with hdone | ⟨j, hj, hlater, hp⟩
    · exact .inl (hdone.of_later (Nat.le_succ k))
    · exact .inr ⟨j, Nat.le_of_succ_le hj, hlater, hp.trans hsame⟩

/-- R280: the consumer sequencer's next step comes. -/
theorem FairRun.completes_or_steps (hfair : FairRun turns states) (hbusy : (states k).phase ≠ .idle) :
    Completes states k ∨ ∃ j ≥ k, turns j = .consumer ∧ (states j).phase = (states k).phase := by
  obtain ⟨hrun, hconsumer, -, -⟩ := hfair
  by_cases hdone : Completes states k
  · exact .inl hdone
  obtain ⟨j, hj, hturn⟩ := hconsumer k fun j hj hidle => hdone ⟨j, hj, hidle⟩
  exact hrun.completes_or_reaches hbusy (j - k) (by rwa [Nat.add_sub_cancel' hj])

/-! ### Waits -/

theorem IsRun.waiting_next (hrun : IsRun turns states) {op : Getter} {dst cap : Word} {t : Nat}
    (hwaiting : (states k).phase = .waiting op dst cap t) :
    (states (k + 1)).phase = .idle ∨ (states (k + 1)).phase = .waiting op dst cap t ∧
      (turns k = .consumer → Config.clockExpired (states k).draws t = false) := by
  by_cases hturn : turns k = .consumer
  · have hexec := hrun.exec_next hturn (by rw [hwaiting]; rfl)
    rw [exec_getter_of_waiting (s := { states k with schedule := [] }) hwaiting] at hexec
    injection hexec with hexec
    rw [← hexec]
    exact (waitStep_phase op dst cap t _).imp_right fun ⟨hsame, hpending⟩ => ⟨hsame.trans hwaiting, fun _ => hpending⟩
  · exact (hrun.phase_of_not_consumer hturn (by rw [hwaiting]; nofun)).imp_right fun hsame =>
      ⟨hsame.trans hwaiting, fun h => absurd h hturn⟩

/-- R47, R213: a wait that never ended would check for ever, and the Clock lets one of those checks see the timeout. -/
theorem FairRun.waiting_completes (hfair : FairRun turns states) {op : Getter} {dst cap : Word} {t : Nat}
    (hwaiting : (states k).phase = .waiting op dst cap t) : Completes states k := by
  obtain ⟨hrun, hconsumer, -, hclock⟩ := hfair
  by_contra hnever
  have hnext : ∀ j ≥ k, (states j).phase = .waiting op dst cap t → (states (j + 1)).phase = .waiting op dst cap t ∧
      (turns j = .consumer → Config.clockExpired (states j).draws t = false) := fun j hj hj' =>
    (hrun.waiting_next hj').resolve_left fun hidle => hnever ⟨j + 1, Nat.le_succ_of_le hj, hidle⟩
  have hstays : ∀ j ≥ k, (states j).phase = .waiting op dst cap t := fun j hj => by
    induction j, hj using Nat.le_induction with
    | base => exact hwaiting
    | succ j hj ih => exact (hnext j hj ih).1
  have hchecks : ∀ m ≥ k, ∃ j ≥ m, turns j = .consumer := fun m hm =>
    hconsumer m fun j hj hidle => hnever ⟨j, hm.trans hj, hidle⟩
  obtain ⟨j, hj, hturn, hexpired⟩ := hclock k op dst cap t hstays hchecks
  rw [(hnext j hj (hstays j hj)).2 hturn] at hexpired
  cases hexpired

/-! ### PUSH_BYTES -/

/-- R146, R280: the next consumer step of a PUSH_BYTES under way comes. -/
theorem FairRun.pushing_steps (hfair : FairRun turns states) {a : Word} {i n : Nat}
    (hpushing : (states k).phase = .pushing a i n) :
    Completes states k ∨ ∃ j ≥ k, states (j + 1) = pushBytesNext a i n { states j with schedule := [] } := by
  refine (hfair.completes_or_steps (by rw [hpushing]; nofun)).imp_right fun ⟨j, hj, hturn, hphase⟩ => ⟨j, hj, ?_⟩
  rw [hpushing] at hphase
  have hexec := hfair.1.exec_next hturn (i := .pushBytes) (by rw [hphase]; rfl)
  rw [exec_pushBytes_of_pushing (s := { states j with schedule := [] }) hphase] at hexec
  exact (Host.Outcome.next.inj hexec).symm

/-- R146: each consumer step pushes one of the `m` bytes left, and the one after them completes. -/
theorem FairRun.pushing_completes (hfair : FairRun turns states) {a : Word} {i m n : Nat} (hm : i + m = n)
    (hpushing : (states k).phase = .pushing a i n) : Completes states k := by
  induction m generalizing i k with
  | zero =>
    obtain rfl : i = n := hm
    rcases hfair.pushing_steps hpushing with hdone | ⟨j, hj, hnext⟩
    · exact hdone
    rw [pushBytesNext_of_done] at hnext
    exact ⟨j + 1, Nat.le_succ_of_le hj, hnext ▸ rfl⟩
  | succ m ih =>
    rcases hfair.pushing_steps hpushing with hdone | ⟨j, hj, hnext⟩
    · exact hdone
    rw [pushBytesNext_of_more a _ (by omega : i ≠ n)] at hnext
    have hrest : (states (j + 1)).phase = .pushing a (i + 1) n := hnext ▸ rfl
    exact (ih (by omega) hrest).of_later (Nat.le_succ_of_le hj)

/-! ### Every command but POOL -/

theorem FairRun.afterFirstStep_completes (hfair : FairRun turns states) (h : (states k).phase.AfterFirstStep) :
    Completes states k := by
  rcases h with hidle | ⟨a, n, hpushing⟩ | ⟨op, dst, cap, t, hwaiting⟩
  · exact ⟨k, Nat.le_refl k, hidle⟩
  · exact hfair.pushing_completes (Nat.zero_add n) hpushing
  · exact hfair.waiting_completes hwaiting

/-- R84, R213: an issued word, legal or not, other than POOL's. -/
theorem FairRun.ready_completes (hfair : FairRun turns states) {w a0 a1 a2 a3 : Word}
    (hready : (states k).phase = .ready w a0 a1 a2 a3) (hpool : decode .cmd w ≠ .ok .pool) : Completes states k := by
  rcases hfair.completes_or_steps (by rw [hready]; nofun) with hdone | ⟨j, hj, hturn, hphase⟩
  · exact hdone
  refine Completes.of_later (Nat.le_succ_of_le hj) (hfair.afterFirstStep_completes ?_)
  rw [hready] at hphase
  have hcommand : (states j).phase.command = some (decode .cmd w) := by rw [hphase]; rfl
  cases hdec : decode .cmd w with
  | error e =>
    have hstep := hfair.1.consumer_next hturn
    simp only [consumerStep, hcommand, hdec] at hstep
    injection hstep with hstep
    exact .inl (hstep ▸ rfl)
  | ok i =>
    exact exec_phase_of_ready (s := { states j with schedule := [] }) hphase
      (hfair.1.exec_next hturn (hdec ▸ hcommand)) (fun h => hpool (h ▸ hdec))
      fun d x h => decode_cmd_ne_pushByte w d x (h ▸ hdec)

end runs

/-! ### A POOL that never completes

The Host issues POOL, and from then on the Producer pushes a byte before each consumer step. -/

/-- The state after a turn. -/
def State.afterTurn (s : State) (t : Turn) : State :=
  match step (s.giveTurn t) with
  | .next u => u
  | _ => s

/-- The run from `s` in which `turns` says who moves. -/
def runFrom (turns : Nat → Turn) (s : State) (k : Nat) : State :=
  match k with
  | 0 => s
  | j + 1 => (runFrom turns s j).afterTurn (turns j)

theorem State.step_afterTurn {s : State} (hwf : s.cfg.wf = true) (t : Turn) :
    step (s.giveTurn t) = .next (s.afterTurn t) ∧ (s.afterTurn t).cfg = s.cfg := by
  obtain ⟨u, hstep, hcfg⟩ := everyStepAnswersANextState (s.giveTurn t) hwf
  simp only [State.afterTurn, hstep]
  exact ⟨trivial, hcfg⟩

/-- R22, R245: from a well-formed block any order of turns is a run. -/
theorem isRun_runFrom (turns : Nat → Turn) {s : State} (hwf : s.cfg.wf = true) : IsRun turns (runFrom turns s) := by
  have hcfg : ∀ k, (runFrom turns s k).cfg.wf = true := fun k => by
    induction k with
    | zero => exact hwf
    | succ k ih => rw [runFrom, (State.step_afterTurn ih (turns k)).2, ih]
  exact fun k => (State.step_afterTurn (hcfg k) (turns k)).1

/-- A POOL is in progress and the unparsed region is empty: the next consumer step would complete it. -/
def State.PoolStarved (s : State) : Prop :=
  s.phase.command = some (.ok .pool) ∧ s.procTail = s.head ∧ s.head < s.cfg.n

/-- A POOL is in progress and one byte is left to parse. -/
def State.PoolFed (s : State) : Prop :=
  s.phase.command = some (.ok .pool) ∧ s.procTail < s.cfg.n ∧ s.procTail ≠ s.head ∧ succMod s.cfg.n s.procTail = s.head

theorem State.PoolStarved.poolAgentReady {s : State} (h : s.PoolStarved) : s.poolAgentReady = false :=
  Bool.eq_false_iff.2 fun hready => (s.poolAgentReady_iff.1 hready).2 h.2.1

/-- In BACKGROUND mode a pushed byte is left to the Pool agent and to POOL. -/
theorem State.PoolStarved.push {s : State} (h : s.PoolStarved) (hmode : s.cfg.poolMode = .background) (hn : 2 ≤ s.cfg.n)
    (b : Byte) : (s.push b).PoolFed := by
  obtain ⟨hcommand, hempty, hring⟩ := h
  have hmoves : succMod s.cfg.n s.head ≠ s.head := by
    rw [succMod_eq hring]
    split_ifs <;> omega
  have htail : (s.push b).procTail = s.head := by
    rw [State.push_background hmode, State.pushRaw_procTail, hempty, if_neg hmoves]
  rw [State.PoolFed, State.push_phase, State.push_cfg, State.push_head, htail]
  exact ⟨hcommand, hring, hmoves.symm, rfl⟩

/-- R171: the consumer step parses the one byte and POOL goes on. -/
theorem State.PoolFed.starved_of_exec {s t : State} (h : s.PoolFed) (hexec : exec .pool s = .next t) :
    t.PoolStarved ∧ t.phase = .pooling ∧ t.cfg = s.cfg := by
  obtain ⟨-, hring, hmore, hone⟩ := h
  rw [exec_pool, if_neg hmore] at hexec
  injection hexec with hexec
  subst hexec
  refine ⟨⟨rfl, ?_, ?_⟩, rfl, s.poolStep_cfg⟩
  · show s.poolStep.procTail = s.poolStep.head
    rw [State.poolStep_procTail, State.poolStep_head, hone]
  · show s.poolStep.head < s.poolStep.cfg.n
    rw [State.poolStep_head, State.poolStep_cfg, ← hone]
    exact succMod_lt _ (Nat.zero_lt_of_lt hring)

/-- The Host writes POOL to CMD; from then on a write to PUSH and the consumer sequencer's turn alternate. -/
def feedingTurns (k : Nat) : Turn :=
  if k = 0 then .hostWrite 0x00 .w32 (encode .pool).2
  else if k % 2 = 1 then .hostWrite 0x20 .w32 0#32
  else .consumer

theorem feedingTurns_odd (m : Nat) : feedingTurns (2 * m + 1) = .hostWrite 0x20 .w32 0#32 := by
  rw [feedingTurns, if_neg (by omega), if_pos (by omega)]

theorem feedingTurns_even (m : Nat) : feedingTurns (2 * m + 2) = .consumer := by
  rw [feedingTurns, if_neg (by omega), if_neg (by omega)]

section feeding

variable {states : Nat → State} (hrun : IsRun feedingTurns states) {c : Config}
include hrun

/-- R45: the first turn issues POOL. -/
theorem poolStarved_after_issue (hwf : c.wf = true) (hstart : states 0 = State.init c) :
    (states 1).PoolStarved ∧ (states 1).cfg = c := by
  have hissued := hrun.next 0
  rw [hstart] at hissued
  have hstate : { State.init c with phase := .ready (encode .pool).2 0#32 0#32 0#32 0#32 } = states 1 :=
    Host.Outcome.next.inj hissued
  obtain ⟨⟨hn, -⟩, -⟩ := c.wf_iff_r7.1 hwf
  rw [← hstate]
  exact ⟨⟨congrArg some (decodeOfEncodeIsTheInstruction .pool rfl), rfl, hn⟩, rfl⟩

/-- F3: a byte pushed before the consumer's step keeps a POOL from completing. -/
theorem poolStarved_again {m : Nat} (hmode : (states (2 * m + 1)).cfg.poolMode = .background)
    (hn : 2 ≤ (states (2 * m + 1)).cfg.n) (h : (states (2 * m + 1)).PoolStarved) :
    (states (2 * m + 2)).phase = (states (2 * m + 1)).phase ∧ (states (2 * m + 3)).PoolStarved ∧
      (states (2 * m + 3)).phase = .pooling ∧ (states (2 * m + 3)).cfg = (states (2 * m + 1)).cfg := by
  have hnext := hrun.next (2 * m + 1)
  rw [feedingTurns_odd] at hnext
  have hpushed : State.push { states (2 * m + 1) with schedule := [] } 0#8 = states (2 * m + 2) :=
    Host.Outcome.next.inj hnext
  have hfed : (states (2 * m + 2)).PoolFed :=
    hpushed ▸ State.PoolStarved.push (s := { states (2 * m + 1) with schedule := [] }) h hmode hn 0#8
  have hexec := hrun.exec_next (feedingTurns_even m) hfed.1
  obtain ⟨hstarved, hphase, hcfg⟩ :=
    State.PoolFed.starved_of_exec (s := { states (2 * m + 2) with schedule := [] }) hfed hexec
  have hsame := State.push_frame { states (2 * m + 1) with schedule := [] } 0#8
  rw [hpushed] at hsame
  exact ⟨hsame.phase, hstarved, hphase, hcfg.trans hsame.cfg⟩

variable (hwf : c.wf = true) (hmode : c.poolMode = .background) (hn : 2 ≤ c.n) (hstart : states 0 = State.init c)
include hwf hmode hn hstart

theorem poolStarved_at_odd (m : Nat) : (states (2 * m + 1)).PoolStarved ∧ (states (2 * m + 1)).cfg = c := by
  induction m with
  | zero => exact poolStarved_after_issue hrun hwf hstart
  | succ m ih =>
    obtain ⟨hstarved, hcfg⟩ := ih
    obtain ⟨-, hagain, -, hsame⟩ := poolStarved_again hrun (hcfg ▸ hmode) (hcfg ▸ hn) hstarved
    exact ⟨hagain, hsame.trans hcfg⟩

/-- After the first consumer step the phase is POOLING, before each push and after it. -/
theorem pooling_from_three {j : Nat} (hj : 3 ≤ j) : (states j).phase = .pooling := by
  have hagain : ∀ m, (states (2 * m + 2)).phase = (states (2 * m + 1)).phase ∧ (states (2 * m + 3)).phase = .pooling :=
    fun m => by
      obtain ⟨hstarved, hcfg⟩ := poolStarved_at_odd hrun hwf hmode hn hstart m
      obtain ⟨hsame, -, hphase, -⟩ := poolStarved_again hrun (hcfg ▸ hmode) (hcfg ▸ hn) hstarved
      exact ⟨hsame, hphase⟩
  obtain ⟨m, rfl | rfl⟩ : ∃ m, j = 2 * m + 3 ∨ j = 2 * (m + 1) + 2 := ⟨(j - 3) / 2, by omega⟩
  · exact (hagain m).2
  · exact (hagain (m + 1)).1.trans (hagain m).2

/-- R280: the consumer moves at every even moment, and after each of its steps the Pool agent has nothing to do. -/
theorem fairRun_feeding : FairRun feedingTurns states := by
  refine ⟨hrun, fun k _ => ⟨2 * k + 2, by omega, feedingTurns_even k⟩, fun k hready => ?_,
    fun k op dst cap t hwaiting _ => ?_⟩
  · have hidle := (poolStarved_at_odd hrun hwf hmode hn hstart k).1.poolAgentReady
    rw [hready (2 * k + 1) (by omega)] at hidle
    cases hidle
  · have hpooling := pooling_from_three hrun hwf hmode hn hstart (j := k + 3) (by omega)
    rw [hwaiting (k + 3) (by omega)] at hpooling
    cases hpooling

end feeding

/-- Settles O60: the first part phase by phase, the second by the run that feeds a POOL for ever. -/
theorem fairRunsCompleteEveryCommandButPool : Obligations.FairRunsCompleteEveryCommandButPool := by
  refine ⟨fun turns states k hfair hok hpooling hpool => ?_, fun c hwf hmode hn => ?_⟩
  · cases hphase : (states k).phase with
    | idle => exact ⟨k, Nat.le_refl k, hphase⟩
    | ready w a0 a1 a2 a3 => exact hfair.ready_completes hphase (hpool w a0 a1 a2 a3 hphase)
    | pooling => exact absurd hphase hpooling
    | waiting op dst cap t => exact hfair.waiting_completes hphase
    | pushing a i n =>
      simp only [hphase, Phase.ok, decide_eq_true_eq] at hok
      obtain ⟨-, hle, -, -⟩ := hok
      exact hfair.pushing_completes (Nat.add_sub_cancel' hle) hphase
  · have hrun := isRun_runFrom feedingTurns (s := State.init c) hwf
    exact ⟨feedingTurns, runFrom feedingTurns (State.init c), rfl, fairRun_feeding hrun hwf hmode hn rfl, 3,
      fun j hj => pooling_from_three hrun hwf hmode hn rfl hj⟩

end Sys2Proof.Machine
